-- ==== Sys2Proof/Word.lean ====
section
/-! DEFINITION. The word types of the block (`spec/00_scope.md` R14: every value is an unsigned
word of a stated width, bit 0 the least significant) and the two plain records made of words. -/

namespace Sys2Proof

/-- A 32-bit register, command word, address word or PRNG word. -/
abbrev Word := BitVec 32

/-- One byte of a byte space. -/
abbrev Byte := BitVec 8

/-- A 12-bit ECC symbol, parity word or syndrome (R131). -/
abbrev Sym := BitVec 12

/-- A 24-bit codeword: data bits 23:12, parity bits 11:0 (R14). -/
abbrev Code := BitVec 24

/-- A Golay table: 4096 entries of 12 bits (R37). -/
abbrev Table := Vector Sym 4096

/-- A 12 by 12 matrix, one 12-bit row for each bit of the word it is folded over (R131). -/
abbrev Matrix := Vector Sym 12

/-- The PRNG state `(a, b, c, d)` of R39 (a). -/
structure Prng where
  a : Word
  b : Word
  c : Word
  d : Word
  deriving DecidableEq, Repr, Inhabited

end Sys2Proof
end

