-- ==== Sys2Proof/Machine/Bytes.lean ====
section
/-! DEFINITION. Byte order and bit counting (`spec/00_scope.md` R15, `spec/20_memory.md` R61 to R63):
the helpers that turn words into bytes and back. -/

namespace Sys2Proof.Machine

/-- Four bytes to a word, least-significant byte first (R15). -/
def le32 (b0 b1 b2 b3 : Byte) : Word := b3 ++ b2 ++ b1 ++ b0

/-- Four bytes to a word, most-significant byte first (R15). -/
def be32 (b0 b1 b2 b3 : Byte) : Word := b0 ++ b1 ++ b2 ++ b3

/-- Byte `j` of a word, `j` = 0 the least significant. -/
def byteOf {w : Nat} (v : BitVec w) (j : Nat) : Byte := v.extractLsb' (8 * j) 8

/-- The 4 bytes of a word, least-significant first (R15). -/
def bytesLe32 (v : Word) : List Byte := [byteOf v 0, byteOf v 1, byteOf v 2, byteOf v 3]

/-- The 4 bytes of a word, most-significant first (R15). -/
def bytesBe32 (v : Word) : List Byte := [byteOf v 3, byteOf v 2, byteOf v 1, byteOf v 0]

/-- Byte `a` of a byte string, 0 past its end. -/
def byteAt (bs : List Byte) (a : Nat) : Byte := bs.getD a 0

/-- Word `j` of a byte string packed little-endian (R62): bytes `4j .. 4j+3`. -/
def le32At (bs : List Byte) (j : Nat) : Word :=
  le32 (byteAt bs (4 * j)) (byteAt bs (4 * j + 1)) (byteAt bs (4 * j + 2)) (byteAt bs (4 * j + 3))

/-- A byte string packed into `n` registers (R62, R165). -/
def packLe32 (n : Nat) (bs : List Byte) : Vector Word n := Vector.ofFn fun j => le32At bs j.val

/-- The number of set bits (R15). -/
def popcount {w : Nat} (v : BitVec w) : Nat := (List.range w).countP fun i => v.getLsbD i

/-- A 24-bit codeword as 3 bytes, most-significant first (R61). -/
def codeBytes (cw : Code) : List Byte := [byteOf cw 2, byteOf cw 1, byteOf cw 0]

/-- Three bytes as a 24-bit word, the first the most significant (R61). -/
def codeOfBytes (b0 b1 b2 : Byte) : Code := b0 ++ b1 ++ b2

end Sys2Proof.Machine
end

