-- ==== Sys2Proof/Machine/Golay.lean ====
section
/-! DEFINITION. The Golay(24,12) arithmetic of `spec/41_ecc.md` section 1 and the three tables of
`spec/40_system.md` R117, as functions of the matrices and of one another. -/

namespace Sys2Proof.Machine

/-- R131: the xor of the rows of `m` selected by the set bits of `v`, row `i` with bit `i`. -/
def fold (m : Matrix) (v : Sym) : Sym :=
  (List.finRange 12).foldl (fun r i => if v.getLsbD i.val then r ^^^ m[i] else r) 0

/-- The data bits `r[23:12]` of a 24-bit word (R14). -/
def dataBits (r : Code) : Sym := r.extractLsb' 12 12

/-- The parity bits `r[11:0]` of a 24-bit word (R14). -/
def parityBits (r : Code) : Sym := r.extractLsb' 0 12

/-- `(w << 12) or p`: the 24-bit word with data `w` and parity `p` (R14, R138). -/
def mkCode (w p : Sym) : Code := w ++ p

/-- Entry `i` of a table. -/
def tableGet (t : Table) (i : Sym) : Sym := t[i.toNat]'(i.isLt)

/-- A table with entry `i` replaced. -/
def tableSet (t : Table) (i : Sym) (v : Sym) : Table := t.set i.toNat v i.isLt

/-- R132, R133: the table `w ↦ fold m w`, which is `ENC` for `GEN` and `SYN` for `CHK`. -/
def foldTable (m : Matrix) : Table := Vector.ofFn fun i : Fin 4096 => fold m (BitVec.ofNat 12 i.val)

/-- R134: the syndrome of a 24-bit word, from the table `SYN`. -/
def syndrome (syn : Table) (r : Code) : Sym := tableGet syn (parityBits r) ^^^ dataBits r

/-- R135: a single-bit error at bit `n` of the 24-bit word. -/
def errBit (n : Nat) : Code := 1#24 <<< n

/-- R135: the patterns in the order of the nested loops `i ≤ j ≤ k ≤ l`, `i` outermost, each index
ascending, the four bits combined with `or`. -/
def errPatterns : List Code :=
  (List.range' 0 24).flatMap fun i =>
    (List.range' i (24 - i)).flatMap fun j =>
      (List.range' j (24 - j)).flatMap fun k =>
        (List.range' k (24 - k)).map fun l => errBit i ||| errBit j ||| errBit k ||| errBit l

/-- R135: one iteration of the loop that fills `COR`: `COR[syn(e)] <- e[23:12]`. -/
def corStore (syn : Table) (cor : Table) (e : Code) : Table :=
  tableSet cor (syndrome syn e) (dataBits e)

/-- R117, R135: `COR` starts all zero and takes one store for each pattern, later ones replacing
earlier ones. -/
def corTable (syn : Table) : Table := errPatterns.foldl (corStore syn) (Vector.replicate 4096 0)

/-- R138: the codeword of a data word. -/
def encode12 (enc : Table) (w : Sym) : Code := mkCode w (tableGet enc w)

/-- R136: the decoded data word of a received 24-bit word. -/
def decode24 (syn cor : Table) (r : Code) : Sym :=
  dataBits r ^^^ tableGet cor (syndrome syn r)

/-- The codeword of `w` under generator matrix `m`, without a table (R5: `(w << 12) or fold(GEN, w)`). -/
def codeword (m : Matrix) (w : Sym) : Code := mkCode w (fold m w)

end Sys2Proof.Machine
end

