-- ==== Sys2Proof/Machine/Sha256.lean ====
section
/-! DEFINITION. SHA-256 as `spec/42_kdf.md` section 5 gives it (R170 to R174). It is REFCFG's value of
the configuration parameter `SHA256`; the machine itself keeps that parameter free (R12). The eight hash words
are one 256-bit value and a block is one 512-bit value, `H0` and the first byte on top. -/

namespace Sys2Proof.Machine

/-- Word `j` of a value made of 32-bit words, counted from the top, where the value has `n` words. -/
def wordFromTop {w : Nat} (n : Nat) (v : BitVec w) (j : Nat) : Word := v.extractLsb' (32 * (n - 1 - j)) 32

/-- R171: `H0 ‖ .. ‖ H7`. -/
def shaInit : BitVec 256 := 0x6a09e667_bb67ae85_3c6ef372_a54ff53a_510e527f_9b05688c_1f83d9ab_5be0cd19

/-- R172: the table of round constants, row by row. -/
def shaRows : List (BitVec 256) :=
  [0x428a2f98_71374491_b5c0fbcf_e9b5dba5_3956c25b_59f111f1_923f82a4_ab1c5ed5,
   0xd807aa98_12835b01_243185be_550c7dc3_72be5d74_80deb1fe_9bdc06a7_c19bf174,
   0xe49b69c1_efbe4786_0fc19dc6_240ca1cc_2de92c6f_4a7484aa_5cb0a9dc_76f988da,
   0x983e5152_a831c66d_b00327c8_bf597fc7_c6e00bf3_d5a79147_06ca6351_14292967,
   0x27b70a85_2e1b2138_4d2c6dfc_53380d13_650a7354_766a0abb_81c2c92e_92722c85,
   0xa2bfe8a1_a81a664b_c24b8b70_c76c51a3_d192e819_d6990624_f40e3585_106aa070,
   0x19a4c116_1e376c08_2748774c_34b0bcb5_391c0cb3_4ed8aa4a_5b9cca4f_682e6ff3,
   0x748f82ee_78a5636f_84c87814_8cc70208_90befffa_a4506ceb_bef9a3f7_c67178f2]

/-- R172: `K[0..63]`, eight to a row. -/
def shaConstants : List Word := shaRows.flatMap fun row => (List.range 8).map (wordFromTop 8 row)

/-- R173: the xor of the rotations of a word to the right. -/
def rotations (ns : List Nat) (x : Word) : Word := ns.foldl (fun r n => r ^^^ x.rotateRight n) 0

/-- R173: what the schedule holds after the words `W[t] .. W[t+15]`: the first leaves at the top, `W[t+16]` comes in
below. -/
def slideSchedule (win : BitVec 512) : BitVec 512 :=
  let word := wordFromTop 16 win
  let s0 := rotations [7, 18] (word 1) ^^^ (word 1 >>> 3)
  let s1 := rotations [17, 19] (word 14) ^^^ (word 14 >>> 10)
  (win <<< 32) ||| (word 0 + s0 + word 9 + s1).setWidth 512

/-- R173: `T1` for the constant `k` and the schedule word `w`, from the words `d .. h` of `v` at 3 .. 7. -/
def shaT1 (v : BitVec 256) (k w : Word) : Word :=
  let word := wordFromTop 8 v
  let choice := (word 4 &&& word 5) ^^^ (~~~(word 4) &&& word 6)
  word 7 + rotations [6, 11, 25] (word 4) + choice + k + w

/-- R173: `T2`, from the words `a, b, c` of `v`. -/
def shaT2 (v : BitVec 256) : Word :=
  let word := wordFromTop 8 v
  rotations [2, 13, 22] (word 0) + ((word 0 &&& word 1) ^^^ (word 0 &&& word 2) ^^^ (word 1 &&& word 2))

/-- R173: one round with the constant `k`: `a, b, c` and `e, f, g` move down by a word, and the words above them are
the two sums. -/
def shaRound (x : BitVec 256 × BitVec 512) (k : Word) : BitVec 256 × BitVec 512 :=
  let t1 := shaT1 x.1 k (wordFromTop 16 x.2 0)
  ((t1 + shaT2 x.1) ++ x.1.extractLsb' 160 96 ++ (wordFromTop 8 x.1 3 + t1) ++ x.1.extractLsb' 32 96,
    slideSchedule x.2)

/-- R173: the sum word by word. -/
def addWords (v u : BitVec 256) : BitVec 256 :=
  (List.range 8).foldl (fun r j => (r <<< 32) ||| (wordFromTop 8 v j + wordFromTop 8 u j).setWidth 256) 0

/-- R173: the hash words after one more block. -/
def shaBlock (hs : BitVec 256) (block : BitVec 512) : BitVec 256 :=
  addWords hs (shaConstants.foldl shaRound (hs, block)).1

/-- R170: the padding of a message of `n` bytes: the byte 0x80, zeros to a length of 56 modulo 64,
then `8·n` as 8 bytes, most-significant first. -/
def shaPad (n : Nat) : List Byte :=
  0x80 :: List.replicate ((119 - n % 64) % 64) 0
    ++ (List.range 8).map fun j => byteOf (BitVec.ofNat 64 (8 * n)) (7 - j)

/-- R170, R173: block `b` of a padded message as one value: `W[0] .. W[15]`, each `be32` of its bytes. -/
def shaBlockAt (padded : List Byte) (b : Nat) : BitVec 512 :=
  let byte := fun t j => byteAt padded (64 * b + 4 * t + j)
  (List.range 16).foldl
    (fun r t => (r <<< 32) ||| (be32 (byte t 0) (byte t 1) (byte t 2) (byte t 3)).setWidth 512) 0

/-- R174: the digest bytes of the final hash words. -/
def shaSerialise (hs : BitVec 256) : List Byte :=
  (List.range 8).flatMap fun j => bytesBe32 (wordFromTop 8 hs j)

/-- R170 to R174: the 32-byte digest of a byte string. -/
def sha256Digest (msg : List Byte) : Vector Byte 32 :=
  let padded := msg ++ shaPad msg.length
  let hs := (List.range (padded.length / 64)).foldl (fun hs b => shaBlock hs (shaBlockAt padded b)) shaInit
  Vector.ofFn fun j => byteAt (shaSerialise hs) j.val

end Sys2Proof.Machine
end

