-- ==== Sys2Proof/Machine/Reference.lean ====
section
/-! DEFINITION. The values of REFCFG, the reference configuration of `spec/00_scope.md` section 4. They
serve test vectors only: the machine's configuration is a constant without a body. -/

namespace Sys2Proof.Machine

/-- REFCFG `GEN` (spec/00_scope.md section 4). -/
def refGen : Matrix :=
  #v[0xC75, 0x49F, 0xD4B, 0x6E3, 0x9B3, 0xB66, 0xECC, 0x1ED, 0x3DA, 0x7B4, 0xB1D, 0xE3A]

/-- REFCFG `CHK` (spec/00_scope.md section 4). -/
def refChk : Matrix :=
  #v[0x49F, 0x93E, 0x6E3, 0xDC6, 0xF13, 0xAB9, 0x1ED, 0x3DA, 0x7B4, 0xF68, 0xA4F, 0xC75]

/-- REFCFG `SALT`: 00 01 .. 0F. -/
def refSalt : Vector Byte 16 := Vector.ofFn fun j => BitVec.ofNat 8 j.val

/-- REFCFG `SUFFIX`: the 69 ASCII bytes of spec/00_scope.md section 4. -/
def refSuffix : List Byte :=
  "IMC-REFCFG/header-derivation-context/0123456789abcdef0123456789abcdef".toList.map
    fun ch => BitVec.ofNat 8 ch.toNat

/-- R196: REFCFG `PRNG_STEP`, sfc32. -/
def sfc32 (p : Prng) : Prng × Word :=
  let d := p.d + 1
  let t := p.a + p.b + d
  ({ a := p.b ^^^ (p.b >>> 9), b := p.c + (p.c <<< 3), c := p.c.rotateLeft 21 + t, d := d }, t)

/-- R194: REFCFG `DISCARD`. -/
def refDiscard (seed : Vector Word 4) : Nat :=
  ((seed[0] ^^^ seed[1]) &&& 0xFF).toNat + ((seed[2] ^^^ seed[3]) &&& 0xFF).toNat + 16

end Sys2Proof.Machine
end

