-- ==== Sys2Proof/Machine/Cfg.lean ====
section
/-! DEFINITION. The configuration record `Cfg` of `spec/00_scope.md` section 4 with its constraints (R5 to
R13). Its defaults are the reference configuration REFCFG. -/

namespace Sys2Proof

/-- The parameters of `spec/00_scope.md` section 4 that are open (`92_eei_decisions.md` section 6). The
defaults are REFCFG. -/
structure Cfg where
  /-- `GEN` (R5) -/
  gen : Matrix := Machine.refGen
  /-- `CHK` (R5) -/
  chk : Matrix := Machine.refChk
  /-- `SALT` (R6) -/
  salt : Vector Byte 16 := Machine.refSalt
  /-- `SUFFIX` (R7) -/
  suffix : List Byte := Machine.refSuffix
  /-- `SHA256` (R12): a total function from byte strings to 32 bytes -/
  sha256 : List Byte → Vector Byte 32 := Machine.sha256Digest
  /-- `PRNG_STEP` (R8) -/
  prngStep : Prng → Prng × Word := Machine.sfc32
  /-- `DISCARD` (R9), a function of `SEED0..3` -/
  discard : Vector Word 4 → Nat := Machine.refDiscard
  /-- `PW_MAX` (R13) -/
  pwMax : Nat := 256
  /-- `PIX_MAX` (R13) -/
  pixMax : Nat := 2 ^ 24
  /-- `DBUF_MAX` (R13) -/
  dbufMax : Nat := 2 ^ 20
  /-- `AOUT_MAX` (R13) -/
  aoutMax : Nat := 2 ^ 16
  deriving Inhabited

/-- `POOL_MAX = 12 · PIX_MAX` (section 4, D8). -/
def Cfg.poolMax (c : Cfg) : Nat := 12 * c.pixMax

/-- The constraints of R5 to R13: P1 and P2 on the matrices, a non-empty suffix, and the bounds of the
sizes in the table of section 4. -/
structure Cfg.Admissible (c : Cfg) : Prop where
  /-- P1: folding `CHK` over the parity of `w` gives `w` back -/
  p1 : ∀ w : Sym, Machine.fold c.chk (Machine.fold c.gen w) = w
  /-- P2: two distinct codewords differ in at least 8 bits -/
  p2 : ∀ v w : Sym, v ≠ w →
    8 ≤ Machine.popcount (Machine.codeword c.gen v ^^^ Machine.codeword c.gen w)
  suffix_ne : c.suffix ≠ []
  pwMax_pos : 1 ≤ c.pwMax
  pixMax_le : c.pixMax ≤ 2 ^ 28
  dbufMax_ge : 3 ≤ c.dbufMax
  dbufMax_le : c.dbufMax ≤ 2 ^ 28
  aoutMax_ge : 264 ≤ c.aoutMax
  aoutMax_dvd : 8 ∣ c.aoutMax

/-- The reference configuration. -/
def refCfg : Cfg := {}

end Sys2Proof
end

