-- ==== Sys2Proof/Syntax.lean ====
section
/-! DEFINITION. The whole syntax: the thirteen commands of `spec/30_encoding.md` R96 (fifteen rows
of the opcode table, `TBL.RD` being three), the registers of `spec/10_state.md` R35, the host's
accesses, and the lines of a host script (R102). -/

namespace Sys2Proof

/-- The scatter mode, immediate `m` of `SC.FREE` and `SC.GEN` and the value of `STATUS.SC_MODE`
(R92, R26): 0 is Uniform, 1 is Shaped. -/
inductive Mode where
  | uniform
  | shaped
  deriving DecidableEq, Repr

/-- The derivation context, immediate `m` of `KDF.DERIVE` (R92): 0 is payload, 1 is header. -/
inductive Context where
  | payload
  | header
  deriving DecidableEq, Repr

/-- The command set IMC-CS 1.0 (R2, R96): one constructor for each row of
`spec/opcode_table.json`. -/
inductive Instr where
  /-- `NOP` (R111) -/
  | nop
  /-- `SRESET` (R113) -/
  | sreset
  /-- `TBL.RD ENC, idx` (R115, `sel` = 0) -/
  | tblRdEnc (idx : Sym)
  /-- `TBL.RD SYN, idx` (R115, `sel` = 1) -/
  | tblRdSyn (idx : Sym)
  /-- `TBL.RD COR, idx` (R115, `sel` = 2) -/
  | tblRdCor (idx : Sym)
  /-- `ECC.ENC12` (R138) -/
  | eccEnc12
  /-- `ECC.DEC24` (R139) -/
  | eccDec24
  /-- `ECC.ENCB` (R142) -/
  | eccEncb
  /-- `ECC.DECB` (R144) -/
  | eccDecb
  /-- `KDF.DERIVE m` (R166) -/
  | kdfDerive (m : Context)
  /-- `KDF.CLEAR` (R167) -/
  | kdfClear
  /-- `SC.INIT` (R210) -/
  | scInit
  /-- `SC.FREE m` (R211) -/
  | scFree (m : Mode)
  /-- `SC.GEN m` (R212) -/
  | scGen (m : Mode)
  /-- `SC.END` (R213) -/
  | scEnd
  deriving DecidableEq, Repr

/-- Why a command word is illegal (R97, R98); each is reported as `E_ILLEGAL`. -/
inductive Illegal where
  /-- the opcode is not in the map of R96 (R97) -/
  | reservedOpcode
  /-- a 'must be 0' field is not 0 (R98) -/
  | reservedField
  /-- `TBL.RD` with `sel` = 3 (R98) -/
  | reservedTable
  deriving DecidableEq, Repr

/-- The command errors of R281. -/
inductive CmdError where
  | illegal
  | operand
  | length
  | noSession
  | capacity
  | regress
  deriving DecidableEq, Repr

/-- The registers of the map of R35; `reserved` is any of the offsets of R36. -/
inductive Reg where
  | id
  | cmd
  | status
  | err
  | errInfo0
  | errInfo1
  | ctrl
  | pwLen
  | arg0
  | arg1
  | res0
  | res1
  | seed (j : Fin 4)
  | scAvail
  | scTotal
  | scUsed
  | scPos
  | scRq (k : Fin 4)
  | scLive (k : Fin 4)
  | scBase (k : Fin 4)
  | keyP (j : Fin 8)
  | ivP (j : Fin 4)
  | keyH (j : Fin 8)
  | ivH (j : Fin 4)
  | reserved
  deriving DecidableEq, Repr

/-- The spaces a host access can name (R40). `POOL`, `LA`, the tables and the sort scratch are
internal and have no name here. -/
inductive Space where
  | reg
  | pwbuf
  | din
  | dout
  | aout
  | pix
  deriving DecidableEq, Repr

/-- The width of one host access (R72 speaks of accesses of another width than 32 bits). -/
inductive Width where
  | byte
  | half
  | word
  deriving DecidableEq, Repr

/-- What a hardware reset leaves in the memories whose contents R41 and R321 call unspecified. It
comes with the reset event, so that every content is allowed (`93_implementation_defined.md` U1). -/
structure Residue where
  din : List Byte
  dout : List Byte
  aout : List Word
  pool : List Word
  la : List (Fin 4)
  deriving DecidableEq, Repr

/-- One thing the outside world does to the block (R20 (a), R102, R320). -/
inductive HostEvent where
  /-- a write of `v` at byte offset `off` of space `sp`, with `STATUS.BUSY` as it stands -/
  | write (sp : Space) (w : Width) (off : Nat) (v : Word)
  /-- a read at byte offset `off` of space `sp` -/
  | read (sp : Space) (w : Width) (off : Nat)
  /-- a write at an offset of the flat host map of R66 -/
  | busWrite (w : Width) (addr : Nat) (v : Word)
  /-- a read at an offset of the flat host map of R66 -/
  | busRead (w : Width) (addr : Nat)
  /-- the host waits: the table build or the command in progress, if any, runs to its end -/
  | wait
  /-- the reset input is asserted (R320) -/
  | hwReset (r : Residue)
  deriving DecidableEq, Repr

/-- One line of a host script (R102). -/
inductive ScriptLine where
  | wr (r : Reg) (v : Word)
  | wrb (sp : Space) (off : Nat) (bytes : List Byte)
  | cmd (i : Instr)
  | wait
  | rd (r : Reg)
  | rdb (sp : Space) (off count : Nat)
  | rdw (index count : Nat)
  | ack
  deriving DecidableEq, Repr

end Sys2Proof
end

