-- ==== Sys2Proof/Machine/Operands.lean ====
section
/-! DEFINITION. Operand forms: the fields of a command word (`spec/30_encoding.md` R90, R92), the range
check of a register operand (R93), the register map (`spec/10_state.md` R35) and the flat host map
(`spec/20_memory.md` R66). -/

namespace Sys2Proof.Machine

/-- The opcode, bits 31:24 (R90). -/
def opcodeOf (c : Word) : BitVec 8 := c.extractLsb' 24 8

/-- The immediate `m`, bit 0 (R92). -/
def immM (c : Word) : BitVec 1 := c.extractLsb' 0 1

/-- The immediate `sel`, bits 13:12 (R92). -/
def immSel (c : Word) : BitVec 2 := c.extractLsb' 12 2

/-- The immediate `idx`, bits 11:0 (R92). -/
def immIdx (c : Word) : Sym := c.extractLsb' 0 12

/-- The 'must be 0' field of format Z, bits 23:0 (R90). -/
def reservedZ (c : Word) : BitVec 24 := c.extractLsb' 0 24

/-- The 'must be 0' field of format M, bits 23:1 (R90). -/
def reservedM (c : Word) : BitVec 23 := c.extractLsb' 1 23

/-- The 'must be 0' field of format T, bits 23:14 (R90). -/
def reservedT (c : Word) : BitVec 10 := c.extractLsb' 14 10

/-- R92: `m` as a scatter mode. -/
def modeOfBit (m : BitVec 1) : Mode := if m = 0 then .uniform else .shaped

/-- R92: a scatter mode as `m`. -/
def bitOfMode : Mode → BitVec 1
  | .uniform => 0
  | .shaped => 1

/-- R92: `m` as a derivation context. -/
def contextOfBit (m : BitVec 1) : Context := if m = 0 then .payload else .header

/-- R92: a derivation context as `m`. -/
def bitOfContext : Context → BitVec 1
  | .payload => 0
  | .header => 1

/-- R93: a register operand is at most `limit`; no operand is truncated silently. -/
def inRange (v : Word) (limit : Nat) : Bool := decide (v.toNat ≤ limit)

/-- R35: the byte offset of a register in the space `REG`. A reserved register has the first offset of
R36. -/
def regOffset : Reg → Nat
  | .id => 0x000
  | .cmd => 0x004
  | .status => 0x008
  | .err => 0x00C
  | .errInfo0 => 0x010
  | .errInfo1 => 0x014
  | .ctrl => 0x018
  | .pwLen => 0x01C
  | .arg0 => 0x020
  | .arg1 => 0x024
  | .res0 => 0x028
  | .res1 => 0x02C
  | .seed j => 0x030 + 4 * j.val
  | .scAvail => 0x040
  | .scTotal => 0x044
  | .scUsed => 0x048
  | .scPos => 0x04C
  | .scRq k => 0x050 + 4 * k.val
  | .scLive k => 0x060 + 4 * k.val
  | .scBase k => 0x070 + 4 * k.val
  | .keyP j => 0x080 + 4 * j.val
  | .ivP j => 0x0A0 + 4 * j.val
  | .keyH j => 0x0C0 + 4 * j.val
  | .ivH j => 0x0E0 + 4 * j.val
  | .reserved => 0x0B0

/-- R35, R36, R65: the register at word `n` of the space `REG`, for `n` below 64. -/
def regOfIndex (n : Nat) : Reg :=
  if n = 0 then .id
  else if n = 1 then .cmd
  else if n = 2 then .status
  else if n = 3 then .err
  else if n = 4 then .errInfo0
  else if n = 5 then .errInfo1
  else if n = 6 then .ctrl
  else if n = 7 then .pwLen
  else if n = 8 then .arg0
  else if n = 9 then .arg1
  else if n = 10 then .res0
  else if n = 11 then .res1
  else if n < 16 then .seed (Fin.ofNat 4 (n - 12))
  else if n = 16 then .scAvail
  else if n = 17 then .scTotal
  else if n = 18 then .scUsed
  else if n = 19 then .scPos
  else if n < 24 then .scRq (Fin.ofNat 4 (n - 20))
  else if n < 28 then .scLive (Fin.ofNat 4 (n - 24))
  else if n < 32 then .scBase (Fin.ofNat 4 (n - 28))
  else if n < 40 then .keyP (Fin.ofNat 8 (n - 32))
  else if n < 44 then .ivP (Fin.ofNat 4 (n - 40))
  else if n < 48 then .reserved
  else if n < 56 then .keyH (Fin.ofNat 8 (n - 48))
  else if n < 60 then .ivH (Fin.ofNat 4 (n - 56))
  else .reserved

/-- The size of a space in bytes (R40, R66): `none` for `PIX`, the host's own memory. -/
def spaceSize (c : Cfg) : Space → Option Nat
  | .reg => some 0x100
  | .pwbuf => some c.pwMax
  | .din => some c.dbufMax
  | .dout => some c.dbufMax
  | .aout => some (4 * c.aoutMax)
  | .pix => none

/-- Whether a byte offset lies inside a space. -/
def inSpace (c : Cfg) (sp : Space) (off : Nat) : Bool :=
  match spaceSize c sp with
  | none => true
  | some n => decide (off < n)

/-- R60, R72: the accesses a space takes: aligned 32-bit ones for `REG` and `AOUT`, bytes at every offset
for the byte spaces. notes/assumptions/6.md. -/
def properAccess (sp : Space) (w : Width) (off : Nat) : Bool :=
  match sp with
  | .reg => decide (w = .word ∧ off % 4 = 0)
  | .aout => decide (w = .word ∧ off % 4 = 0)
  | .pwbuf => decide (w = .byte)
  | .din => decide (w = .byte)
  | .dout => decide (w = .byte)
  | .pix => decide (w = .byte)

/-- R66: the space and the offset in it that a flat host offset names; the rows of the table in order.
notes/assumptions/7.md. -/
def hostMap (c : Cfg) (addr : Nat) : Option (Space × Nat) :=
  if addr < 0x100 then some (.reg, addr)
  else if 0x1000 ≤ addr ∧ addr < 0x1000 + c.pwMax then some (.pwbuf, addr - 0x1000)
  else if 0x01000000 ≤ addr ∧ addr < 0x01000000 + c.dbufMax then some (.din, addr - 0x01000000)
  else if 0x02000000 ≤ addr ∧ addr < 0x02000000 + c.dbufMax then some (.dout, addr - 0x02000000)
  else if 0x03000000 ≤ addr ∧ addr < 0x03000000 + 4 * c.aoutMax then some (.aout, addr - 0x03000000)
  else none

/-- The bits a read of a given width can return. -/
def truncateTo (w : Width) (v : Word) : Word :=
  match w with
  | .byte => v &&& 0xFF
  | .half => v &&& 0xFFFF
  | .word => v

end Sys2Proof.Machine
end

