-- ==== Sys2Proof/WellFormed.lean ====
section
/-! DEFINITION. Well-formedness of the syntax. A command has none to check: its fields have exactly the values the
encoding admits (`spec/30_encoding.md` R90, R92). A host access and a script line are checked against R72 and
R102. -/

namespace Sys2Proof

/-- Every command is well formed: `idx` is a 12-bit word and `m` one of two names, so that each term stands
for one legal word of R96. -/
def Instr.wellFormed : Instr → Bool
  | .nop => true
  | .sreset => true
  | .tblRdEnc _ => true
  | .tblRdSyn _ => true
  | .tblRdCor _ => true
  | .eccEnc12 => true
  | .eccDec24 => true
  | .eccEncb => true
  | .eccDecb => true
  | .kdfDerive _ => true
  | .kdfClear => true
  | .scInit => true
  | .scFree _ => true
  | .scGen _ => true
  | .scEnd => true

/-- The host's duties of R72 (`93_implementation_defined.md` U4): an access has a width and an alignment its
space takes. -/
def HostEvent.wellFormed : HostEvent → Bool
  | .write sp w off _ => Machine.properAccess sp w off
  | .read sp w off => Machine.properAccess sp w off
  | .busWrite _ _ _ => true
  | .busRead _ _ => true
  | .wait => true
  | .hwReset _ => true

/-- R102: `wrb` writes `PWBUF`, `DIN` or `PIX`; `rdb` reads `DIN` or `DOUT`. -/
def ScriptLine.wellFormed : ScriptLine → Bool
  | .wr _ _ => true
  | .wrb sp _ _ => decide (sp = .pwbuf ∨ sp = .din ∨ sp = .pix)
  | .cmd i => i.wellFormed
  | .wait => true
  | .rd _ => true
  | .rdb sp _ _ => decide (sp = .din ∨ sp = .dout)
  | .rdw _ _ => true
  | .ack => true

end Sys2Proof
end

