-- ==== Sys2Proof/Decode.lean ====
section
/-! DEFINITION. The decoder and the encoder of command words (`spec/30_encoding.md` R90, R96 to R101). -/

namespace Sys2Proof

open Sys2Proof.Machine

/-- Format Z: bits 23:0 must be 0 (R90). -/
def decodeZ (c : Word) (i : Instr) : Except Illegal Instr :=
  if reservedZ c = 0 then .ok i else .error .reservedField

/-- Format M: bits 23:1 must be 0, bit 0 is `m` (R90). -/
def decodeM (c : Word) (f : BitVec 1 → Instr) : Except Illegal Instr :=
  if reservedM c = 0 then .ok (f (immM c)) else .error .reservedField

/-- Format T: bits 23:14 must be 0, `sel` selects the table (R90, R92, R98). -/
def decodeT (c : Word) : Except Illegal Instr :=
  if reservedT c = 0 then
    match (immSel c).toNat with
    | 0 => .ok (.tblRdEnc (immIdx c))
    | 1 => .ok (.tblRdSyn (immIdx c))
    | 2 => .ok (.tblRdCor (immIdx c))
    | _ => .error .reservedTable
  else .error .reservedField

/-- The opcode map (R96): every 32-bit word is one of the commands or illegal, for a named reason (R97 to
R99). -/
def decode (c : Word) : Except Illegal Instr :=
  match (opcodeOf c).toNat with
  | 0x00 => decodeZ c .nop
  | 0x01 => decodeZ c .sreset
  | 0x08 => decodeT c
  | 0x10 => decodeZ c .eccEnc12
  | 0x11 => decodeZ c .eccDec24
  | 0x12 => decodeZ c .eccEncb
  | 0x13 => decodeZ c .eccDecb
  | 0x20 => decodeM c fun m => .kdfDerive (contextOfBit m)
  | 0x21 => decodeZ c .kdfClear
  | 0x30 => decodeZ c .scInit
  | 0x31 => decodeM c fun m => .scFree (modeOfBit m)
  | 0x32 => decodeM c fun m => .scGen (modeOfBit m)
  | 0x33 => decodeZ c .scEnd
  | _ => .error .reservedOpcode

/-- A word of format Z (R90). -/
def encodeZ (op : BitVec 8) : Word := op ++ 0#24

/-- A word of format M (R90). -/
def encodeM (op : BitVec 8) (m : BitVec 1) : Word := op ++ 0#23 ++ m

/-- A word of format T (R90). -/
def encodeT (sel : BitVec 2) (idx : Sym) : Word := 0x08#8 ++ 0#10 ++ sel ++ idx

/-- The command word of each command (R96, R101). -/
def encode : Instr → Word
  | .nop => encodeZ 0x00
  | .sreset => encodeZ 0x01
  | .tblRdEnc idx => encodeT 0 idx
  | .tblRdSyn idx => encodeT 1 idx
  | .tblRdCor idx => encodeT 2 idx
  | .eccEnc12 => encodeZ 0x10
  | .eccDec24 => encodeZ 0x11
  | .eccEncb => encodeZ 0x12
  | .eccDecb => encodeZ 0x13
  | .kdfDerive m => encodeM 0x20 (bitOfContext m)
  | .kdfClear => encodeZ 0x21
  | .scInit => encodeZ 0x30
  | .scFree m => encodeM 0x31 (bitOfMode m)
  | .scGen m => encodeM 0x32 (bitOfMode m)
  | .scEnd => encodeZ 0x33

/-- The 32-bit command word whose bits the opcode table numbers as `w`; the bits from `nbits` up are 0. -/
def tableWord (nbits w : Nat) : Word := BitVec.ofNat 32 (w % 2 ^ nbits)

/-- The command the decoder reads from a row's bits, `none` where it rejects them. -/
def decodeTableWord (nbits w : Nat) : Option Instr :=
  match decode (tableWord nbits w) with
  | .ok i => some i
  | .error _ => none

end Sys2Proof
end

