-- ==== Sys2Proof/Laws/Golay.lean ====
section
/-! SUPPORT. Linearity of `fold` and of codewords (R131), and the small lemmas of the table
operations. -/

namespace Sys2Proof.Laws

open Sys2Proof.Machine

/-- The selecting fold over any rows: the loop of R131 with the rows' width left open. -/
def selectXor {w : Nat} (rows : Fin 12 → BitVec w) (v : Sym) (l : List (Fin 12)) (acc : BitVec w) :
    BitVec w :=
  l.foldl (fun r i => if v.getLsbD i.val then r ^^^ rows i else r) acc

theorem fold_eq_selectXor (m : Matrix) (v : Sym) :
    fold m v = selectXor (fun i => m[i]) v (List.finRange 12) 0 := rfl

theorem selectXor_xor {w : Nat} (rows : Fin 12 → BitVec w) (u v : Sym) (l : List (Fin 12))
    (x y : BitVec w) :
    selectXor rows (u ^^^ v) l (x ^^^ y) = selectXor rows u l x ^^^ selectXor rows v l y := by
  induction l generalizing x y with
  | nil => rfl
  | cons i l ih =>
    have step : (if (u ^^^ v).getLsbD i.val then (x ^^^ y) ^^^ rows i else x ^^^ y)
        = (if u.getLsbD i.val then x ^^^ rows i else x)
          ^^^ (if v.getLsbD i.val then y ^^^ rows i else y) := by
      rw [BitVec.getLsbD_xor]
      generalize u.getLsbD i.val = p
      generalize v.getLsbD i.val = q
      ext n hn
      cases p <;> cases q <;> simp only [Bool.false_eq_true, if_true, if_false, Bool.bne_false,
        Bool.bne_true, Bool.not_true, Bool.not_false, BitVec.getElem_xor]
      · cases x[n] <;> cases y[n] <;> cases (rows i)[n] <;> rfl
      · cases x[n] <;> cases y[n] <;> cases (rows i)[n] <;> rfl
      · cases x[n] <;> cases y[n] <;> cases (rows i)[n] <;> rfl
    simp only [selectXor, List.foldl_cons] at ih ⊢
    rw [step]
    exact ih _ _

/-- R131: `fold(M, a xor b) = fold(M, a) xor fold(M, b)`. -/
theorem fold_xor (m : Matrix) (u v : Sym) : fold m (u ^^^ v) = fold m u ^^^ fold m v := by
  simpa [fold_eq_selectXor] using selectXor_xor (fun i : Fin 12 => m[i]) u v (List.finRange 12) 0 0

theorem selectXor_zero {w : Nat} (rows : Fin 12 → BitVec w) (l : List (Fin 12)) (x : BitVec w) :
    selectXor rows 0 l x = x := by
  induction l generalizing x with
  | nil => rfl
  | cons i l ih =>
    simp only [selectXor, List.foldl_cons] at ih ⊢
    simp

/-- R131: `fold(M, 0) = 0`. -/
@[simp] theorem fold_zero (m : Matrix) : fold m 0 = 0 := by
  rw [fold_eq_selectXor, selectXor_zero]

/-- A xor-preserving map moves through the selecting fold. -/
theorem selectXor_map {w w' : Nat} (f : BitVec w → BitVec w') (hf : ∀ x y, f (x ^^^ y) = f x ^^^ f y)
    (rows : Fin 12 → BitVec w) (v : Sym) (l : List (Fin 12)) (x : BitVec w) :
    f (selectXor rows v l x) = selectXor (fun i => f (rows i)) v l (f x) := by
  induction l generalizing x with
  | nil => rfl
  | cons i l ih =>
    simp only [selectXor, List.foldl_cons] at ih ⊢
    rw [ih]
    cases v.getLsbD i.val <;> simp [hf]

/-- The unit rows select the word itself. -/
theorem selectXor_unit (v : Sym) :
    selectXor (fun i : Fin 12 => 1#12 <<< i.val) v (List.finRange 12) 0 = v := by
  have bit : ∀ (b : Bool) (r c : Sym) (n : Nat),
      (if b then r ^^^ c else r).getLsbD n = (r.getLsbD n ^^ (b && c.getLsbD n)) := by
    intro b r c n
    cases b <;> simp
  ext i hi
  simp only [selectXor, ← BitVec.getLsbD_eq_getElem]
  rw [show List.finRange 12 = [0, 1, 2, 3, 4, 5, 6, 7, 8, 9, 10, 11] from rfl]
  simp only [List.foldl_cons, List.foldl_nil, bit]
  interval_cases i <;> simp

theorem mkCode_xor (a b p q : Sym) : mkCode (a ^^^ b) (p ^^^ q) = mkCode a p ^^^ mkCode b q := by
  apply BitVec.eq_of_getLsbD_eq
  intro i hi
  simp only [mkCode, BitVec.getLsbD_xor, BitVec.getLsbD_append]
  split <;> simp

@[simp] theorem dataBits_mkCode (w p : Sym) : dataBits (mkCode w p) = w := by
  ext i hi
  simp only [dataBits, mkCode, BitVec.getElem_extractLsb', BitVec.getLsbD_append]
  simp [hi, BitVec.getLsbD_eq_getElem]

@[simp] theorem parityBits_mkCode (w p : Sym) : parityBits (mkCode w p) = p := by
  ext i hi
  simp only [parityBits, mkCode, BitVec.getElem_extractLsb', BitVec.getLsbD_append]
  simp [hi, BitVec.getLsbD_eq_getElem]

theorem dataBits_xor (r e : Code) : dataBits (r ^^^ e) = dataBits r ^^^ dataBits e := by
  simp [dataBits, BitVec.extractLsb'_xor]

theorem parityBits_xor (r e : Code) : parityBits (r ^^^ e) = parityBits r ^^^ parityBits e := by
  simp [parityBits, BitVec.extractLsb'_xor]

/-- R131: codewords are linear in the data word. -/
theorem codeword_xor (m : Matrix) (u v : Sym) :
    codeword m (u ^^^ v) = codeword m u ^^^ codeword m v := by
  rw [codeword, fold_xor, mkCode_xor]; rfl

@[simp] theorem dataBits_codeword (m : Matrix) (w : Sym) : dataBits (codeword m w) = w :=
  dataBits_mkCode w _

@[simp] theorem parityBits_codeword (m : Matrix) (w : Sym) : parityBits (codeword m w) = fold m w :=
  parityBits_mkCode w _

/-- The codeword of `w` is the xor of the codewords of its set bits. -/
theorem codeword_eq_selectXor (m : Matrix) (w : Sym) :
    codeword m w = selectXor (fun i : Fin 12 => mkCode (1#12 <<< i.val) m[i]) w (List.finRange 12) 0 := by
  have h : ∀ (l : List (Fin 12)) (x p : Sym),
      selectXor (fun i : Fin 12 => mkCode (1#12 <<< i.val) m[i]) w l (mkCode x p)
        = mkCode (selectXor (fun i : Fin 12 => 1#12 <<< i.val) w l x)
            (selectXor (fun i => m[i]) w l p) := by
    intro l
    induction l with
    | nil => intro x p; rfl
    | cons i l ih =>
      intro x p
      simp only [selectXor, List.foldl_cons] at ih ⊢
      cases w.getLsbD i.val
      · exact ih x p
      · simp only [if_true]
        rw [← mkCode_xor]
        exact ih _ _
  have h0 := h (List.finRange 12) 0 0
  rw [selectXor_unit, ← fold_eq_selectXor] at h0
  rw [codeword, ← h0]
  rfl

/-- R132, R133: every entry of a fold table is the fold of its index. -/
@[simp] theorem tableGet_foldTable (m : Matrix) (w : Sym) : tableGet (foldTable m) w = fold m w := by
  simp [tableGet, foldTable]

theorem tableGet_tableSet (t : Table) (i j v : Sym) :
    tableGet (tableSet t i v) j = if i = j then v else tableGet t j := by
  by_cases h : i = j
  · subst h; simp [tableGet, tableSet]
  · have hn : i.toNat ≠ j.toNat := fun hc => h (BitVec.eq_of_toNat_eq hc)
    simp [tableGet, tableSet, hn, h]

@[simp] theorem tableGet_replicate (v w : Sym) :
    tableGet (Vector.replicate 4096 v : Table) w = v := by
  simp [tableGet]

end Sys2Proof.Laws
end

