-- ==== Sys2Proof/Laws/Reference.lean ====
section
/-! SUPPORT. REFCFG is admissible (R5): P1 and P2 by linearity and one exhaustive kernel evaluation over
the 4096 codewords (`spec/95_test_vectors.md` V1), the other constraints by evaluation. -/

namespace Sys2Proof.Laws

open Sys2Proof.Machine

/-- `p` holds of every xor of some of the rows with `acc`, on naturals. -/
def spanAll (p : Nat → Bool) : List Nat → Nat → Bool
  | [], acc => p acc
  | r :: rs, acc => and (spanAll p rs acc) (spanAll p rs (Nat.xor acc r))

/-- The number of ones among the low `k` bits of `n`. -/
def onesBelow : Nat → Nat → Nat
  | 0, _ => 0
  | Nat.succ k, n => Nat.add (Nat.mod n 2) (onesBelow k (Nat.div n 2))

theorem onesBelow_eq_countP (k n : Nat) :
    onesBelow k n = (List.range k).countP fun i => n.testBit i := by
  induction k generalizing n with
  | zero => rfl
  | succ k ih =>
    rw [List.range_succ_eq_map, List.countP_cons, List.countP_map]
    have hrest : (List.range k).countP ((fun i => n.testBit i) ∘ Nat.succ)
        = onesBelow k (n / 2) := by
      rw [ih]
      congr 1
      funext i
      exact Nat.testBit_succ n i
    have hhead : (if n.testBit 0 then 1 else 0) = n % 2 := by
      rcases Nat.mod_two_eq_zero_or_one n with h | h <;> simp [Nat.testBit_zero, h]
    rw [hrest, hhead]
    exact Nat.add_comm _ _

theorem popcount_eq_onesBelow {w : Nat} (v : BitVec w) : popcount v = onesBelow w v.toNat := by
  rw [onesBelow_eq_countP]; rfl

/-- What `spanAll` checks holds of the selecting fold. -/
theorem spanAll_selectXor (p : Nat → Bool) (rows : Fin 12 → Code) (v : Sym) (l : List (Fin 12))
    (acc : Code) (h : spanAll p (l.map fun i => (rows i).toNat) acc.toNat = true) :
    p (selectXor rows v l acc).toNat = true := by
  induction l generalizing acc with
  | nil => exact h
  | cons i l ih =>
    simp only [List.map_cons, spanAll, Bool.and_eq_true] at h
    simp only [selectXor, List.foldl_cons] at ih ⊢
    cases v.getLsbD i.val
    · exact ih acc h.1
    · exact ih (acc ^^^ rows i) h.2

/-- The check of V1 on one codeword: it is 0, or has at least 8 ones. -/
def heavyOrZero (n : Nat) : Bool := or (Nat.beq n 0) (Nat.ble 8 (onesBelow 24 n))

theorem ref_span : spanAll heavyOrZero
    ((List.finRange 12).map fun i => (mkCode (1#12 <<< i.val) refGen[i]).toNat) 0 = true := by
  decide +kernel

theorem ref_p1 (w : Sym) : fold refChk (fold refGen w) = w := by
  have hrows : (fun i : Fin 12 => fold refChk refGen[i]) = fun i : Fin 12 => 1#12 <<< i.val := by
    funext i
    exact (by decide +kernel : ∀ i : Fin 12, fold refChk refGen[i] = 1#12 <<< i.val) i
  rw [fold_eq_selectXor refGen w,
    selectXor_map (fold refChk) (fold_xor refChk) (fun i : Fin 12 => refGen[i]) w, fold_zero]
  show selectXor (fun i : Fin 12 => fold refChk refGen[i]) w (List.finRange 12) 0 = w
  rw [hrows]
  exact selectXor_unit w

theorem ref_p2 (v w : Sym) (h : v ≠ w) : 8 ≤ popcount (codeword refGen v ^^^ codeword refGen w) := by
  rw [← codeword_xor, popcount_eq_onesBelow]
  have hs := spanAll_selectXor heavyOrZero (fun i : Fin 12 => mkCode (1#12 <<< i.val) refGen[i])
    (v ^^^ w) (List.finRange 12) 0 ref_span
  rw [← codeword_eq_selectXor] at hs
  simp only [heavyOrZero, Bool.or_eq_true] at hs
  rcases hs with hz | hh
  · exfalso
    have hc : codeword refGen (v ^^^ w) = 0 := BitVec.eq_of_toNat_eq (Nat.eq_of_beq_eq_true hz)
    have hd : v ^^^ w = 0 := by
      rw [← dataBits_codeword refGen (v ^^^ w), hc]; rfl
    exact h (BitVec.xor_eq_zero_iff.mp hd)
  · exact Nat.le_of_ble_eq_true hh

/-- REFCFG satisfies every constraint of R5 to R13. -/
theorem refCfg_admissible : refCfg.Admissible where
  p1 := ref_p1
  p2 := ref_p2
  suffix_ne := by decide +kernel
  pwMax_pos := by decide
  pixMax_le := by decide
  dbufMax_ge := by decide
  dbufMax_le := by decide
  aoutMax_ge := by decide
  aoutMax_dvd := by decide

end Sys2Proof.Laws
end

