-- ==== Sys2Proof/Config.lean ====
section
/-! DEFINITION. The constants the spec fixes (`spec/00_scope.md` section 4) and the constants without a body:
the configuration of the machine and the words that stand where the spec says 'unspecified'. -/

namespace Sys2Proof

/-- `KDF_ROUNDS` (section 4, fixed). -/
def kdfRounds : Nat := 256

/-- `HEADER_SLOTS` (R10). -/
def headerSlots : Nat := 264

/-- `SORT_PIXELS` (R11). -/
def sortPixels : Nat := 16384

/-- `LA_LEN` (section 4, fixed). -/
def laLen : Nat := 4096

/-- `WPPM[0..3]` (section 4, fixed): the weights in parts per million. -/
def wppm : Vector Nat 4 := #v[800000, 665272, 382584, 152144]

/-- A configuration together with the proof that it is admissible (R5). Its default is REFCFG, which shows
that admissible configurations exist. -/
structure Implementation where
  cfg : Cfg := refCfg
  admissible : cfg.Admissible := by exact Laws.refCfg_admissible
  deriving Inhabited

/-- The configuration of the machine: a constant without a body, so that every theorem about the machine
holds of every admissible configuration (section 4: a claim 'quantifies over `Cfg` subject to the constraints
of rules R5 to R13'). notes/assumptions/1.md. -/
opaque Config.impl : Implementation

/-- The parameters of the machine. -/
def Config.cfg : Cfg := Config.impl.cfg

/-- The constraints of R5 to R13 hold of the machine's parameters. -/
theorem Config.cfg_admissible : Config.cfg.Admissible := Config.impl.admissible

/-- The word a host read returns where the spec says that the value is unspecified
(`93_implementation_defined.md` U2, U4): a constant without a body, applied to a counter of `State`.
notes/assumptions/2.md. -/
opaque Config.freeWord : Nat → Word

end Sys2Proof
end

