-- ==== Sys2Proof/Machine/Memory.lean ====
section
/-! DEFINITION. A memory space (`spec/10_state.md` R40) as a list of cells in one canonical form:
addresses strictly rising, no cell equal to what an unlisted address reads as. -/

namespace Sys2Proof.Machine

/-- The contents of one space of `w`-bit units. For a byte space this is a list of `Host.Cell`. -/
abbrev Mem (w : Nat) := List (Nat × BitVec w)

/-- What an unlisted address reads as: 0. The spec gives `PWBUF` this value after reset (R41); for the
other spaces it gives none (U1). notes/assumptions/3.md. -/
def unlisted (w : Nat) : BitVec w := 0

/-- The unit at address `a`. -/
def memRead {w : Nat} : Mem w → Nat → BitVec w
  | [], _ => unlisted w
  | (x, v) :: rest, a => if x = a then v else memRead rest a

/-- `MemRead(S, a, n)` of R16: the `n` units from address `a`. -/
def memReadList {w : Nat} (m : Mem w) (a n : Nat) : List (BitVec w) :=
  (List.range n).map fun i => memRead m (a + i)

/-- The cells of a run of units that starts at `a`. -/
def memCells {w : Nat} : Nat → List (BitVec w) → Mem w
  | _, [] => []
  | a, v :: vs => if v = unlisted w then memCells (a + 1) vs else (a, v) :: memCells (a + 1) vs

/-- `MemWrite(S, a, n, v)` of R16: the units from address `a` become `vs`, every other unit is kept. -/
def memWriteList {w : Nat} (m : Mem w) (a : Nat) (vs : List (BitVec w)) : Mem w :=
  m.filter (fun c => c.1 < a) ++ memCells a vs ++ m.filter (fun c => a + vs.length ≤ c.1)

/-- One unit written. -/
def memWrite {w : Nat} (m : Mem w) (a : Nat) (v : BitVec w) : Mem w := memWriteList m a [v]

/-- The canonical form: addresses strictly rising and no cell that an unlisted address would read as. -/
abbrev Mem.wf {w : Nat} (m : Mem w) : Prop :=
  m.Pairwise (fun x y => x.1 < y.1) ∧ ∀ c ∈ m, c.2 ≠ unlisted w

/-- Every listed address lies below `n`, the size of the space. -/
abbrev Mem.within {w : Nat} (m : Mem w) (n : Nat) : Prop := ∀ c ∈ m, c.1 < n

end Sys2Proof.Machine
end

