-- ==== Sys2Proof/Machine/State.lean ====
section
/-! DEFINITION. The state of the block (`spec/10_state.md`), the reasons a step can stop, and the state right
after hardware reset. -/

namespace Sys2Proof.Machine

/-- A fault stops the machine. There is none: every event the spec calls an error is a command error, which
is recorded in `ERR` and leaves the block running (R280, R283), and the block's own accesses cannot leave
their spaces (R80). -/
inductive Fault where
  deriving DecidableEq, Repr

/-- Why a step has no meaning. -/
inductive Refusal where
  /-- Raised by an arm of `exec` for an instruction without a meaning; no arm of this model raises it. Safe. -/
  | notModelled (mnemonic : String)
  /-- Raised by the host's write to `PIX` while `SC.INIT` is in progress (R71, R335: the host must not, the
  result is unspecified; `93_implementation_defined.md` U3: refuse). Safe: the model stops. -/
  | pixWriteDuringScInit
  deriving DecidableEq, Repr

/-- The loop indices of R39 (d): the table builder's `i, j, k, l` and the sequencer's counter `t`. They live
only inside the table build or a command, which are single steps (R77), so between steps they are 0. -/
structure Loops where
  i : Nat
  j : Nat
  k : Nat
  l : Nat
  t : Nat
  deriving DecidableEq, Repr

/-- The Scatter State of R190, and with it the three `STATUS` bits that only `SC.*` commands, `SRESET` and the
errors of a session change. -/
structure Scatter where
  /-- `STATUS.SC_VALID` (R26) -/
  valid : Bool
  /-- `STATUS.SC_MODE` (R26) -/
  mode : Mode
  /-- `STATUS.SC_FAULT` (R26, R286) -/
  fault : Bool
  /-- `SC_AVAIL` (R32) -/
  avail : Word
  /-- `SC_TOTAL` (R32) -/
  total : Word
  /-- `SC_USED` (R32) -/
  used : Word
  /-- `SC_POS` (R32) -/
  pos : Word
  /-- `SC_RQ0..3` (R33) -/
  rq : Vector Word 4
  /-- `SC_LIVE0..3` (R33) -/
  live : Vector Word 4
  /-- `SC_BASE0..3` (R33) -/
  base : Vector Word 4
  /-- `PRNG` (R39 a) -/
  prng : Prng
  /-- `LA[0 .. LA_LEN-1]`, bucket numbers (R39 b) -/
  la : List (Fin 4)
  /-- `LA_IDX`, 0 .. `LA_LEN` (R39 b) -/
  laIdx : Nat
  /-- `POOL` (R38) -/
  pool : Mem 32
  /-- the counting-sort scratch array (R39 e), empty outside the switch -/
  scratch : List Word
  deriving DecidableEq, Repr

/-- The whole machine. -/
structure State where
  /-- the model's own: what the outside world does next, oldest first (R20, R102) -/
  input : List HostEvent
  /-- the model's own: the word the last host read returned -/
  rdata : Word
  /-- the model's own: how many unspecified words have been read (`Config.freeWord`) -/
  freeCtr : Nat
  /-- `CMD` (R25) -/
  cmd : Word
  /-- `STATUS.BUSY` (R26) -/
  busy : Bool
  /-- `STATUS.TBL_READY` (R26) -/
  tblReady : Bool
  /-- `STATUS.DONE` (R26) -/
  done : Bool
  /-- `STATUS.WRIGN` (R26) -/
  wrign : Bool
  /-- `STATUS.KP_VALID` (R26) -/
  kpValid : Bool
  /-- `STATUS.KH_VALID` (R26) -/
  khValid : Bool
  /-- `ERR[7:0]` (R27); `STATUS.ERRF` is read from it -/
  err : Byte
  /-- `ERRINFO0` (R27) -/
  errInfo0 : Word
  /-- `ERRINFO1` (R27) -/
  errInfo1 : Word
  /-- `CTRL.IE` (R28) -/
  ie : Bool
  /-- `PWLEN[15:0]` (R29) -/
  pwLen : BitVec 16
  /-- `ARG0` (R21) -/
  arg0 : Word
  /-- `ARG1` (R21) -/
  arg1 : Word
  /-- `RES0` (R22) -/
  res0 : Word
  /-- `RES1` (R22) -/
  res1 : Word
  /-- `SEED0..3` (R31) -/
  seed : Vector Word 4
  /-- `KEYP0..7` (R34) -/
  keyP : Vector Word 8
  /-- `IVP0..3` (R34) -/
  ivP : Vector Word 4
  /-- `KEYH0..7` (R34) -/
  keyH : Vector Word 8
  /-- `IVH0..3` (R34) -/
  ivH : Vector Word 4
  /-- `HASH` (R39 c): 32 bytes, or the salted password before round 0 (R164) -/
  hash : List Byte
  /-- `ROUND`, 0 .. 256 (R39 c) -/
  round : Nat
  /-- the scatter session (R32, R33, R38, R39 a b e) -/
  sc : Scatter
  /-- `ENC` (R37) -/
  enc : Table
  /-- `SYN` (R37) -/
  syn : Table
  /-- `COR` (R37) -/
  cor : Table
  /-- the loop indices of R39 (d) -/
  loops : Loops
  /-- `PWBUF` (R67) -/
  pwbuf : Mem 8
  /-- `DIN` (R68) -/
  din : Mem 8
  /-- `DOUT` (R68) -/
  dout : Mem 8
  /-- `AOUT` (R69), by word index -/
  aout : Mem 32
  /-- `PIX` (R70): the host's pixel buffer -/
  pix : Mem 8
  deriving DecidableEq, Repr

/-- No session: what hardware reset leaves in the scatter registers (R41). The contents of `LA` and `POOL`
are unspecified there; notes/assumptions/3.md. -/
def Scatter.reset : Scatter where
  valid := false
  mode := .uniform
  fault := false
  avail := 0
  total := 0
  used := 0
  pos := 0
  rq := Vector.replicate 4 0
  live := Vector.replicate 4 0
  base := Vector.replicate 4 0
  prng := { a := 0, b := 0, c := 0, d := 0 }
  la := List.replicate laLen 0
  laIdx := laLen
  pool := []
  scratch := []

/-- All loop indices 0 (R39). -/
def Loops.zero : Loops where
  i := 0
  j := 0
  k := 0
  l := 0
  t := 0

/-- The machine right after hardware reset (R41, R320): every register at its reset value, `STATUS` =
0x00000001, the table builder started and not yet run. -/
def State.reset : State where
  input := []
  rdata := 0
  freeCtr := 0
  cmd := 0
  busy := true
  tblReady := false
  done := false
  wrign := false
  kpValid := false
  khValid := false
  err := 0
  errInfo0 := 0
  errInfo1 := 0
  ie := false
  pwLen := 0
  arg0 := 0
  arg1 := 0
  res0 := 0
  res1 := 0
  seed := Vector.replicate 4 0
  keyP := Vector.replicate 8 0
  ivP := Vector.replicate 4 0
  keyH := Vector.replicate 8 0
  ivH := Vector.replicate 4 0
  hash := List.replicate 32 0
  round := 0
  sc := Scatter.reset
  enc := Vector.replicate 4096 0
  syn := Vector.replicate 4096 0
  cor := Vector.replicate 4096 0
  loops := Loops.zero
  pwbuf := []
  din := []
  dout := []
  aout := []
  pix := []

end Sys2Proof.Machine
end

