-- ==== Sys2Proof/Machine/Flags.lean ====
section
/-! DEFINITION. The `STATUS` word and the interrupt line (`spec/10_state.md` R26, `spec/60_exceptions.md`
R289): every flag of the block, packed and unpacked in one place. -/

namespace Sys2Proof.Machine

/-- A flag as a 32-bit word, 0 or 1 (R281: `STATUS.SC_VALID` (0 or 1)). -/
def wordOfBool (b : Bool) : Word := if b then 1 else 0

/-- `STATUS.ERRF`: `ERR ≠ 0` (R26). -/
def errFlag (s : State) : Bool := decide (s.err ≠ 0)

/-- `STATUS.SC_MODE`: 0 = Uniform, 1 = Shaped (R26). -/
def modeFlag (m : Mode) : Bool :=
  match m with
  | .uniform => false
  | .shaped => true

/-- `STATUS` as the host reads it: bits 9 down to 0 are `WRIGN`, `KH_VALID`, `KP_VALID`, `SC_FAULT`, `SC_MODE`,
`SC_VALID`, `ERRF`, `DONE`, `TBL_READY`, `BUSY`; bits 31:10 read 0 (R26). -/
def statusWord (s : State) : Word :=
  0#22 ++ BitVec.ofBool s.wrign ++ BitVec.ofBool s.khValid ++ BitVec.ofBool s.kpValid
    ++ BitVec.ofBool s.sc.fault ++ BitVec.ofBool (modeFlag s.sc.mode) ++ BitVec.ofBool s.sc.valid
    ++ BitVec.ofBool (errFlag s) ++ BitVec.ofBool s.done ++ BitVec.ofBool s.tblReady
    ++ BitVec.ofBool s.busy

/-- A host write to `STATUS`: writing 1 to bit 2 clears `DONE`, to bit 9 clears `WRIGN` (R26). -/
def writeStatus (v : Word) (s : State) : State :=
  { s with done := s.done && !v.getLsbD 2, wrign := s.wrign && !v.getLsbD 9 }

/-- The interrupt line: `irq = CTRL.IE and STATUS.DONE` (R289). -/
def irq (s : State) : Bool := s.ie && s.done

end Sys2Proof.Machine
end

