-- ==== Sys2Proof/Machine/Ops.lean ====
section
/-! DEFINITION. The shared operations: ending a command, taking a command error and returning from it
(`spec/60_exceptions.md` R283, R287), accepting a command (`spec/10_state.md` R25), the table builder
(`spec/40_system.md` R117), register reads and writes (R35), and hardware reset (R320). -/

namespace Sys2Proof.Machine

/-- What a step answers. -/
abbrev Result := Host.Outcome State Fault Refusal

/-- R91 step 5: the command ends. -/
def endCommand (s : State) : State := { s with busy := false, done := true }

/-- The error codes of R281. -/
def errCode : CmdError → Byte
  | .illegal => 1
  | .operand => 2
  | .length => 3
  | .noSession => 4
  | .capacity => 5
  | .regress => 6

/-- R286: the errors that are fatal for the session. -/
def isFatal : CmdError → Bool
  | .illegal => false
  | .operand => false
  | .length => false
  | .noSession => false
  | .capacity => true
  | .regress => true

/-- R283: `raise E(i0, i1)`, the block's one kind of exception entry. The error is recorded, a fatal one marks
the session, the command ends; nothing else changes. -/
def raise (e : CmdError) (i0 i1 : Word) (s : State) : State :=
  { s with
    sc := { s.sc with fault := s.sc.fault || isFatal e }
    err := errCode e
    errInfo0 := i0
    errInfo1 := i1
    busy := false
    done := true }

/-- R287: the acknowledge, the block's return from an error. `SC_FAULT` and `DONE` are not cleared. -/
def acknowledge (s : State) : State := { s with err := 0, errInfo0 := 0, errInfo1 := 0 }

/-- R25: the command word `c` is accepted. -/
def accept (c : Word) (s : State) : State := { s with cmd := c, done := false, busy := true }

/-- R117: the table builder, one step from its start to its end. `DONE` is not set. -/
def buildTables (c : Cfg) (s : State) : State :=
  { s with
    enc := foldTable c.gen
    syn := foldTable c.chk
    cor := corTable (foldTable c.chk)
    loops := Loops.zero
    tblReady := true
    busy := false }

/-- The identification word, "IMC1" (R30). -/
def idWord : Word := 0x494D4331

/-- R35: the value of a register as the host reads it while the block is idle. -/
def readReg (s : State) : Reg → Word
  | .id => idWord
  | .cmd => s.cmd
  | .status => statusWord s
  | .err => 0#24 ++ s.err
  | .errInfo0 => s.errInfo0
  | .errInfo1 => s.errInfo1
  | .ctrl => 0#31 ++ BitVec.ofBool s.ie
  | .pwLen => 0#16 ++ s.pwLen
  | .arg0 => s.arg0
  | .arg1 => s.arg1
  | .res0 => s.res0
  | .res1 => s.res1
  | .seed j => s.seed[j]
  | .scAvail => s.sc.avail
  | .scTotal => s.sc.total
  | .scUsed => s.sc.used
  | .scPos => s.sc.pos
  | .scRq k => s.sc.rq[k]
  | .scLive k => s.sc.live[k]
  | .scBase k => s.sc.base[k]
  | .keyP j => s.keyP[j]
  | .ivP j => s.ivP[j]
  | .keyH j => s.keyH[j]
  | .ivH j => s.ivH[j]
  | .reserved => 0

/-- R25: a host write to `CMD` while the block is idle: accepted if `ERR = 0`, else dropped and flagged
(R288). -/
def writeCmd (v : Word) (s : State) : State :=
  if s.err = 0 then accept v s else { s with wrign := true }

/-- R35: a host write to a register while the block is idle. Read-only and reserved registers ignore it
(R22, R30, R36) without setting `WRIGN`. -/
def writeReg (r : Reg) (v : Word) (s : State) : State :=
  match r with
  | .id => s
  | .cmd => writeCmd v s
  | .status => writeStatus v s
  | .err => acknowledge s
  | .errInfo0 => s
  | .errInfo1 => s
  | .ctrl => { s with ie := v.getLsbD 0 }
  | .pwLen => { s with pwLen := v.extractLsb' 0 16 }
  | .arg0 => { s with arg0 := v }
  | .arg1 => { s with arg1 := v }
  | .res0 => s
  | .res1 => s
  | .seed j => { s with seed := s.seed.set j.val v j.isLt }
  | .scAvail => s
  | .scTotal => s
  | .scUsed => s
  | .scPos => s
  | .scRq _ => s
  | .scLive _ => s
  | .scBase _ => s
  | .keyP _ => s
  | .ivP _ => s
  | .keyH _ => s
  | .ivH _ => s
  | .reserved => s

/-- R71: which registers the host can read while the block is busy. -/
def readableWhileBusy : Reg → Bool
  | .id => true
  | .status => true
  | .ctrl => true
  | .cmd => false
  | .err => false
  | .errInfo0 => false
  | .errInfo1 => false
  | .pwLen => false
  | .arg0 => false
  | .arg1 => false
  | .res0 => false
  | .res1 => false
  | .seed _ => false
  | .scAvail => false
  | .scTotal => false
  | .scUsed => false
  | .scPos => false
  | .scRq _ => false
  | .scLive _ => false
  | .scBase _ => false
  | .keyP _ => false
  | .ivP _ => false
  | .keyH _ => false
  | .ivH _ => false
  | .reserved => false

/-- R113, R167: `for a in 0 .. PW_MAX-1: MemWrite(PWBUF, a, 1, 0)`. -/
def clearPwbuf (c : Cfg) (m : Mem 8) : Mem 8 := memWriteList m 0 (List.replicate c.pwMax 0)

/-- R320, R321: hardware reset, at any time. Every register and internal array takes its reset value and the
table builder starts; the memories R41 calls unspecified hold what `r` says, up to their sizes; `PIX` is
the host's and is kept. -/
def hardwareReset (c : Cfg) (r : Residue) (s : State) : State :=
  { State.reset with
    input := s.input
    rdata := s.rdata
    freeCtr := s.freeCtr
    pix := s.pix
    din := memWriteList [] 0 (r.din.take c.dbufMax)
    dout := memWriteList [] 0 (r.dout.take c.dbufMax)
    aout := memWriteList [] 0 (r.aout.take c.aoutMax)
    sc :=
      { Scatter.reset with
        pool := memWriteList [] 0 (r.pool.take c.poolMax)
        la := (r.la ++ List.replicate laLen 0).take laLen } }

end Sys2Proof.Machine
end

