-- ==== Sys2Proof/Machine/Ecc.lean ====
section
/-! DEFINITION. The ECC unit (`spec/41_ecc.md`): `ECC.ENC12`, `ECC.DEC24`, the symbol repacker, `ECC.ENCB`
and `ECC.DECB`. -/

namespace Sys2Proof.Machine

/-- R140: the number of 12-bit symbols of `L` bytes. -/
def nsym (L : Nat) : Nat := (L + 1) * 8 / 12

/-- R141: symbol `t` of a byte string, with zero bits after its end: the closed form for the groups of 3
bytes. -/
def symbolAt (bs : List Byte) (t : Nat) : Sym :=
  let b0 := byteAt bs (3 * (t / 2))
  let b1 := byteAt bs (3 * (t / 2) + 1)
  let b2 := byteAt bs (3 * (t / 2) + 2)
  if t % 2 = 0 then b0 ++ b1.extractLsb' 4 4 else b1.extractLsb' 0 4 ++ b2

/-- R141: the symbols of a byte string. -/
def packSymbols (bs : List Byte) : List Sym := (List.range (nsym bs.length)).map (symbolAt bs)

/-- R143: byte `a` of the unpacked symbols, in closed form. -/
def unpackByte (ws : List Sym) (a : Nat) : Byte :=
  let w0 := ws.getD (2 * (a / 3)) 0
  let w1 := ws.getD (2 * (a / 3) + 1) 0
  if a % 3 = 0 then w0.extractLsb' 4 8
  else if a % 3 = 1 then w0.extractLsb' 0 4 ++ w1.extractLsb' 8 4
  else w1.extractLsb' 0 8

/-- R143: the first `L` bytes of the unpacked symbols; the padding bits are dropped. -/
def unpackBytes (ws : List Sym) (L : Nat) : List Byte := (List.range L).map (unpackByte ws)

/-- R144: the 24-bit word `t` of an encoded byte string (R61). -/
def codeAt (bs : List Byte) (t : Nat) : Code :=
  codeOfBytes (byteAt bs (3 * t)) (byteAt bs (3 * t + 1)) (byteAt bs (3 * t + 2))

/-- R142: the encoded bytes of a byte string. -/
def encodeBytes (enc : Table) (bs : List Byte) : List Byte :=
  (packSymbols bs).flatMap fun w => codeBytes (encode12 enc w)

/-- R144: the 24-bit words of an encoded byte string of original length `L`. -/
def receivedCodes (bs : List Byte) (L : Nat) : List Code := (List.range (nsym L)).map (codeAt bs)

/-- R144: the decoded bytes. -/
def decodeBytes (syn cor : Table) (bs : List Byte) (L : Nat) : List Byte :=
  unpackBytes ((receivedCodes bs L).map (decode24 syn cor)) L

/-- R144: the number of symbols with a non-zero syndrome. -/
def fixedCount (syn : Table) (bs : List Byte) (L : Nat) : Nat :=
  (receivedCodes bs L).countP fun r => syndrome syn r != 0

/-- R142, R144: the length check of the byte commands. -/
def eccLengthOk (c : Cfg) (L : Nat) : Bool := decide (L ≤ c.dbufMax ∧ 3 * nsym L ≤ c.dbufMax)

/-- R138. -/
def enc12Command (s : State) : State :=
  if inRange s.arg0 0xFFF then
    endCommand { s with res0 := (encode12 s.enc (s.arg0.setWidth 12)).setWidth 32 }
  else raise .operand s.arg0 0xFFF s

/-- `ECC.ENC12` (R138). -/
def execEccEnc12 (s : State) : Result := .next (enc12Command s)

/-- R139. -/
def dec24Command (s : State) : State :=
  if inRange s.arg0 0xFFFFFF then
    endCommand
      { s with
        res0 := (decode24 s.syn s.cor (s.arg0.setWidth 24)).setWidth 32
        res1 := (syndrome s.syn (s.arg0.setWidth 24)).setWidth 32 }
  else raise .operand s.arg0 0xFFFFFF s

/-- `ECC.DEC24` (R139). -/
def execEccDec24 (s : State) : Result := .next (dec24Command s)

/-- R142. -/
def encbCommand (c : Cfg) (s : State) : State :=
  if eccLengthOk c s.arg0.toNat then
    endCommand
      { s with
        dout := memWriteList s.dout 0 (encodeBytes s.enc (memReadList s.din 0 s.arg0.toNat))
        res0 := BitVec.ofNat 32 (3 * nsym s.arg0.toNat)
        res1 := BitVec.ofNat 32 (nsym s.arg0.toNat) }
  else raise .length s.arg0 (BitVec.ofNat 32 c.dbufMax) s

/-- `ECC.ENCB` (R142). -/
def execEccEncb (s : State) : Result := .next (encbCommand Config.cfg s)

/-- R144: the bytes of `DIN` the command reads. -/
def decbInput (s : State) : List Byte := memReadList s.din 0 (3 * nsym s.arg0.toNat)

/-- R144. -/
def decbCommand (c : Cfg) (s : State) : State :=
  if eccLengthOk c s.arg0.toNat then
    endCommand
      { s with
        dout := memWriteList s.dout 0 (decodeBytes s.syn s.cor (decbInput s) s.arg0.toNat)
        res0 := s.arg0
        res1 := BitVec.ofNat 32 (fixedCount s.syn (decbInput s) s.arg0.toNat) }
  else raise .length s.arg0 (BitVec.ofNat 32 c.dbufMax) s

/-- `ECC.DECB` (R144). -/
def execEccDecb (s : State) : Result := .next (decbCommand Config.cfg s)

end Sys2Proof.Machine
end

