-- ==== Sys2Proof/Machine/Kdf.lean ====
section
/-! DEFINITION. The KDF unit (`spec/42_kdf.md`): `KDF.DERIVE` and `KDF.CLEAR`. -/

namespace Sys2Proof.Machine

/-- R161: the password bytes `PWBUF[0 .. PWLEN-1]`. -/
def passwordBytes (s : State) : List Byte := memReadList s.pwbuf 0 s.pwLen.toNat

/-- R161: the salted password of a context. -/
def saltedPassword (c : Cfg) (m : Context) (pw : List Byte) : List Byte :=
  match m with
  | .payload => c.salt.toList ++ pw
  | .header => c.salt.toList ++ pw ++ c.suffix

/-- R164 `K_ABSORB`: `HASH <- SP`, `ROUND <- 0`. -/
def kdfAbsorb (sp : List Byte) (s : State) : State := { s with hash := sp, round := 0 }

/-- R162, R164 `K_ROUND`: `HASH <- SHA256(HASH ‖ SP ‖ byte(ROUND))`, `ROUND <- ROUND + 1`. -/
def kdfRound (c : Cfg) (sp : List Byte) (s : State) : State :=
  { s with
    hash := (c.sha256 (s.hash ++ sp ++ [BitVec.ofNat 8 s.round])).toList
    round := s.round + 1 }

/-- `n` visits of `K_ROUND`. -/
def kdfRunRounds (c : Cfg) (sp : List Byte) : Nat → State → State
  | 0, s => s
  | n + 1, s => kdfRunRounds c sp n (kdfRound c sp s)

/-- R163, R164 `K_IV`: bytes 10 to 25 of the digest of the key. -/
def kdfIv (c : Cfg) (key : List Byte) : List Byte := ((c.sha256 key).toList.drop 10).take 16

/-- R166, R164 `K_STORE`: the output registers of a context. -/
def kdfStore (m : Context) (key iv : List Byte) (s : State) : State :=
  match m with
  | .payload => { s with keyP := packLe32 8 key, ivP := packLe32 4 iv, kpValid := true }
  | .header =>
    { s with keyH := packLe32 8 key, ivH := packLe32 4 iv, khValid := true, seed := packLe32 4 iv }

/-- R166: the working registers after the derivation. -/
def kdfIdle (s : State) : State := { s with hash := List.replicate 32 0, round := 0 }

/-- R166: the derivation from the salted password `sp`. -/
def kdfRun (c : Cfg) (m : Context) (sp : List Byte) (s : State) : State :=
  let r := kdfRunRounds c sp kdfRounds (kdfAbsorb sp s)
  kdfIdle (kdfStore m r.hash (kdfIv c r.hash) r)

/-- R166. -/
def deriveCommand (c : Cfg) (m : Context) (s : State) : State :=
  if s.pwLen.toNat ≤ c.pwMax then
    endCommand (kdfRun c m (saltedPassword c m (passwordBytes s)) s)
  else raise .length (s.pwLen.setWidth 32) (BitVec.ofNat 32 c.pwMax) s

/-- `KDF.DERIVE m` (R166). -/
def execKdfDerive (m : Context) (s : State) : Result := .next (deriveCommand Config.cfg m s)

/-- R167: everything `KDF.CLEAR` clears. -/
def clearKeys (c : Cfg) (s : State) : State :=
  { s with
    keyP := Vector.replicate 8 0
    ivP := Vector.replicate 4 0
    keyH := Vector.replicate 8 0
    ivH := Vector.replicate 4 0
    seed := Vector.replicate 4 0
    kpValid := false
    khValid := false
    pwbuf := clearPwbuf c s.pwbuf
    pwLen := 0
    hash := List.replicate 32 0
    round := 0 }

/-- `KDF.CLEAR` (R167). -/
def execKdfClear (s : State) : Result := .next (endCommand (clearKeys Config.cfg s))

end Sys2Proof.Machine
end

