-- ==== Sys2Proof/Machine/System.lean ====
section
/-! DEFINITION. The system commands (`spec/40_system.md` R111, R113, R115). -/

namespace Sys2Proof.Machine

/-- What `SRESET` and `SC.END` leave of a session (R113, R213): nothing but the contents of `POOL` and of `LA`,
which is empty (`LA_IDX = LA_LEN`). -/
def endSession (x : Scatter) : Scatter := { Scatter.reset with pool := x.pool, la := x.la }

/-- `NOP` (R111). -/
def execNop (s : State) : Result := .next (endCommand s)

/-- R113: everything `SRESET` clears. -/
def softReset (c : Cfg) (s : State) : State :=
  { s with
    arg0 := 0
    arg1 := 0
    res0 := 0
    res1 := 0
    pwLen := 0
    seed := Vector.replicate 4 0
    keyP := Vector.replicate 8 0
    ivP := Vector.replicate 4 0
    keyH := Vector.replicate 8 0
    ivH := Vector.replicate 4 0
    pwbuf := clearPwbuf c s.pwbuf
    sc := endSession s.sc
    hash := List.replicate 32 0
    round := 0
    loops := Loops.zero
    kpValid := false
    khValid := false
    wrign := false }

/-- `SRESET` (R113). -/
def execSreset (s : State) : Result := .next (endCommand (softReset Config.cfg s))

/-- R115: `RES0 <- zext_32(entry)`. -/
def tableRead (t : Table) (idx : Sym) (s : State) : State :=
  endCommand { s with res0 := (tableGet t idx).setWidth 32 }

/-- `TBL.RD ENC, idx` (R115). -/
def execTblRdEnc (idx : Sym) (s : State) : Result := .next (tableRead s.enc idx s)

/-- `TBL.RD SYN, idx` (R115). -/
def execTblRdSyn (idx : Sym) (s : State) : Result := .next (tableRead s.syn idx s)

/-- `TBL.RD COR, idx` (R115). -/
def execTblRdCor (idx : Sym) (s : State) : Result := .next (tableRead s.cor idx s)

end Sys2Proof.Machine
end

