-- ==== Sys2Proof/Machine/Scatter.lean ====
section
/-! DEFINITION. The SCT unit (`spec/43_scatter.md`): `SC.INIT`, `SC.FREE`, `SC.GEN`, `SC.END`. -/

namespace Sys2Proof.Machine

/-- R193: the address word of slot (pixel `p`, channel `ch`, bit-plane `b`). -/
def slotAddr (p ch b : Nat) : Word :=
  (BitVec.ofNat 32 p <<< 4) ||| (BitVec.ofNat 32 ch <<< 2) ||| BitVec.ofNat 32 b

/-- R203: the layer of an address, its low 2 bits. -/
def layerOf (a : Word) : Nat := (a.extractLsb' 0 2).toNat

/-- R191: pixel `p` is available iff its alpha byte is 255. -/
def available (pix : Mem 8) (p : Nat) : Bool := memRead pix (4 * p + 3) == 255

/-- R192: the available pixels in scan order, from `n - 1` down to 0; rank `r` is position `r`. -/
def scanPixels (pix : Mem 8) (n : Nat) : List Nat := (List.range n).reverse.filter (available pix)

/-- R192: the region of layer `b`: by rank, then by channel. -/
def layerEntries (ps : List Nat) (b : Nat) : List Word :=
  ps.flatMap fun p => [slotAddr p 0 b, slotAddr p 1 b, slotAddr p 2 b]

/-- R192: the pool right after capacity discovery, layer by layer. -/
def poolEntries (ps : List Nat) : List Word := (List.range 4).flatMap (layerEntries ps)

/-- R194: `n` outputs drawn and thrown away. -/
def discardDraws (c : Cfg) : Nat → Prng → Prng
  | 0, g => g
  | n + 1, g => discardDraws c n (c.prngStep g).1

/-- R194: the PRNG state made of the seed words. -/
def prngOfSeed (v : Vector Word 4) : Prng where
  a := v[0]
  b := v[1]
  c := v[2]
  d := v[3]

/-- R197: `round(u / 2^32 · m)`, ties upward, in exact integers. -/
def scale (u : Word) (m : Nat) : Nat := (u.toNat * m + 2 ^ 31) / 2 ^ 32

/-- R198: the size of the live window of a session in Uniform mode. -/
def remaining (x : Scatter) : Nat := x.total.toNat - x.used.toNat

/-- R199, R202: half the pool less what has been issued. -/
def shapedBudget (x : Scatter) : Nat := x.total.toNat / 2 - x.used.toNat

/-- The sum of the four remaining quotas (R199, R206). -/
def quotaSum (x : Scatter) : Nat :=
  x.rq[0].toNat + x.rq[1].toNat + x.rq[2].toNat + x.rq[3].toNat

/-- R199: `freeSpace(mode)`. -/
def freeSpace (x : Scatter) (m : Mode) : Nat :=
  match x.mode, m with
  | .uniform, .uniform => remaining x
  | .uniform, .shaped => shapedBudget x
  | .shaped, .uniform => 0
  | .shaped, .shaped => quotaSum x

/-- R198, R208: the position drawn in a window of `n` entries. -/
def drawIndex (u : Word) (n : Nat) (pos : Word) : Nat := (scale u (n - 1) + pos.toNat) % n

/-- R198: one Uniform draw. -/
def uniformDraw (c : Cfg) (x : Scatter) : Scatter × Word :=
  let rem := remaining x
  let idx := drawIndex (c.prngStep x.prng).2 rem x.pos
  ({ x with
      prng := (c.prngStep x.prng).1
      pool := memWrite x.pool idx (memRead x.pool (rem - 1))
      used := x.used + 1
      pos := BitVec.ofNat 32 idx },
    memRead x.pool idx)

/-- The entries of the live window at the switch (R202). -/
def liveWindow (x : Scatter) : List Word := memReadList x.pool 0 (remaining x)

/-- R203: the entries of layer `k`, in their order. -/
def ofLayer (ws : List Word) (k : Nat) : List Word := ws.filter fun a => layerOf a == k

/-- R203: the stable counting sort by layer. -/
def sortByLayer (ws : List Word) : List Word := (List.range 4).flatMap (ofLayer ws)

/-- R203: `cnt[k]`. -/
def layerCount (ws : List Word) (k : Nat) : Nat := (ofLayer ws k).length

/-- R203: small pools: the live window is sorted through the scratch array and the buckets are the layers. -/
def sortSwitch (x : Scatter) : Scatter :=
  let ws := liveWindow x
  let n0 := layerCount ws 0
  let n1 := layerCount ws 1
  let n2 := layerCount ws 2
  let n3 := layerCount ws 3
  let y := { x with scratch := sortByLayer ws }
  { y with
    pool := memWriteList y.pool 0 y.scratch
    base := #v[0, BitVec.ofNat 32 n0, BitVec.ofNat 32 (n0 + n1), BitVec.ofNat 32 (n0 + n1 + n2)]
    live := #v[BitVec.ofNat 32 n0, BitVec.ofNat 32 n1, BitVec.ofNat 32 n2, BitVec.ofNat 32 n3]
    scratch := [] }

/-- R204: where bucket `k` starts, for a layer region of `q` entries and a live window of `n`. -/
def positionBase (q n k : Nat) : Nat := min (k * q) n

/-- R204: large pools: no entry moves; bucket `k` is what is left of layer `k`'s region. -/
def positionSwitch (x : Scatter) : Scatter :=
  let q := 3 * x.avail.toNat
  let n := remaining x
  { x with
    base := Vector.ofFn fun k : Fin 4 => BitVec.ofNat 32 (positionBase q n k.val)
    live := Vector.ofFn fun k : Fin 4 =>
      BitVec.ofNat 32 (positionBase q n (k.val + 1) - positionBase q n k.val) }

/-- R205: a bucket's share of the budget that is left. -/
def quotaOf (weight live rest : Nat) : Nat := min (weight * live / 1000000) rest

/-- R205: the quotas of four buckets for a budget: layers 1, 2, 3 by weight, layer 0 the remainder. -/
def quotas (live : Vector Word 4) (budget : Nat) : Vector Word 4 :=
  let q1 := quotaOf wppm[1] live[1].toNat budget
  let q2 := quotaOf wppm[2] live[2].toNat (budget - q1)
  let q3 := quotaOf wppm[3] live[3].toNat (budget - q1 - q2)
  let q0 := min live[0].toNat (budget - q1 - q2 - q3)
  #v[BitVec.ofNat 32 q0, BitVec.ofNat 32 q1, BitVec.ofNat 32 q2, BitVec.ofNat 32 q3]

/-- R202: the one-way switch to Shaped. -/
def switchToShaped (x : Scatter) : Scatter :=
  let y := if x.avail.toNat < sortPixels then sortSwitch x else positionSwitch x
  { y with rq := quotas y.live (shapedBudget x), laIdx := laLen, mode := .shaped }

/-- R206: the next `n` PRNG outputs, in order. -/
def drawMany (c : Cfg) : Nat → Prng → Prng × List Word
  | 0, g => (g, [])
  | n + 1, g =>
    let r := drawMany c n (c.prngStep g).1
    (r.1, (c.prngStep g).2 :: r.2)

/-- R206: the bucket of one lookahead sample, from the quotas as they stand. -/
def bucketOfSample (x : Scatter) (u : Word) : Fin 4 :=
  let v := u.toNat * quotaSum x / 2 ^ 32
  let c0 := x.rq[0].toNat
  let c1 := c0 + x.rq[1].toNat
  let c2 := c1 + x.rq[2].toNat
  if v < c0 then 0 else if v < c1 then 1 else if v < c2 then 2 else 3

/-- R206: the lookahead refill. -/
def refill (c : Cfg) (x : Scatter) : Scatter :=
  let r := drawMany c laLen x.prng
  { x with prng := r.1, la := r.2.map (bucketOfSample x), laIdx := 0 }

/-- R207: from bucket `k` on, the first with quota left, trying at most `fuel` buckets. -/
def bucketWithQuota (rq : Vector Word 4) : Nat → Fin 4 → Fin 4
  | 0, k => k
  | fuel + 1, k => if rq[k] = 0 then bucketWithQuota rq fuel (k + 1) else k

/-- R206: refilled if the lookahead is used up. -/
def ensureLookahead (c : Cfg) (x : Scatter) : Scatter := if x.laIdx = laLen then refill c x else x

/-- R207: the bucket the next draw takes from. -/
def selectedBucket (x : Scatter) : Fin 4 := bucketWithQuota x.rq 4 (x.la.getD x.laIdx 0)

/-- R208: one draw from bucket `k`. -/
def bucketDraw (c : Cfg) (k : Fin 4) (x : Scatter) : Scatter × Word :=
  let lv := x.live[k].toNat
  let base := x.base[k].toNat
  let idx := drawIndex (c.prngStep x.prng).2 lv x.pos
  ({ x with
      prng := (c.prngStep x.prng).1
      pool := memWrite x.pool (base + idx) (memRead x.pool (base + lv - 1))
      live := x.live.set k.val (x.live[k] - 1) k.isLt
      rq := x.rq.set k.val (x.rq[k] - 1) k.isLt
      used := x.used + 1
      pos := BitVec.ofNat 32 idx },
    memRead x.pool (base + idx))

/-- R206, R207, R208: one Shaped draw. -/
def shapedDraw (c : Cfg) (x : Scatter) : Scatter × Word :=
  let y := ensureLookahead c x
  bucketDraw c (selectedBucket y) { y with laIdx := y.laIdx + 1 }

/-- R200, R201: whether the next draw requested in mode `m` is preceded by the switch. -/
def switchDue (m : Mode) (x : Scatter) : Bool :=
  decide (m = .shaped ∧ x.mode = .uniform ∧ headerSlots ≤ x.used.toNat)

/-- R212: one address. -/
def drawSlot (c : Cfg) (m : Mode) (x : Scatter) : Scatter × Word :=
  let y := if switchDue m x then switchToShaped x else x
  match y.mode with
  | .uniform => uniformDraw c y
  | .shaped => shapedDraw c y

/-- R212: `n` addresses, in issue order. -/
def drawSlots (c : Cfg) (m : Mode) : Nat → Scatter → Scatter × List Word
  | 0, x => (x, [])
  | n + 1, x =>
    let r := drawSlots c m n (drawSlot c m x).1
    (r.1, (drawSlot c m x).2 :: r.2)

/-- R210: the session that `SC.INIT` starts over `n` pixels. -/
def startSession (c : Cfg) (seed : Vector Word 4) (pix : Mem 8) (n : Nat) (x : Scatter) : Scatter :=
  let ps := scanPixels pix n
  { valid := true
    mode := .uniform
    fault := false
    avail := BitVec.ofNat 32 ps.length
    total := BitVec.ofNat 32 (12 * ps.length)
    used := 0
    pos := 0
    rq := Vector.replicate 4 0
    live := Vector.replicate 4 0
    base := Vector.replicate 4 0
    prng := discardDraws c (c.discard seed) (prngOfSeed seed)
    la := x.la
    laIdx := laLen
    pool := memWriteList x.pool 0 (poolEntries ps)
    scratch := [] }

/-- R210: the larger of the two dimensions, which `E_OPERAND` reports. -/
def maxWord (a b : Word) : Word := if a.toNat ≤ b.toNat then b else a

/-- R210: the number of pixels `W·H`. -/
def pixelCount (s : State) : Nat := s.arg0.toNat * s.arg1.toNat

/-- R210. -/
def initCommand (c : Cfg) (s : State) : State :=
  if inRange s.arg0 0xFFFF && inRange s.arg1 0xFFFF then
    if pixelCount s ≤ c.pixMax then
      endCommand
        { s with
          sc := startSession c s.seed s.pix (pixelCount s) s.sc
          res0 := BitVec.ofNat 32 (12 * (scanPixels s.pix (pixelCount s)).length)
          res1 := BitVec.ofNat 32 (scanPixels s.pix (pixelCount s)).length }
    else raise .length (BitVec.ofNat 32 (pixelCount s)) (BitVec.ofNat 32 c.pixMax) s
  else raise .operand (maxWord s.arg0 s.arg1) 0xFFFF s

/-- `SC.INIT` (R210). -/
def execScInit (s : State) : Result := .next (initCommand Config.cfg s)

/-- R211, R212: a session exists and is not faulted. -/
def sessionOk (s : State) : Bool := s.sc.valid && !s.sc.fault

/-- R211, R212: `E_NOSESSION(STATUS.SC_VALID, STATUS.SC_FAULT)`. -/
def raiseNoSession (s : State) : State :=
  raise .noSession (wordOfBool s.sc.valid) (wordOfBool s.sc.fault) s

/-- R211. -/
def freeCommand (m : Mode) (s : State) : State :=
  if sessionOk s then endCommand { s with res0 := BitVec.ofNat 32 (freeSpace s.sc m) }
  else raiseNoSession s

/-- `SC.FREE m` (R211). -/
def execScFree (m : Mode) (s : State) : Result := .next (freeCommand m s)

/-- R212: a Uniform request on a session that has switched. -/
def regresses (m : Mode) (x : Scatter) : Bool := decide (m = .uniform ∧ x.mode = .shaped)

/-- R212: the effect of a request whose checks have passed. -/
def issueSlots (c : Cfg) (m : Mode) (s : State) : State :=
  let r := drawSlots c m s.arg0.toNat s.sc
  { s with sc := r.1, aout := memWriteList s.aout 0 r.2, res0 := s.arg0 }

/-- R212, with the checks in the order of R285. -/
def genCommand (c : Cfg) (m : Mode) (s : State) : State :=
  if sessionOk s then
    if s.arg0.toNat ≤ c.aoutMax then
      if regresses m s.sc then raise .regress 0 0 s
      else if s.arg0.toNat ≤ freeSpace s.sc m then endCommand (issueSlots c m s)
      else raise .capacity s.arg0 (BitVec.ofNat 32 (freeSpace s.sc m)) s
    else raise .length s.arg0 (BitVec.ofNat 32 c.aoutMax) s
  else raiseNoSession s

/-- `SC.GEN m` (R212). -/
def execScGen (m : Mode) (s : State) : Result := .next (genCommand Config.cfg m s)

/-- `SC.END` (R213). -/
def execScEnd (s : State) : Result := .next (endCommand { s with sc := endSession s.sc })

end Sys2Proof.Machine
end

