-- ==== Sys2Proof/Machine/Dispatch.lean ====
section
/-! DEFINITION. One arm for each command (`spec/30_encoding.md` R91, R96). `exec i s` is steps 2 to 5 of R91 for the
accepted command `i`: its checks, its effect or its error, its end. -/

namespace Sys2Proof.Machine

def exec (i : Instr) (s : State) : Host.Outcome State Fault Refusal :=
  match i with
  | .nop => Sys2Proof.Machine.execNop s
  | .sreset => Sys2Proof.Machine.execSreset s
  | .tblRdEnc idx => Sys2Proof.Machine.execTblRdEnc idx s
  | .tblRdSyn idx => Sys2Proof.Machine.execTblRdSyn idx s
  | .tblRdCor idx => Sys2Proof.Machine.execTblRdCor idx s
  | .eccEnc12 => Sys2Proof.Machine.execEccEnc12 s
  | .eccDec24 => Sys2Proof.Machine.execEccDec24 s
  | .eccEncb => Sys2Proof.Machine.execEccEncb s
  | .eccDecb => Sys2Proof.Machine.execEccDecb s
  | .kdfDerive m => Sys2Proof.Machine.execKdfDerive m s
  | .kdfClear => Sys2Proof.Machine.execKdfClear s
  | .scInit => Sys2Proof.Machine.execScInit s
  | .scFree m => Sys2Proof.Machine.execScFree m s
  | .scGen m => Sys2Proof.Machine.execScGen m s
  | .scEnd => Sys2Proof.Machine.execScEnd s

end Sys2Proof.Machine
end

