-- ==== Sys2Proof/Machine/HostPort.lean ====
section
/-! DEFINITION. What the host's accesses do (`spec/20_memory.md` R66 to R73, `spec/10_state.md` R25 to R36, R40):
one function for a write and one for a read, over every space, width and offset. -/

namespace Sys2Proof.Machine

/-- A read returns a value the spec fixes. -/
def readReturns (v : Word) (s : State) : State := { s with rdata := v }

/-- A read returns an unspecified value of its width (U2, U4): a free value. -/
def readUnspecified (w : Width) (s : State) : State :=
  { s with rdata := truncateTo w (Config.freeWord s.freeCtr), freeCtr := s.freeCtr + 1 }

/-- The command in progress is `SC.INIT`. -/
def scInitRunning (s : State) : Bool :=
  s.busy && s.tblReady &&
    match decode s.cmd with
    | .ok .scInit => true
    | _ => false

/-- A proper write inside a space while the block is idle. The host writes `REG`, `PWBUF` and `DIN`; `DOUT` and
`AOUT` have the block as their only writer (R40; notes/assumptions/5.md). -/
def idleWrite (sp : Space) (off : Nat) (v : Word) (s : State) : State :=
  match sp with
  | .reg => writeReg (regOfIndex (off / 4)) v s
  | .pwbuf => { s with pwbuf := memWrite s.pwbuf off (v.setWidth 8) }
  | .din => { s with din := memWrite s.din off (v.setWidth 8) }
  | .dout => s
  | .aout => s
  | .pix => { s with pix := memWrite s.pix off (v.setWidth 8) }

/-- A host write to a space behind the port: outside the space it is ignored (R66); while the block is busy it
is ignored and flagged (R71); of a wrong width or alignment it is ignored (R72). -/
def portWrite (c : Cfg) (sp : Space) (w : Width) (off : Nat) (v : Word) (s : State) : State :=
  if inSpace c sp off then
    if s.busy then { s with wrign := true }
    else if properAccess sp w off then idleWrite sp off v s
    else s
  else s

/-- A host write to its own pixel buffer: the block does not see it, so `BUSY` does not matter, but it must not
fall inside an `SC.INIT` (R71, R335; U3). -/
def pixWrite (w : Width) (off : Nat) (v : Word) (s : State) : Result :=
  if scInitRunning s then .refused .pixWriteDuringScInit
  else if properAccess .pix w off then .next (idleWrite .pix off v s)
  else .next s

/-- A host write. -/
def hostWrite (c : Cfg) (sp : Space) (w : Width) (off : Nat) (v : Word) (s : State) : Result :=
  match sp with
  | .pix => pixWrite w off v s
  | .reg => .next (portWrite c .reg w off v s)
  | .pwbuf => .next (portWrite c .pwbuf w off v s)
  | .din => .next (portWrite c .din w off v s)
  | .dout => .next (portWrite c .dout w off v s)
  | .aout => .next (portWrite c .aout w off v s)

/-- The value a read inside a space finds; `PWBUF` reads 0 (R67). -/
def idleValue (sp : Space) (off : Nat) (s : State) : Word :=
  match sp with
  | .reg => readReg s (regOfIndex (off / 4))
  | .pwbuf => 0
  | .din => (memRead s.din off).setWidth 32
  | .dout => (memRead s.dout off).setWidth 32
  | .aout => memRead s.aout (off / 4)
  | .pix => (memRead s.pix off).setWidth 32

/-- The table builder is running: the state between hardware reset and the end of the build (R41, R320). -/
def tableBuildRunning (s : State) : Bool := s.busy && !s.tblReady

/-- Whether a read finds its value: always while the block is idle; while it is busy only in `REG`, there every
register during the table build (R41: 'every other register reads its reset value') and `STATUS`, `ID` and `CTRL`
during a command (R71). That R41 goes before the general R71 during the build is the model's reading:
notes/assumptions/12.md. -/
def readable (sp : Space) (off : Nat) (s : State) : Bool :=
  match sp with
  | .reg => !s.busy || tableBuildRunning s || readableWhileBusy (regOfIndex (off / 4))
  | .pwbuf => !s.busy
  | .din => !s.busy
  | .dout => !s.busy
  | .aout => !s.busy
  | .pix => !s.busy

/-- The reads a space answers with its value: the accesses of `properAccess`, and in `PWBUF`, which reads 0 (R67), those
of every width. -/
def properRead (sp : Space) (w : Width) (off : Nat) : Bool :=
  match sp with
  | .pwbuf => true
  | .reg => properAccess .reg w off
  | .din => properAccess .din w off
  | .dout => properAccess .dout w off
  | .aout => properAccess .aout w off
  | .pix => properAccess .pix w off

/-- A host read: outside the space 0 (R66); of a wrong width or alignment unspecified (R72); of a value the busy
block does not show unspecified (R71; `readable`, which settles R41 against R71). -/
def hostRead (c : Cfg) (sp : Space) (w : Width) (off : Nat) (s : State) : State :=
  if inSpace c sp off then
    if properRead sp w off && readable sp off s then readReturns (idleValue sp off s) s
    else readUnspecified w s
  else readReturns 0 s

/-- A write at a flat host offset (R66); offsets not listed ignore it. -/
def busWriteAt (c : Cfg) (w : Width) (addr : Nat) (v : Word) (s : State) : Result :=
  match hostMap c addr with
  | none => .next s
  | some t => hostWrite c t.1 w t.2 v s

/-- A read at a flat host offset (R66); offsets not listed read 0. -/
def busReadAt (c : Cfg) (w : Width) (addr : Nat) (s : State) : State :=
  match hostMap c addr with
  | none => readReturns 0 s
  | some t => hostRead c t.1 w t.2 s

end Sys2Proof.Machine
end

