-- ==== Sys2Proof/Machine/Sequencer.lean ====
section
/-! DEFINITION. The three agents of `spec/10_state.md` R20 and which of them moves: the host's next event, or, when
the host waits or does nothing, the table builder or the command sequencer (`spec/40_system.md` R110). -/

namespace Sys2Proof.Machine

/-- R91 steps 1 to 5: the word in `CMD` is decoded; an illegal one ends with `E_ILLEGAL` (R97, R98). -/
def runCommand (s : State) : Result :=
  match decode s.cmd with
  | .ok i => exec i s
  | .error _ => .next (raise .illegal s.cmd 0 s)

/-- R110 (a): `BUILD` goes to `IDLE` through the table builder, `EXEC` to `IDLE` through the command; the idle
block is quiescent (R337). -/
def advance (s : State) : Result :=
  if s.busy then
    if s.tblReady then runCommand s else .next (buildTables Config.cfg s)
  else .next s

/-- One event of the outside world, already taken from the input. -/
def hostEvent (e : HostEvent) (s : State) : Result :=
  match e with
  | .write sp w off v => hostWrite Config.cfg sp w off v s
  | .read sp w off => .next (hostRead Config.cfg sp w off s)
  | .busWrite w addr v => busWriteAt Config.cfg w addr v s
  | .busRead w addr => .next (busReadAt Config.cfg w addr s)
  | .wait => advance s
  | .hwReset r => .next (hardwareReset Config.cfg r s)

/-- One step of the machine: the next event of the outside world, or none. -/
def nextStep (s : State) : Result :=
  match s.input with
  | [] => advance s
  | e :: rest => hostEvent e { s with input := rest }

/-- R320, R117: past the table build, if it has not ended. -/
def tablesBuilt (s : State) : State := if s.tblReady then s else buildTables Config.cfg s

/-- R287: with an error acknowledged, if there is one. -/
def errorCleared (s : State) : State := if s.err = 0 then s else acknowledge s

/-- The word `c` accepted (R25) in a state that may have to build its tables and acknowledge an error first,
with the host waiting next, so that the next step runs `c`. -/
def withCommand (c : Word) (s : State) : State :=
  let t := accept c (errorCleared (tablesBuilt s))
  { t with input := .wait :: t.input }

end Sys2Proof.Machine
end

