-- ==== Sys2Proof/Machine/Step.lean ====
section
/-! DEFINITION. The step of the machine, and the state in which a given command is the next thing to run. -/

namespace Sys2Proof.Machine

/-- One step: the host's next event, the table build, one command from acceptance to completion (R77), or, in
an idle block with no event, nothing (R337). -/
def step (s : State) : Host.Outcome State Fault Refusal := nextStep s

/-- `s` with the command word numbered `w` accepted and next to run (notes/assumptions/4.md). -/
def State.withFetchWord (s : State) (nbits w : Nat) : State := withCommand (tableWord nbits w) s

end Sys2Proof.Machine
end

