-- ==== Sys2Proof/Machine/Script.lean ====
section
/-! DEFINITION. Host scripts (`spec/30_encoding.md` R102, R103) as events of the outside world, and the pure
steps of the host that `spec/44_host_protocol.md` gives without the external compressor and cipher: the
header (R253, R254), the capacity figures (R255, R262) and the embedding (R257, R258). -/

namespace Sys2Proof.Machine

/-- The writes of `wrb`, one byte each from offset `off` on. -/
def writeBytes (sp : Space) : Nat → List Byte → List HostEvent
  | _, [] => []
  | off, b :: bs => .write sp .byte off (b.setWidth 32) :: writeBytes sp (off + 1) bs

/-- R102: the events of one script line. `wait` reads `STATUS` until `BUSY = 0`: the polls that find the block busy
change nothing (R73) and their words are overwritten, so they are the time in which the job runs, and the poll that
finds `BUSY = 0` is a read of its own (notes/assumptions/9.md). -/
def lineEvents : ScriptLine → List HostEvent
  | .wr r v => [.write .reg .word (regOffset r) v]
  | .wrb sp off bytes => writeBytes sp off bytes
  | .cmd i => [.write .reg .word (regOffset .cmd) (encode i)]
  | .wait => [.wait, .read .reg .word (regOffset .status)]
  | .rd r => [.read .reg .word (regOffset r)]
  | .rdb sp off count => (List.range count).map fun j => .read sp .byte (off + j)
  | .rdw index count => (List.range count).map fun j => .read .aout .word (4 * (index + j))
  | .ack => [.write .reg .word (regOffset .err) 0]

/-- R102: the events of a script. -/
def scriptEvents (ls : List ScriptLine) : List HostEvent := ls.flatMap lineEvents

/-- R103: `KDF.BOTH`. -/
def kdfBoth : List ScriptLine := [.cmd (.kdfDerive .payload), .wait, .cmd (.kdfDerive .header), .wait]

/-- R103: `SC.GENH`. -/
def scGenHeader : List ScriptLine := [.wr .arg0 264, .cmd (.scGen .uniform), .wait]

/-- R103: `ECC.ENC12 #w`. -/
def enc12Of (w : Word) : List ScriptLine := [.wr .arg0 w, .cmd .eccEnc12, .wait, .rd .res0]

/-- R103: `ECC.DEC24 #c`. -/
def dec24Of (v : Word) : List ScriptLine := [.wr .arg0 v, .cmd .eccDec24, .wait, .rd .res0]

/-- R257: bit `n` of a region's code: bit `n mod 8` of byte `n div 8`, least significant first. -/
def codeBit (code : List Byte) (n : Nat) : Bool := (byteAt code (n / 8)).getLsbD (n % 8)

/-- R258: the byte of `PIX` an address names. -/
def slotByte (a : Word) : Nat := 4 * (a >>> 4).toNat + (a.extractLsb' 2 2).toNat

/-- R258: the bit of that byte. -/
def slotBit (a : Word) : Nat := (a.extractLsb' 0 2).toNat

/-- R258: the pixel byte with message bit `v` written. -/
def embedByte (a : Word) (v : Bool) (old : Byte) : Byte :=
  (old &&& ~~~(1#8 <<< slotBit a)) ||| ((BitVec.ofBool v).setWidth 8 <<< slotBit a)

/-- R258: the host's write of one message bit. -/
def embedEvent (a : Word) (v : Bool) (old : Byte) : HostEvent :=
  .write .pix .byte (slotByte a) ((embedByte a v old).setWidth 32)

/-- R258: the message bit read back. -/
def embeddedBit (a : Word) (b : Byte) : Bool := b.getLsbD (slotBit a)

/-- R253, R254: a parsed header. `TYPE_CODES` and `DEFAULT_TYPE` are the host's parameters. -/
structure Header where
  typeCode : Byte × Byte
  length : Nat
  deriving DecidableEq, Repr

/-- R253 (a): a decimal digit. -/
def isDigit (b : Byte) : Bool := decide (0x30 ≤ b.toNat ∧ b.toNat ≤ 0x39)

/-- R253 (a): the value of decimal digits, most significant first. -/
def decimalValue (bs : List Byte) : Nat := bs.foldl (fun n b => 10 * n + (b.toNat - 0x30)) 0

/-- R253 (b): the 8-byte header of a type code and a length. -/
def headerBytes (h : Header) : List Byte :=
  [0x2A, h.typeCode.1, h.typeCode.2, 0x2A] ++ bytesLe32 (BitVec.ofNat 32 h.length)

/-- R254: the header parse, with the default type for form (a). -/
def parseHeader (defaultType : Byte × Byte) (hdr : List Byte) : Option Header :=
  if hdr ≠ [] ∧ hdr.all isDigit then some { typeCode := defaultType, length := decimalValue hdr }
  else if hdr.length = 8 ∧ byteAt hdr 0 = 0x2A ∧ byteAt hdr 3 = 0x2A then
    some { typeCode := (byteAt hdr 1, byteAt hdr 2), length := (le32At hdr 1).toNat }
  else none

/-- R255: usable bytes of a number of free slots. -/
def usableBytes (slots : Nat) : Nat := slots / 8

/-- R262: the length on disk of a ciphertext of `Lc` bytes. -/
def onDiskLength (ecc : Bool) (lc : Nat) : Nat := if ecc then 3 * ((lc + 1) * 8 / 12) else lc

end Sys2Proof.Machine
end

