-- ==== Sys2Proof/Safety.lean ====
section
/-! DEFINITION. What the statements speak of: the rows of the opcode table, the clear forms of the table build,
of the hash chain and of a session's stock of addresses, and the three invariants of the block. -/

namespace Sys2Proof.Safety

open Sys2Proof.Machine

/-- R96: the rows of the opcode table as (match, mask). -/
def tableRows : List (Word × Word) :=
  [(0x00000000, 0xFFFFFFFF), (0x01000000, 0xFFFFFFFF), (0x08000000, 0xFFFFF000),
   (0x08001000, 0xFFFFF000), (0x08002000, 0xFFFFF000), (0x10000000, 0xFFFFFFFF),
   (0x11000000, 0xFFFFFFFF), (0x12000000, 0xFFFFFFFF), (0x13000000, 0xFFFFFFFF),
   (0x20000000, 0xFFFFFFFE), (0x21000000, 0xFFFFFFFF), (0x30000000, 0xFFFFFFFF),
   (0x31000000, 0xFFFFFFFE), (0x32000000, 0xFFFFFFFE), (0x33000000, 0xFFFFFFFF)]

/-- R97: the opcodes of the map. -/
def opcodes : List Nat :=
  [0x00, 0x01, 0x08, 0x10, 0x11, 0x12, 0x13, 0x20, 0x21, 0x30, 0x31, 0x32, 0x33]

/-- The command word `c` has been accepted and nothing of the outside world comes before it runs: the sequencer
is busy, the tables are ready, and the host waits or has nothing left to do. -/
structure Accepted (c : Word) (rest : List HostEvent) (s : State) : Prop where
  busy : s.busy = true
  tblReady : s.tblReady = true
  cmd : s.cmd = c
  input : s.input = .wait :: rest ∨ (s.input = [] ∧ rest = [])

/-- The three Golay tables hold what the table builder writes (R132, R133, R135). -/
structure TablesBuilt (s : State) : Prop where
  enc : s.enc = foldTable Config.cfg.gen
  syn : s.syn = foldTable Config.cfg.chk
  cor : s.cor = corTable (foldTable Config.cfg.chk)

/-- R162: `hash_i` of the chain over the salted password `sp`. -/
def hashChain (c : Cfg) (sp : List Byte) : Nat → List Byte
  | 0 => sp
  | i + 1 => (c.sha256 (hashChain c sp i ++ sp ++ [BitVec.ofNat 8 i])).toList

/-- The PRNG state after `n` outputs. -/
def prngAfter (c : Cfg) (g : Prng) : Nat → Prng
  | 0 => g
  | n + 1 => (c.prngStep (prngAfter c g n)).1

/-- R141: bit `n` of the stream of a byte string, most-significant bit of each byte first, zero after its
end. -/
def streamBit (bs : List Byte) (n : Nat) : Bool := (byteAt bs (n / 8)).getLsbD (7 - n % 8)

/-- R143: bit `n` of the stream of symbols, most-significant bit of each symbol first. -/
def symbolBit (ws : List Sym) (n : Nat) : Bool := (ws.getD (n / 12) 0).getLsbD (11 - n % 12)

/-- The addresses a session can still issue: the live window in Uniform mode (R198), the live parts of the four
buckets in Shaped mode (R208). -/
def issuable (x : Scatter) : List Word :=
  match x.mode with
  | .uniform => liveWindow x
  | .shaped =>
    (List.finRange 4).flatMap fun k => memReadList x.pool x.base[k].toNat x.live[k].toNat

/-- The request `n` in mode `m` passes every check of `SC.GEN` (R212, R285). -/
structure Grantable (m : Mode) (s : State) : Prop where
  valid : s.sc.valid = true
  unfaulted : s.sc.fault = false
  length : s.arg0.toNat ≤ Config.cfg.aoutMax
  forward : ¬(m = .uniform ∧ s.sc.mode = .shaped)
  capacity : s.arg0.toNat ≤ freeSpace s.sc m

/-- The addresses an `SC.GEN` of `n` in mode `m` leaves in `AOUT` (R69). -/
def issued (n : Nat) (s : State) : List Word := memReadList s.aout 0 n

/-- Invariant 1: every memory space is in its canonical form and lists no address outside the space (R13, R40,
R66). -/
structure MemoriesCanonical (s : State) : Prop where
  pwbuf_wf : s.pwbuf.wf
  pwbuf_within : s.pwbuf.within Config.cfg.pwMax
  din_wf : s.din.wf
  din_within : s.din.within Config.cfg.dbufMax
  dout_wf : s.dout.wf
  dout_within : s.dout.within Config.cfg.dbufMax
  aout_wf : s.aout.wf
  aout_within : s.aout.within Config.cfg.aoutMax
  pix_wf : s.pix.wf
  pool_wf : s.sc.pool.wf

/-- Invariant 2: the registers agree with one another as R26, R27, R33, R34, R37, R39 and R281 say. -/
structure RegistersConsistent (s : State) : Prop where
  /-- codes 7 to 255 are never written (R281) -/
  err_code : s.err.toNat ≤ 6
  /-- without an error the information words are 0 (R27) -/
  err_info : s.err = 0 → s.errInfo0 = 0 ∧ s.errInfo1 = 0
  /-- no command runs while `ERR ≠ 0` (R25) -/
  busy_noError : s.busy = true → s.err = 0
  /-- `DONE` is cleared by the acceptance of a command (R26) -/
  busy_notDone : s.busy = true → s.done = false
  /-- before the tables are ready the builder runs (R320) -/
  building : s.tblReady = false → s.busy = true
  /-- ready tables hold what the builder writes, for good (R37) -/
  tables : s.tblReady = true → TablesBuilt s
  /-- without a derivation the key registers read 0 (R34) -/
  keyP_zero : s.kpValid = false → s.keyP = Vector.replicate 8 0 ∧ s.ivP = Vector.replicate 4 0
  keyH_zero : s.khValid = false → s.keyH = Vector.replicate 8 0 ∧ s.ivH = Vector.replicate 4 0
  /-- without a session the scatter registers read 0 (R32, R110 b) -/
  noSession : s.sc.valid = false →
    s.sc.mode = .uniform ∧ s.sc.fault = false ∧ s.sc.avail = 0 ∧ s.sc.total = 0 ∧ s.sc.used = 0 ∧ s.sc.pos = 0
  /-- the rebalancing registers are 0 outside Shaped mode (R33) -/
  notShaped : s.sc.mode = .uniform →
    s.sc.rq = Vector.replicate 4 0 ∧ s.sc.live = Vector.replicate 4 0 ∧ s.sc.base = Vector.replicate 4 0
  /-- the working state of a command is idle between steps (R39) -/
  hash_idle : s.hash = List.replicate 32 0
  round_idle : s.round = 0
  loops_idle : s.loops = Loops.zero
  scratch_idle : s.sc.scratch = []

/-- Invariant 3: the session's books balance (R192, R201 to R209). -/
structure SessionSound (x : Scatter) : Prop where
  /-- `N = 12·A` (R32) -/
  total_eq : x.total.toNat = 12 * x.avail.toNat
  /-- `A` is at most the largest `PIX_MAX` (section 4) -/
  avail_le : x.avail.toNat ≤ 2 ^ 28
  used_le : x.used.toNat ≤ x.total.toNat
  la_length : x.la.length = laLen
  /-- `LA_IDX` is in 0 .. `LA_LEN` (R39 b) -/
  laIdx_le : x.laIdx ≤ laLen
  /-- no layer has more live entries than its region had (R192, R198) -/
  uniform_layers : x.mode = .uniform → ∀ k < 4, layerCount (liveWindow x) k ≤ 3 * x.avail.toNat
  /-- Shaped mode comes after the header region (R201) -/
  shaped_header : x.mode = .shaped → headerSlots ≤ x.used.toNat
  /-- the quotas are the Shaped budget (R199, R205) -/
  shaped_budget : x.mode = .shaped → quotaSum x = shapedBudget x
  /-- a bucket can give its quota (R205) -/
  shaped_quota : x.mode = .shaped → ∀ k : Fin 4, x.rq[k].toNat ≤ x.live[k].toNat
  /-- the buckets lie in order inside the pool (R203, R204) -/
  shaped_order : x.mode = .shaped → ∀ j k : Fin 4, j < k →
    x.base[j].toNat + x.live[j].toNat ≤ x.base[k].toNat
  shaped_end : x.mode = .shaped → ∀ k : Fin 4, x.base[k].toNat + x.live[k].toNat ≤ x.total.toNat
  /-- no address can be issued twice (R209 a) -/
  distinct : (issuable x).Nodup

/-- Invariant 3, the part that names the sizes: the session fits the pixels and the pool of the configuration
(R13, R80). -/
structure PoolFits (x : Scatter) : Prop where
  avail_le : x.avail.toNat ≤ Config.cfg.pixMax
  pool_within : x.pool.within Config.cfg.poolMax

/-- What an error leaves unchanged (R283): everything but the error registers, `BUSY`, `DONE` and `SC_FAULT`. -/
def errorFrame (s t : State) : Prop :=
  t = { s with
        err := t.err, errInfo0 := t.errInfo0, errInfo1 := t.errInfo1
        sc := { s.sc with fault := t.sc.fault }
        busy := t.busy, done := t.done }

end Sys2Proof.Safety
end

