-- ==== Sys2Proof/Certificates/Slice0/Obligations.lean ====
section
/-! DEFINITION. The statements for the provers. Every one speaks of the machine with the configuration
`Config.cfg`, a constant without a body, and so of every admissible configuration (`spec/00_scope.md`
section 4). -/

open Sys2Proof Sys2Proof.Machine Sys2Proof.Safety

/-! ## Encoding -/

/-- R96, R99: decoding the word of a command gives the command back, for every value of every field. -/
def Obligations.EncodedCommandDecodesToItself : Prop :=
  ∀ i : Instr, i.wellFormed = true → decode (encode i) = .ok i

/-- R99: every word is exactly one of the commands or illegal. -/
def Obligations.EveryWordIsOneCommandOrIllegal : Prop :=
  ∀ c : Word,
    (∃ i, decode c = .ok i ∧ encode i = c ∧ ∀ j, encode j = c → j = i) ∨
    ((∃ e, decode c = .error e) ∧ ∀ i, encode i ≠ c)

/-- R96: a word is legal exactly when it matches one of the 15 rows of the opcode table. -/
def Obligations.LegalWordsAreTheTableRows : Prop :=
  ∀ c : Word, (∃ i, decode c = .ok i) ↔ ∃ r ∈ tableRows, c &&& r.2 = r.1

/-- R101: words of the spec, written out, decode to the commands they stand for. -/
def Obligations.SpecWordsDecodeToTheirCommands : Prop :=
  decode 0x00000000 = .ok .nop ∧ decode 0x01000000 = .ok .sreset ∧
  decode 0x08001123 = .ok (.tblRdSyn 0x123) ∧ decode 0x08002FFF = .ok (.tblRdCor 0xFFF) ∧
  decode 0x11000000 = .ok .eccDec24 ∧ decode 0x20000001 = .ok (.kdfDerive .header) ∧
  decode 0x31000000 = .ok (.scFree .uniform) ∧ decode 0x32000001 = .ok (.scGen .shaped) ∧
  decode 0x33000000 = .ok .scEnd

/-! ## The step -/

/-- R91, R77: the step of an accepted word that decodes to a command is that command's meaning, with the host's
wait, if there is one, taken from the input and nothing else added. -/
def Obligations.StepRunsTheAcceptedCommand : Prop :=
  ∀ (s : State) (c : Word) (rest : List HostEvent) (i : Instr),
    Accepted c rest s → decode c = .ok i → i.wellFormed = true →
    step s = exec i { s with input := rest }

/-- R97: a word with an opcode outside the map ends with `E_ILLEGAL`, and no other state changes. -/
def Obligations.ReservedOpcodeEndsInEIllegal : Prop :=
  ∀ (s : State) (c : Word) (rest : List HostEvent),
    Accepted c rest s → (c.extractLsb' 24 8).toNat ∉ opcodes →
    step s = .next { s with
      input := rest, err := 1, errInfo0 := c, errInfo1 := 0, busy := false, done := true }

/-- R98: a legal opcode with a non-zero 'must be 0' field, and `TBL.RD` with `sel` = 3, end with `E_ILLEGAL`. -/
def Obligations.ReservedFieldEndsInEIllegal : Prop :=
  ∀ (s : State) (c : Word) (rest : List HostEvent), Accepted c rest s →
    ((c.extractLsb' 24 8).toNat ∈ [0x00, 0x01, 0x10, 0x11, 0x12, 0x13, 0x21, 0x30, 0x33] ∧
        c.extractLsb' 0 24 ≠ 0 ∨
      (c.extractLsb' 24 8).toNat ∈ [0x20, 0x31, 0x32] ∧ c.extractLsb' 1 23 ≠ 0 ∨
      (c.extractLsb' 24 8).toNat = 0x08 ∧
        (c.extractLsb' 14 10 ≠ 0 ∨ (c.extractLsb' 12 2).toNat = 3)) →
    step s = .next { s with
      input := rest, err := 1, errInfo0 := c, errInfo1 := 0, busy := false, done := true }

/-- R337: the idle block changes nothing by itself. -/
def Obligations.IdleBlockIsQuiescent : Prop :=
  ∀ s : State, s.busy = false → s.input = [] → step s = .next s

/-- R117, R132, R133: the step of the table builder fills `ENC` and `SYN` as folds of the matrices, `SYN` taking
each parity word back to its data word, and leaves the block idle without setting `DONE`. That the loop indices are 0
after it is the model's form of R39 (notes/assumptions/14.md). -/
def Obligations.TableBuildFillsTheFoldTables : Prop :=
  ∀ (s : State) (rest : List HostEvent), s.busy = true → s.tblReady = false →
    (s.input = .wait :: rest ∨ (s.input = [] ∧ rest = [])) →
    ∃ t, step s = .next t ∧
      t = { s with
            input := rest, enc := t.enc, syn := t.syn, cor := t.cor
            loops := Loops.zero, tblReady := true, busy := false } ∧
      (∀ w : Sym, tableGet t.enc w = fold Config.cfg.gen w) ∧
      (∀ p : Sym, tableGet t.syn p = fold Config.cfg.chk p) ∧
      (∀ w : Sym, tableGet t.syn (tableGet t.enc w) = w)

/-- R135: an entry of `COR` holds the data bits of the last enumerated pattern with that syndrome, and 0 where
no pattern has it. -/
def Obligations.CorrectionTableHoldsTheLastPattern : Prop :=
  ∀ (s : State) (z : Sym), TablesBuilt s →
    (∃ (n : Nat) (e : Code), errPatterns[n]? = some e ∧ syndrome s.syn e = z ∧
      (∀ (m : Nat) (e' : Code), n < m → errPatterns[m]? = some e' → syndrome s.syn e' ≠ z) ∧
      tableGet s.cor z = dataBits e) ∨
    ((∀ e ∈ errPatterns, syndrome s.syn e ≠ z) ∧ tableGet s.cor z = 0)

/-- R135: the patterns enumerated are those of weight 1 to 4, and their order is that of the indices `i ≤ j ≤ k ≤ l`,
`i` the slowest. R137 (c): so the entry of a weight-4 pattern's syndrome is that of the pattern in its class whose
lowest bit is the highest. -/
def Obligations.ErrorPatternsHaveWeightOneToFour : Prop :=
  (∀ e : Code, e ∈ errPatterns ↔ 1 ≤ popcount e ∧ popcount e ≤ 4) ∧
  (∃ q : List (Nat × Nat × Nat × Nat),
    (∀ i j k l, (i, j, k, l) ∈ q ↔ i ≤ j ∧ j ≤ k ∧ k ≤ l ∧ l < 24) ∧
    q.Pairwise (fun x y => x.1 < y.1 ∨ x.1 = y.1 ∧ (x.2.1 < y.2.1 ∨ x.2.1 = y.2.1 ∧
      (x.2.2.1 < y.2.2.1 ∨ x.2.2.1 = y.2.2.1 ∧ x.2.2.2 < y.2.2.2))) ∧
    errPatterns = q.map fun x => 1#24 <<< x.1 ||| 1#24 <<< x.2.1 ||| 1#24 <<< x.2.2.1 ||| 1#24 <<< x.2.2.2) ∧
  (∀ (s : State) (e : Code), TablesBuilt s → popcount e = 4 →
    (∀ e' : Code, popcount e' = 4 → e' ≠ e → syndrome s.syn e' = syndrome s.syn e →
      ∃ n, e'.getLsbD n = true ∧ ∀ m ≤ n, e.getLsbD m = false) →
    tableGet s.cor (syndrome s.syn e) = dataBits e)

/-! ## System commands -/

/-- R111: `NOP` only ends. -/
def Obligations.NopOnlyEnds : Prop :=
  ∀ s : State, exec .nop s = .next { s with busy := false, done := true }

/-- R113, R39: what `SRESET` clears; everything else is kept. That `HASH` is then 32 zero bytes is the model's form of
`HASH <- 0` (notes/assumptions/14.md), and that the contents of `LA` are kept is the model's choice
(notes/assumptions/24.md). -/
def Obligations.SresetClearsAllButTheTables : Prop :=
  ∀ s : State, ∃ t, exec .sreset s = .next t ∧
    t = { s with
          arg0 := 0, arg1 := 0, res0 := 0, res1 := 0, pwLen := 0
          seed := Vector.replicate 4 0
          keyP := Vector.replicate 8 0, ivP := Vector.replicate 4 0
          keyH := Vector.replicate 8 0, ivH := Vector.replicate 4 0
          pwbuf := t.pwbuf
          sc := { valid := false, mode := .uniform, fault := false
                  avail := 0, total := 0, used := 0, pos := 0
                  rq := Vector.replicate 4 0, live := Vector.replicate 4 0
                  base := Vector.replicate 4 0
                  prng := { a := 0, b := 0, c := 0, d := 0 }
                  la := s.sc.la, laIdx := laLen, pool := s.sc.pool, scratch := [] }
          hash := List.replicate 32 0, round := 0, loops := Loops.zero
          kpValid := false, khValid := false, wrign := false
          busy := false, done := true } ∧
    (∀ a < Config.cfg.pwMax, memRead t.pwbuf a = 0) ∧
    (∀ a, Config.cfg.pwMax ≤ a → memRead t.pwbuf a = memRead s.pwbuf a)

/-- R115: `TBL.RD` puts the entry of the selected table in `RES0`, zero-extended; nothing else changes. -/
def Obligations.TableReadsGiveTheEntry : Prop :=
  ∀ (idx : Sym) (s : State),
    exec (.tblRdEnc idx) s = .next { s with
      res0 := (tableGet s.enc idx).setWidth 32, busy := false, done := true } ∧
    exec (.tblRdSyn idx) s = .next { s with
      res0 := (tableGet s.syn idx).setWidth 32, busy := false, done := true } ∧
    exec (.tblRdCor idx) s = .next { s with
      res0 := (tableGet s.cor idx).setWidth 32, busy := false, done := true }

/-! ## ECC unit -/

/-- R138: `ECC.ENC12` puts the codeword `(w << 12) or ENC[w]` in `RES0`; nothing else changes. -/
def Obligations.Enc12GivesTheCodeword : Prop :=
  ∀ s : State, s.arg0.toNat ≤ 0xFFF →
    ∃ t, exec .eccEnc12 s = .next t ∧
      t = { s with res0 := t.res0, busy := false, done := true } ∧
      t.res0.toNat = s.arg0.toNat * 2 ^ 12 + (tableGet s.enc (BitVec.ofNat 12 s.arg0.toNat)).toNat

/-- R134, R136, R139: `ECC.DEC24` gives the corrected word in `RES0` and the syndrome in `RES1`; nothing else
changes. -/
def Obligations.Dec24CorrectsByTheSyndrome : Prop :=
  ∀ (s : State) (d p z : Sym), s.arg0.toNat ≤ 0xFFFFFF →
    d = BitVec.ofNat 12 (s.arg0.toNat / 2 ^ 12) → p = BitVec.ofNat 12 (s.arg0.toNat % 2 ^ 12) →
    z = tableGet s.syn p ^^^ d →
    exec .eccDec24 s = .next { s with
      res0 := (d ^^^ tableGet s.cor z).setWidth 32, res1 := z.setWidth 32
      busy := false, done := true }

/-- R61, R140, R142: `ECC.ENCB` writes the codewords of the symbols of `DIN[0 .. L-1]` to `DOUT`, 3 bytes each,
most-significant first, and nothing beyond them. -/
def Obligations.EncbWritesTheCodewords : Prop :=
  ∀ (s : State) (L n : Nat), L = s.arg0.toNat → n = (L + 1) * 8 / 12 →
    L ≤ Config.cfg.dbufMax → 3 * n ≤ Config.cfg.dbufMax →
    ∃ t, exec .eccEncb s = .next t ∧
      t = { s with
            dout := t.dout, res0 := BitVec.ofNat 32 (3 * n), res1 := BitVec.ofNat 32 n
            busy := false, done := true } ∧
      (∀ k < n, ∀ w p : Sym, w = symbolAt (memReadList s.din 0 L) k → p = tableGet s.enc w →
        memRead t.dout (3 * k) = BitVec.ofNat 8 (w.toNat / 2 ^ 4) ∧
        memRead t.dout (3 * k + 1) = BitVec.ofNat 8 (w.toNat % 2 ^ 4 * 2 ^ 4 + p.toNat / 2 ^ 8) ∧
        memRead t.dout (3 * k + 2) = BitVec.ofNat 8 (p.toNat % 2 ^ 8)) ∧
      (∀ a, 3 * n ≤ a → memRead t.dout a = memRead s.dout a)

/-- R61, R143, R144: `ECC.DECB` writes the `L` bytes unpacked from the corrected symbols to `DOUT` and counts the
non-zero syndromes in `RES1`. -/
def Obligations.DecbWritesTheCorrectedBytes : Prop :=
  ∀ (s : State) (L n : Nat) (r : Nat → Code), L = s.arg0.toNat → n = (L + 1) * 8 / 12 →
    L ≤ Config.cfg.dbufMax → 3 * n ≤ Config.cfg.dbufMax →
    (∀ k < n, (r k).toNat = (memRead s.din (3 * k)).toNat * 2 ^ 16 +
      (memRead s.din (3 * k + 1)).toNat * 2 ^ 8 + (memRead s.din (3 * k + 2)).toNat) →
    ∃ t, exec .eccDecb s = .next t ∧
      t = { s with
            dout := t.dout, res0 := s.arg0
            res1 := BitVec.ofNat 32 ((List.range n).countP fun k => syndrome s.syn (r k) != 0)
            busy := false, done := true } ∧
      (∀ a < L, memRead t.dout a =
        unpackByte ((List.range n).map fun k => decode24 s.syn s.cor (r k)) a) ∧
      (∀ a, L ≤ a → memRead t.dout a = memRead s.dout a)

/-- R138, R139, R142, R144: an operand above its range ends with `E_OPERAND`, a length the buffers cannot hold
with `E_LENGTH`, and nothing else changes. -/
def Obligations.EccOperandErrors : Prop :=
  ∀ s : State,
    (0xFFF < s.arg0.toNat → exec .eccEnc12 s = .next { s with
      err := 2, errInfo0 := s.arg0, errInfo1 := 0xFFF, busy := false, done := true }) ∧
    (0xFFFFFF < s.arg0.toNat → exec .eccDec24 s = .next { s with
      err := 2, errInfo0 := s.arg0, errInfo1 := 0xFFFFFF, busy := false, done := true }) ∧
    (Config.cfg.dbufMax < s.arg0.toNat ∨ Config.cfg.dbufMax < 3 * ((s.arg0.toNat + 1) * 8 / 12) →
      exec .eccEncb s = .next { s with
        err := 3, errInfo0 := s.arg0, errInfo1 := BitVec.ofNat 32 Config.cfg.dbufMax
        busy := false, done := true } ∧
      exec .eccDecb s = .next { s with
        err := 3, errInfo0 := s.arg0, errInfo1 := BitVec.ofNat 32 Config.cfg.dbufMax
        busy := false, done := true })

/-- R137 (a): encoding any of the 4096 words and decoding the codeword gives the word back, with syndrome 0. -/
def Obligations.EncodedWordDecodesBack : Prop :=
  ∀ s : State, TablesBuilt s → s.arg0.toNat ≤ 0xFFF →
    ∃ t u, exec .eccEnc12 s = .next t ∧ exec .eccDec24 { t with arg0 := t.res0 } = .next u ∧
      u.res0 = s.arg0 ∧ u.res1 = 0

/-- R137 (b), R134: a codeword with at most 3 flipped bits decodes to its data word, and the syndrome depends on
the error pattern alone. -/
def Obligations.ThreeBitErrorsAreCorrected : Prop :=
  ∀ (s : State) (w : Sym) (e : Code), TablesBuilt s → popcount e ≤ 3 →
    s.arg0 = (codeword Config.cfg.gen w ^^^ e).setWidth 32 →
    ∃ t, exec .eccDec24 s = .next t ∧ t.res0 = w.setWidth 32 ∧
      t.res1 = (syndrome s.syn e).setWidth 32

/-- R144: decoding the bytes `ECC.ENCB` wrote, with the same length, gives the input back, and no symbol counts as
damaged. -/
def Obligations.EncodedBytesDecodeBack : Prop :=
  ∀ (s t u : State), TablesBuilt s →
    s.arg0.toNat ≤ Config.cfg.dbufMax → 3 * nsym s.arg0.toNat ≤ Config.cfg.dbufMax →
    exec .eccEncb s = .next t →
    u = { t with din := u.din } →
    (∀ a < 3 * nsym s.arg0.toNat, memRead u.din a = memRead t.dout a) →
    ∃ v, exec .eccDecb u = .next v ∧ v.res1 = 0 ∧
      ∀ a < s.arg0.toNat, memRead v.dout a = memRead s.din a

/-- R141, R143: symbol `k` is stream bits `12k .. 12k+11`, and byte `a` of the unpacked stream is its bits
`8a .. 8a+7`, most-significant bit first both ways. -/
def Obligations.RepackingFollowsTheBitStream : Prop :=
  (∀ (bs : List Byte) (k j : Nat), k < nsym bs.length → j < 12 →
    (symbolAt bs k).getLsbD (11 - j) = streamBit bs (12 * k + j)) ∧
  (∀ (ws : List Sym) (a j : Nat), j < 8 →
    (unpackByte ws a).getLsbD (7 - j) = symbolBit ws (8 * a + j))

/-! ## KDF unit -/

/-- R161 to R166: `KDF.DERIVE P` runs 256 rounds over salt and password and stores key and IV in the payload
registers; nothing else changes. The model's form of `HASH <- 0` is 32 zero bytes
(notes/assumptions/14.md). -/
def Obligations.PayloadDerivationStoresKeyAndIv : Prop :=
  ∀ (s : State) (key iv : List Byte), s.pwLen.toNat ≤ Config.cfg.pwMax →
    key = hashChain Config.cfg (Config.cfg.salt.toList ++ memReadList s.pwbuf 0 s.pwLen.toNat) 256 →
    iv = ((Config.cfg.sha256 key).toList.drop 10).take 16 →
    ∃ t, exec (.kdfDerive .payload) s = .next t ∧
      t = { s with
            keyP := t.keyP, ivP := t.ivP, kpValid := true
            hash := List.replicate 32 0, round := 0, busy := false, done := true } ∧
      (∀ j : Fin 8, t.keyP[j].toNat = (byteAt key (4 * j)).toNat + 2 ^ 8 * (byteAt key (4 * j + 1)).toNat +
        2 ^ 16 * (byteAt key (4 * j + 2)).toNat + 2 ^ 24 * (byteAt key (4 * j + 3)).toNat) ∧
      (∀ j : Fin 4, t.ivP[j].toNat = (byteAt iv (4 * j)).toNat + 2 ^ 8 * (byteAt iv (4 * j + 1)).toNat +
        2 ^ 16 * (byteAt iv (4 * j + 2)).toNat + 2 ^ 24 * (byteAt iv (4 * j + 3)).toNat)

/-- R63, R161 to R166: `KDF.DERIVE H` does the same over salt, password and suffix for the header registers, and
copies the IV to `SEED0..3`; nothing else changes. The model's form of `HASH <- 0`
is 32 zero bytes (notes/assumptions/14.md). -/
def Obligations.HeaderDerivationStoresKeyIvAndSeed : Prop :=
  ∀ (s : State) (key iv : List Byte), s.pwLen.toNat ≤ Config.cfg.pwMax →
    key = hashChain Config.cfg
      (Config.cfg.salt.toList ++ memReadList s.pwbuf 0 s.pwLen.toNat ++ Config.cfg.suffix) 256 →
    iv = ((Config.cfg.sha256 key).toList.drop 10).take 16 →
    ∃ t, exec (.kdfDerive .header) s = .next t ∧
      t = { s with
            keyH := t.keyH, ivH := t.ivH, khValid := true, seed := t.ivH
            hash := List.replicate 32 0, round := 0, busy := false, done := true } ∧
      (∀ j : Fin 8, t.keyH[j].toNat = (byteAt key (4 * j)).toNat + 2 ^ 8 * (byteAt key (4 * j + 1)).toNat +
        2 ^ 16 * (byteAt key (4 * j + 2)).toNat + 2 ^ 24 * (byteAt key (4 * j + 3)).toNat) ∧
      (∀ j : Fin 4, t.ivH[j].toNat = (byteAt iv (4 * j)).toNat + 2 ^ 8 * (byteAt iv (4 * j + 1)).toNat +
        2 ^ 16 * (byteAt iv (4 * j + 2)).toNat + 2 ^ 24 * (byteAt iv (4 * j + 3)).toNat)

/-- R166: a `PWLEN` above `PW_MAX` ends with `E_LENGTH` in either context, and nothing else changes; any other
length raises no error. -/
def Obligations.DerivationChecksThePasswordLength : Prop :=
  ∀ (m : Context) (s : State), ∃ t, exec (.kdfDerive m) s = .next t ∧
    (Config.cfg.pwMax < s.pwLen.toNat → t = { s with
      err := 3, errInfo0 := s.pwLen.setWidth 32, errInfo1 := BitVec.ofNat 32 Config.cfg.pwMax
      busy := false, done := true }) ∧
    (s.pwLen.toNat ≤ Config.cfg.pwMax →
      t.err = s.err ∧ t.errInfo0 = s.errInfo0 ∧ t.errInfo1 = s.errInfo1)

/-- R167: what `KDF.CLEAR` clears; a running session is not touched. The model's form of `HASH <- 0` is 32 zero
bytes (notes/assumptions/14.md). -/
def Obligations.KdfClearForgetsKeysAndPassword : Prop :=
  ∀ s : State, ∃ t, exec .kdfClear s = .next t ∧
    t = { s with
          keyP := Vector.replicate 8 0, ivP := Vector.replicate 4 0
          keyH := Vector.replicate 8 0, ivH := Vector.replicate 4 0
          seed := Vector.replicate 4 0, kpValid := false, khValid := false
          pwbuf := t.pwbuf, pwLen := 0
          hash := List.replicate 32 0, round := 0, busy := false, done := true } ∧
    (∀ a < Config.cfg.pwMax, memRead t.pwbuf a = 0) ∧
    (∀ a, Config.cfg.pwMax ≤ a → memRead t.pwbuf a = memRead s.pwbuf a)

/-! ## SCT unit -/

/-- R191, R192: the scan meets each available pixel once, in descending order of index. -/
def Obligations.ScanMeetsAvailablePixelsDownward : Prop :=
  ∀ (pix : Mem 8) (n : Nat),
    (scanPixels pix n).Pairwise (fun p q => q < p) ∧
    ∀ p, p ∈ scanPixels pix n ↔ p < n ∧ memRead pix (4 * p + 3) = 255

/-- R192, R193, R194, R210: `SC.INIT` starts a Uniform session: the pool layer by layer, by rank and channel, the
counters at their start, the PRNG seeded and advanced past the discard. That `LA` and the unwritten entries of `POOL` are
kept, and that the scratch array is empty, is the model's choice (notes/assumptions/24.md, 15.md). -/
def Obligations.ScInitStartsASession : Prop :=
  ∀ (s : State) (ps : List Nat), s.arg0.toNat ≤ 0xFFFF → s.arg1.toNat ≤ 0xFFFF →
    s.arg0.toNat * s.arg1.toNat ≤ Config.cfg.pixMax →
    ps = scanPixels s.pix (s.arg0.toNat * s.arg1.toNat) →
    ∃ t, exec .scInit s = .next t ∧
      t = { s with
            sc := { valid := true, mode := .uniform, fault := false
                    avail := BitVec.ofNat 32 ps.length, total := BitVec.ofNat 32 (12 * ps.length)
                    used := 0, pos := 0
                    rq := Vector.replicate 4 0, live := Vector.replicate 4 0
                    base := Vector.replicate 4 0
                    prng := discardDraws Config.cfg (Config.cfg.discard s.seed)
                      { a := s.seed[0], b := s.seed[1], c := s.seed[2], d := s.seed[3] }
                    la := s.sc.la, laIdx := laLen, pool := t.sc.pool, scratch := [] }
            res0 := BitVec.ofNat 32 (12 * ps.length), res1 := BitVec.ofNat 32 ps.length
            busy := false, done := true } ∧
      (∀ (r p ch b : Nat), ps[r]? = some p → ch < 3 → b < 4 →
        (memRead t.sc.pool (b * (3 * ps.length) + 3 * r + ch)).toNat = p * 2 ^ 4 + ch * 2 ^ 2 + b) ∧
      (∀ a, 12 * ps.length ≤ a → memRead t.sc.pool a = memRead s.sc.pool a)

/-- R210: a dimension above 0xFFFF ends with `E_OPERAND`, too many pixels with `E_LENGTH`; an existing session is
left as it is. -/
def Obligations.ScInitErrors : Prop :=
  ∀ s : State,
    (0xFFFF < s.arg0.toNat ∨ 0xFFFF < s.arg1.toNat →
      exec .scInit s = .next { s with
        err := 2, errInfo0 := BitVec.ofNat 32 (max s.arg0.toNat s.arg1.toNat), errInfo1 := 0xFFFF
        busy := false, done := true }) ∧
    (s.arg0.toNat ≤ 0xFFFF → s.arg1.toNat ≤ 0xFFFF →
      Config.cfg.pixMax < s.arg0.toNat * s.arg1.toNat →
      exec .scInit s = .next { s with
        err := 3, errInfo0 := BitVec.ofNat 32 (s.arg0.toNat * s.arg1.toNat)
        errInfo1 := BitVec.ofNat 32 Config.cfg.pixMax, busy := false, done := true })

/-- R199, R211: `SC.FREE` returns the free slots of the mode asked for and changes nothing else. -/
def Obligations.ScFreeReportsFreeSlots : Prop :=
  ∀ (s : State), s.sc.valid = true → s.sc.fault = false →
    (s.sc.mode = .uniform →
      exec (.scFree .uniform) s = .next { s with
        res0 := BitVec.ofNat 32 (s.sc.total.toNat - s.sc.used.toNat), busy := false, done := true } ∧
      exec (.scFree .shaped) s = .next { s with
        res0 := BitVec.ofNat 32 (s.sc.total.toNat / 2 - s.sc.used.toNat)
        busy := false, done := true }) ∧
    (s.sc.mode = .shaped →
      exec (.scFree .uniform) s = .next { s with res0 := 0, busy := false, done := true } ∧
      exec (.scFree .shaped) s = .next { s with
        res0 := BitVec.ofNat 32
          (s.sc.rq[0].toNat + s.sc.rq[1].toNat + s.sc.rq[2].toNat + s.sc.rq[3].toNat)
        busy := false, done := true })

/-- R211, R212, R286: without a session, or on a faulted one, `SC.FREE` and `SC.GEN` end with `E_NOSESSION` before
any other check. -/
def Obligations.NoSessionEndsInENoSession : Prop :=
  ∀ (m : Mode) (s : State), s.sc.valid = false ∨ s.sc.fault = true →
    ∀ i ∈ [Instr.scFree m, Instr.scGen m],
      exec i s = .next { s with
        err := 4, errInfo0 := if s.sc.valid then 1 else 0, errInfo1 := if s.sc.fault then 1 else 0
        busy := false, done := true }

/-- R69, R212: a request whose checks pass is granted: the addresses stand in `AOUT[0 .. n-1]`, `RES0 = n`, the
cursor has moved by `n`, and outside the session, `AOUT` and `RES0` nothing changes. -/
def Obligations.ScGenIssuesTheAddresses : Prop :=
  ∀ (m : Mode) (s : State), Grantable m s →
    ∃ t, exec (.scGen m) s = .next t ∧
      t = { s with
            sc := { t.sc with valid := true, fault := false, avail := s.sc.avail, total := s.sc.total }
            aout := t.aout, res0 := s.arg0, busy := false, done := true } ∧
      issued s.arg0.toNat t = (drawSlots Config.cfg m s.arg0.toNat s.sc).2 ∧
      (∀ a, s.arg0.toNat ≤ a → memRead t.aout a = memRead s.aout a) ∧
      t.sc.used = s.sc.used + s.arg0

/-- R197, R198: one Uniform draw, in full. -/
def Obligations.UniformDrawTakesTheOffsetPosition : Prop :=
  ∀ (s : State) (rem idx : Nat), Grantable .uniform s → s.sc.mode = .uniform → s.arg0 = 1 →
    rem = s.sc.total.toNat - s.sc.used.toNat →
    idx = (((Config.cfg.prngStep s.sc.prng).2.toNat * (rem - 1) + 2 ^ 31) / 2 ^ 32 + s.sc.pos.toNat) % rem →
    ∃ t, exec (.scGen .uniform) s = .next t ∧
      t = { s with
            sc := { s.sc with
                    prng := (Config.cfg.prngStep s.sc.prng).1, pool := t.sc.pool
                    used := s.sc.used + 1, pos := BitVec.ofNat 32 idx }
            aout := t.aout, res0 := 1, busy := false, done := true } ∧
      memRead t.aout 0 = memRead s.sc.pool idx ∧
      (∀ a, a ≠ 0 → memRead t.aout a = memRead s.aout a) ∧
      memRead t.sc.pool idx = memRead s.sc.pool (rem - 1) ∧
      (∀ a, a ≠ idx → memRead t.sc.pool a = memRead s.sc.pool a)

/-- R206, R207, R208: one Shaped draw, in full, with a lookahead sample at hand or after the refill that a used-up
lookahead takes first: the sampled bucket, or the next one that has quota, gives the entry. -/
def Obligations.ShapedDrawTakesFromTheSelectedBucket : Prop :=
  ∀ (s : State) (la : List (Fin 4)) (g : Prng) (k0 k : Fin 4) (i d base lv idx : Nat),
    Grantable .shaped s → s.sc.mode = .shaped → s.arg0 = 1 →
    (s.sc.laIdx < laLen ∧ la = s.sc.la ∧ i = s.sc.laIdx ∧ g = s.sc.prng ∨
      s.sc.laIdx = laLen ∧ la.length = laLen ∧ i = 0 ∧ g = prngAfter Config.cfg s.sc.prng laLen ∧
      ∀ t < laLen, ∀ v,
        v = (Config.cfg.prngStep (prngAfter Config.cfg s.sc.prng t)).2.toNat *
          (s.sc.rq[0].toNat + s.sc.rq[1].toNat + s.sc.rq[2].toNat + s.sc.rq[3].toNat) / 2 ^ 32 →
        (la.getD t 0).val =
          if v < s.sc.rq[0].toNat then 0
          else if v < s.sc.rq[0].toNat + s.sc.rq[1].toNat then 1
          else if v < s.sc.rq[0].toNat + s.sc.rq[1].toNat + s.sc.rq[2].toNat then 2
          else 3) →
    k0 = la.getD i 0 → d < 4 → k = k0 + Fin.ofNat 4 d →
    s.sc.rq[k] ≠ 0 → (∀ e < d, s.sc.rq[k0 + Fin.ofNat 4 e] = 0) → s.sc.live[k] ≠ 0 →
    base = s.sc.base[k].toNat → lv = s.sc.live[k].toNat →
    idx = (((Config.cfg.prngStep g).2.toNat * (lv - 1) + 2 ^ 31) / 2 ^ 32 + s.sc.pos.toNat) % lv →
    ∃ t, exec (.scGen .shaped) s = .next t ∧
      t = { s with
            sc := { s.sc with
                    prng := (Config.cfg.prngStep g).1, pool := t.sc.pool
                    la := la, laIdx := i + 1
                    live := s.sc.live.set k.val (s.sc.live[k] - 1) k.isLt
                    rq := s.sc.rq.set k.val (s.sc.rq[k] - 1) k.isLt
                    used := s.sc.used + 1, pos := BitVec.ofNat 32 idx }
            aout := t.aout, res0 := 1, busy := false, done := true } ∧
      memRead t.aout 0 = memRead s.sc.pool (base + idx) ∧
      (∀ a, a ≠ 0 → memRead t.aout a = memRead s.aout a) ∧
      memRead t.sc.pool (base + idx) = memRead s.sc.pool (base + lv - 1) ∧
      (∀ a, a ≠ base + idx → memRead t.sc.pool a = memRead s.sc.pool a)

/-- R212, R285: a refused request reports the first failing check; the two fatal errors mark the session, and
nothing else changes. -/
def Obligations.RefusedRequestReportsTheFirstFailingCheck : Prop :=
  ∀ (m : Mode) (s : State), s.sc.valid = true → s.sc.fault = false →
    (Config.cfg.aoutMax < s.arg0.toNat →
      exec (.scGen m) s = .next { s with
        err := 3, errInfo0 := s.arg0, errInfo1 := BitVec.ofNat 32 Config.cfg.aoutMax
        busy := false, done := true }) ∧
    (s.arg0.toNat ≤ Config.cfg.aoutMax → m = .uniform → s.sc.mode = .shaped →
      exec (.scGen m) s = .next { s with
        sc := { s.sc with fault := true }
        err := 6, errInfo0 := 0, errInfo1 := 0, busy := false, done := true }) ∧
    (s.arg0.toNat ≤ Config.cfg.aoutMax → ¬(m = .uniform ∧ s.sc.mode = .shaped) →
      freeSpace s.sc m < s.arg0.toNat →
      exec (.scGen m) s = .next { s with
        sc := { s.sc with fault := true }
        err := 5, errInfo0 := s.arg0, errInfo1 := BitVec.ofNat 32 (freeSpace s.sc m)
        busy := false, done := true })

/-- R201: inside the header region a Shaped request is served exactly as a Uniform one, without a switch. -/
def Obligations.HeaderRegionIsAlwaysUniform : Prop :=
  ∀ s : State, Grantable .shaped s → s.sc.mode = .uniform →
    s.sc.used.toNat + s.arg0.toNat ≤ headerSlots →
    ∃ t, exec (.scGen .shaped) s = .next t ∧ exec (.scGen .uniform) s = .next t ∧
      t.sc.mode = .uniform

/-- R209 (d): a request split over two `SC.GEN` of one mode issues the same addresses and leaves the same session
as one request for the sum. -/
def Obligations.SplitRequestsIssueTheSameAddresses : Prop :=
  ∀ (m : Mode) (s : State) (n1 n2 : Word), SessionSound s.sc →
    (n1 + n2).toNat = n1.toNat + n2.toNat → Grantable m { s with arg0 := n1 + n2 } →
    ∃ t t1 t2, exec (.scGen m) { s with arg0 := n1 + n2 } = .next t ∧
      exec (.scGen m) { s with arg0 := n1 } = .next t1 ∧
      exec (.scGen m) { t1 with arg0 := n2 } = .next t2 ∧
      t2.err = s.err ∧ t2.sc = t.sc ∧
      issued (n1 + n2).toNat t = issued n1.toNat t1 ++ issued n2.toNat t2

/-- R209 (a): a granted request issues distinct addresses, all from the session's stock, and none of them stays in
the stock. -/
def Obligations.IssuedAddressesNeverRepeat : Prop :=
  ∀ (m : Mode) (s : State), SessionSound s.sc → Grantable m s →
    ∃ t, exec (.scGen m) s = .next t ∧
      (issued s.arg0.toNat t).Nodup ∧
      (∀ a ∈ issued s.arg0.toNat t, a ∈ issuable s.sc ∧ a ∉ issuable t.sc) ∧
      (∀ a ∈ issuable t.sc, a ∈ issuable s.sc)

/-- R209 (b): `freeSpace` in the mode drawn in falls by exactly the number of addresses issued, across the switch
too. -/
def Obligations.FreeSpaceFallsByTheNumberIssued : Prop :=
  ∀ (m : Mode) (s : State), SessionSound s.sc → Grantable m s →
    ∃ t, exec (.scGen m) s = .next t ∧ freeSpace t.sc m + s.arg0.toNat = freeSpace s.sc m

/-- R209 (e), R199: right after `SC.INIT` the Shaped capacity is exactly half of the Uniform one. -/
def Obligations.ShapedCapacityIsHalfAtTheStart : Prop :=
  ∀ s : State, s.arg0.toNat ≤ 0xFFFF → s.arg1.toNat ≤ 0xFFFF →
    s.arg0.toNat * s.arg1.toNat ≤ Config.cfg.pixMax →
    ∃ t, exec .scInit s = .next t ∧
      2 * freeSpace t.sc .shaped = freeSpace t.sc .uniform ∧
      freeSpace t.sc .uniform = 12 * (scanPixels s.pix (s.arg0.toNat * s.arg1.toNat)).length

/-- R202 to R205: the switch, in full: the stock is the same up to order, and but for the partition, the quotas, the
emptied lookahead and the mode the session is as it was (R202). Small pools are sorted by layer, stably, and the
buckets are the layers (R203); in large pools no entry moves and the buckets are what is left of the layers' regions
(R204). The quotas are the weighted shares of layers 1, 2 and 3 in this order and the remainder for layer 0
(R205). A Shaped request past the header region in Uniform mode is the request on the switched session. The scratch
array is the model's matter (notes/assumptions/15.md). -/
def Obligations.SwitchPartitionsTheLiveWindow : Prop :=
  ∀ (x y : Scatter) (A L B : Nat), SessionSound x → x.mode = .uniform → headerSlots ≤ x.used.toNat →
    y = switchToShaped x → A = x.avail.toNat → L = x.total.toNat - x.used.toNat →
    B = x.total.toNat / 2 - x.used.toNat →
    SessionSound y ∧ (issuable y).Perm (issuable x) ∧
    y = { x with
          mode := .shaped, laIdx := laLen, pool := y.pool, base := y.base, live := y.live, rq := y.rq
          scratch := y.scratch } ∧
    (A < sortPixels →
      (∀ k : Fin 4,
        y.live[k].toNat = (memReadList x.pool 0 L).countP (fun a => layerOf a == k.val) ∧
        y.base[k].toNat = (memReadList x.pool 0 L).countP (fun a => decide (layerOf a < k.val)) ∧
        memReadList y.pool y.base[k].toNat y.live[k].toNat =
          (memReadList x.pool 0 L).filter fun a => layerOf a == k.val) ∧
      ∀ a, L ≤ a → memRead y.pool a = memRead x.pool a) ∧
    (sortPixels ≤ A →
      (∀ k : Fin 4,
        y.base[k].toNat = min (k.val * (3 * A)) L ∧
        y.live[k].toNat = min ((k.val + 1) * (3 * A)) L - min (k.val * (3 * A)) L) ∧
      ∀ a, memRead y.pool a = memRead x.pool a) ∧
    y.rq[1].toNat = min (665272 * y.live[1].toNat / 1000000) B ∧
    y.rq[2].toNat = min (382584 * y.live[2].toNat / 1000000) (B - y.rq[1].toNat) ∧
    y.rq[3].toNat = min (152144 * y.live[3].toNat / 1000000) (B - y.rq[1].toNat - y.rq[2].toNat) ∧
    y.rq[0].toNat = min y.live[0].toNat (B - y.rq[1].toNat - y.rq[2].toNat - y.rq[3].toNat) ∧
    y.rq[0].toNat + y.rq[1].toNat + y.rq[2].toNat + y.rq[3].toNat = B ∧
    (∀ s : State, s.sc = x → Grantable .shaped s → 1 ≤ s.arg0.toNat →
      exec (.scGen .shaped) s = exec (.scGen .shaped) { s with sc := y })

/-- R213: `SC.END` leaves no session; the contents of `POOL`, `AOUT` and the seed are kept. That the contents of `LA` are kept
and the scratch array is empty is the model's choice (notes/assumptions/24.md, 15.md). -/
def Obligations.ScEndDiscardsTheSession : Prop :=
  ∀ s : State, exec .scEnd s = .next { s with
    sc := { valid := false, mode := .uniform, fault := false
            avail := 0, total := 0, used := 0, pos := 0
            rq := Vector.replicate 4 0, live := Vector.replicate 4 0, base := Vector.replicate 4 0
            prng := { a := 0, b := 0, c := 0, d := 0 }
            la := s.sc.la, laIdx := laLen, pool := s.sc.pool, scratch := [] }
    busy := false, done := true }

/-- R110 (b), R200: no step takes a session from Shaped back to Uniform but the end or the replacement of the session
and hardware reset. -/
def Obligations.ShapedNeverReturnsToUniform : Prop :=
  ∀ s t : State, step s = .next t → s.sc.mode = .shaped → t.sc.mode = .uniform →
    (∃ r rest, s.input = .hwReset r :: rest) ∨
    (s.busy = true ∧ s.tblReady = true ∧
      ∃ i ∈ [Instr.sreset, Instr.scInit, Instr.scEnd], decode s.cmd = .ok i)

/-! ## Whole-machine rules -/

/-- R91, R289, R333: every command ends, in one step, with the block idle, `DONE` set and the interrupt line at the
level of `CTRL.IE`. -/
def Obligations.EveryCommandEndsIdleAndDone : Prop :=
  ∀ (i : Instr) (s : State), ∃ t, exec i s = .next t ∧
    t.busy = false ∧ t.done = true ∧ irq t = s.ie

/-- R280, R283, R284: a command that ends in an error has none of its effects; only `E_CAPACITY` and `E_REGRESS`
mark the session. -/
def Obligations.ErrorsArePrecise : Prop :=
  ∀ (i : Instr) (s : State), s.err = 0 → ∃ t, exec i s = .next t ∧
    (t.err = 0 ∨
      (errorFrame s t ∧ 1 ≤ t.err.toNat ∧ t.err.toNat ≤ 6 ∧
        (t.sc.fault = (s.sc.fault || t.err == 5 || t.err == 6))))

/-- R23, R37, R40, R80: what each command leaves alone: no command writes the host's side, `CTRL`, `CMD`, the
tables, `DIN` or `PIX`, and each other piece of state only by the commands named for it. -/
def Obligations.CommandsWriteOnlyTheirOwnState : Prop :=
  ∀ (i : Instr) (s t : State), exec i s = .next t →
    t.input = s.input ∧ t.rdata = s.rdata ∧ t.freeCtr = s.freeCtr ∧ t.cmd = s.cmd ∧
    t.tblReady = s.tblReady ∧ t.ie = s.ie ∧ t.enc = s.enc ∧ t.syn = s.syn ∧ t.cor = s.cor ∧
    t.din = s.din ∧ t.pix = s.pix ∧
    (i ≠ .sreset → t.arg0 = s.arg0 ∧ t.arg1 = s.arg1 ∧ t.wrign = s.wrign) ∧
    (i ∉ [Instr.eccEncb, Instr.eccDecb] → ∀ a, memRead t.dout a = memRead s.dout a) ∧
    ((∀ m, i ≠ .scGen m) → ∀ a, memRead t.aout a = memRead s.aout a) ∧
    (i ∉ [Instr.sreset, Instr.kdfClear] →
      t.pwLen = s.pwLen ∧ ∀ a, memRead t.pwbuf a = memRead s.pwbuf a) ∧
    ((i ∉ [Instr.sreset, Instr.kdfClear] ∧ ∀ m, i ≠ .kdfDerive m) →
      t.keyP = s.keyP ∧ t.ivP = s.ivP ∧ t.keyH = s.keyH ∧ t.ivH = s.ivH ∧ t.seed = s.seed ∧
      t.kpValid = s.kpValid ∧ t.khValid = s.khValid) ∧
    ((i ∉ [Instr.sreset, Instr.scInit, Instr.scEnd] ∧ ∀ m, i ≠ .scGen m) → t.sc = s.sc) ∧
    (i ∈ [Instr.nop, Instr.kdfClear, Instr.scEnd] ∨ (∃ m, i = .kdfDerive m) →
      t.res0 = s.res0 ∧ t.res1 = s.res1)

/-! ## The host's side -/

/-- R25, R288: a write to `CMD` while the block is idle is accepted if `ERR = 0`; with an unacknowledged error it is
dropped and flagged. -/
def Obligations.CmdWriteIsAcceptedOrDropped : Prop :=
  ∀ (s : State) (c : Word) (rest : List HostEvent), s.busy = false →
    s.input = .write .reg .word 0x004 c :: rest →
    (s.err = 0 → step s = .next { s with input := rest, cmd := c, done := false, busy := true }) ∧
    (s.err ≠ 0 → step s = .next { s with input := rest, wrign := true })

/-- R287: a write of any value to `ERR` while the block is idle clears the three error registers and nothing else. -/
def Obligations.AcknowledgeClearsTheError : Prop :=
  ∀ (s : State) (v : Word) (rest : List HostEvent), s.busy = false →
    s.input = .write .reg .word 0x00C v :: rest →
    step s = .next { s with input := rest, err := 0, errInfo0 := 0, errInfo1 := 0 }

/-- R71: while the block is busy a write to any of its spaces is dropped and flagged. That this holds for every register,
width and alignment is the model's reading (notes/assumptions/6.md, 8.md). -/
def Obligations.BusyWritesAreDroppedAndFlagged : Prop :=
  ∀ (s : State) (sp : Space) (w : Width) (off : Nat) (v : Word) (rest : List HostEvent),
    s.busy = true → sp ≠ .pix → inSpace Config.cfg sp off = true →
    s.input = .write sp w off v :: rest →
    step s = .next { s with input := rest, wrign := true }

/-- R21, R26, R28, R29, R31: what the host writes to the read-write registers of an idle block is what they then
read, on the bits they have; `STATUS` takes 1s on bits 2 and 9. R40, R67 to R70: a byte written to `PWBUF`, `DIN` or `PIX`
is stored at its offset alone; `PWBUF` reads 0 in every width, and `DIN`, `DOUT`, `AOUT` and `PIX` read what they
hold. That a byte write stores the low 8 bits of its value is the model's reading (notes/assumptions/17.md). -/
def Obligations.WrittenRegistersReadBack : Prop :=
  ∀ (s : State) (v : Word) (rest : List HostEvent) (j : Fin 4) (off : Nat) (w : Width), s.busy = false →
    (s.input = .write .reg .word 0x020 v :: rest →
      ∃ t, step s = .next t ∧ t = { s with input := rest, arg0 := v } ∧ readReg t .arg0 = v) ∧
    (s.input = .write .reg .word 0x024 v :: rest →
      ∃ t, step s = .next t ∧ t = { s with input := rest, arg1 := v } ∧ readReg t .arg1 = v) ∧
    (s.input = .write .reg .word (0x030 + 4 * j.val) v :: rest →
      ∃ t, step s = .next t ∧ t = { s with input := rest, seed := s.seed.set j.val v j.isLt } ∧
        readReg t (.seed j) = v) ∧
    (s.input = .write .reg .word 0x01C v :: rest →
      ∃ t, step s = .next t ∧ t = { s with input := rest, pwLen := t.pwLen } ∧
        readReg t .pwLen = v &&& 0xFFFF) ∧
    (s.input = .write .reg .word 0x018 v :: rest →
      ∃ t, step s = .next t ∧ t = { s with input := rest, ie := t.ie } ∧
        readReg t .ctrl = v &&& 1) ∧
    (s.input = .write .reg .word 0x008 v :: rest →
      step s = .next { s with
        input := rest, done := s.done && !v.getLsbD 2, wrign := s.wrign && !v.getLsbD 9 }) ∧
    (off < Config.cfg.pwMax → s.input = .write .pwbuf .byte off v :: rest →
      ∃ t, step s = .next t ∧ t = { s with input := rest, pwbuf := t.pwbuf } ∧
        memRead t.pwbuf off = v.setWidth 8 ∧ ∀ a, a ≠ off → memRead t.pwbuf a = memRead s.pwbuf a) ∧
    (off < Config.cfg.dbufMax → s.input = .write .din .byte off v :: rest →
      ∃ t, step s = .next t ∧ t = { s with input := rest, din := t.din } ∧
        memRead t.din off = v.setWidth 8 ∧ ∀ a, a ≠ off → memRead t.din a = memRead s.din a) ∧
    (s.input = .write .pix .byte off v :: rest →
      ∃ t, step s = .next t ∧ t = { s with input := rest, pix := t.pix } ∧
        memRead t.pix off = v.setWidth 8 ∧ ∀ a, a ≠ off → memRead t.pix a = memRead s.pix a) ∧
    (off < Config.cfg.pwMax → s.input = .read .pwbuf w off :: rest →
      step s = .next { s with input := rest, rdata := 0 }) ∧
    (off < Config.cfg.dbufMax → s.input = .read .din .byte off :: rest →
      step s = .next { s with input := rest, rdata := (memRead s.din off).setWidth 32 }) ∧
    (off < Config.cfg.dbufMax → s.input = .read .dout .byte off :: rest →
      step s = .next { s with input := rest, rdata := (memRead s.dout off).setWidth 32 }) ∧
    (off < Config.cfg.aoutMax → s.input = .read .aout .word (4 * off) :: rest →
      step s = .next { s with input := rest, rdata := memRead s.aout off }) ∧
    (s.input = .read .pix .byte off :: rest →
      step s = .next { s with input := rest, rdata := (memRead s.pix off).setWidth 32 })

/-- R36: a reserved register offset reads 0 and ignores a write, without setting `WRIGN`, while the block is
idle; offsets from 0x100 on are outside the register space. -/
def Obligations.ReservedOffsetsReadZeroAndIgnoreWrites : Prop :=
  ∀ (s : State) (off : Nat) (v : Word) (rest : List HostEvent), s.busy = false →
    ((0x0B0 ≤ off ∧ off ≤ 0x0BC ∨ 0x0F0 ≤ off ∧ off ≤ 0x0FC) → off % 4 = 0 →
      (s.input = .write .reg .word off v :: rest → step s = .next { s with input := rest }) ∧
      (s.input = .read .reg .word off :: rest → step s = .next { s with input := rest, rdata := 0 })) ∧
    (0x100 ≤ off → inSpace Config.cfg .reg off = false)

/-- R35: the offset of every register, written out. The register at a register's offset is that register, the offsets are
word-aligned and inside the space, and a read there returns the register: of an idle block, of a block that builds its
tables (R41; that R41 goes before R71 then is the model's reading, notes/assumptions/12.md), and of `ID`, `STATUS` and
`CTRL` at any time (R71). -/
def Obligations.RegisterMapFindsEveryRegister : Prop :=
  (∀ r : Reg, regOfIndex (regOffset r / 4) = r ∧ regOffset r % 4 = 0 ∧ regOffset r < 0x100) ∧
  (∀ r : Reg, r ≠ .reserved → regOffset r =
    match r with
    | .id => 0x000
    | .cmd => 0x004
    | .status => 0x008
    | .err => 0x00C
    | .errInfo0 => 0x010
    | .errInfo1 => 0x014
    | .ctrl => 0x018
    | .pwLen => 0x01C
    | .arg0 => 0x020
    | .arg1 => 0x024
    | .res0 => 0x028
    | .res1 => 0x02C
    | .seed j => 0x030 + 4 * j.val
    | .scAvail => 0x040
    | .scTotal => 0x044
    | .scUsed => 0x048
    | .scPos => 0x04C
    | .scRq k => 0x050 + 4 * k.val
    | .scLive k => 0x060 + 4 * k.val
    | .scBase k => 0x070 + 4 * k.val
    | .keyP j => 0x080 + 4 * j.val
    | .ivP j => 0x0A0 + 4 * j.val
    | .keyH j => 0x0C0 + 4 * j.val
    | .ivH j => 0x0E0 + 4 * j.val
    | .reserved => 0) ∧
  (∀ (s : State) (r : Reg) (rest : List HostEvent),
    (s.busy = false ∨ s.tblReady = false ∨ r ∈ [Reg.id, Reg.status, Reg.ctrl]) →
    s.input = .read .reg .word (regOffset r) :: rest →
    step s = .next { s with input := rest, rdata := readReg s r }) ∧
  (∀ s : State,
    readReg s .id = 0x494D4331 ∧ readReg s .cmd = s.cmd ∧ readReg s .status = statusWord s ∧
    readReg s .err = s.err.setWidth 32 ∧ readReg s .errInfo0 = s.errInfo0 ∧ readReg s .errInfo1 = s.errInfo1 ∧
    readReg s .ctrl = (if s.ie then 1 else 0) ∧ readReg s .pwLen = s.pwLen.setWidth 32 ∧
    readReg s .arg0 = s.arg0 ∧ readReg s .arg1 = s.arg1 ∧ readReg s .res0 = s.res0 ∧ readReg s .res1 = s.res1 ∧
    readReg s .scAvail = s.sc.avail ∧ readReg s .scTotal = s.sc.total ∧
    readReg s .scUsed = s.sc.used ∧ readReg s .scPos = s.sc.pos ∧
    (∀ j : Fin 4, readReg s (.seed j) = s.seed[j] ∧ readReg s (.scRq j) = s.sc.rq[j] ∧
      readReg s (.scLive j) = s.sc.live[j] ∧ readReg s (.scBase j) = s.sc.base[j] ∧
      readReg s (.ivP j) = s.ivP[j] ∧ readReg s (.ivH j) = s.ivH[j]) ∧
    (∀ j : Fin 8, readReg s (.keyP j) = s.keyP[j] ∧ readReg s (.keyH j) = s.keyH[j]))

/-- R26: each bit of `STATUS`. -/
def Obligations.StatusWordShowsTheFlags : Prop :=
  ∀ s : State,
    (statusWord s).getLsbD 0 = s.busy ∧ (statusWord s).getLsbD 1 = s.tblReady ∧
    (statusWord s).getLsbD 2 = s.done ∧ (statusWord s).getLsbD 3 = decide (s.err ≠ 0) ∧
    (statusWord s).getLsbD 4 = s.sc.valid ∧ (statusWord s).getLsbD 5 = decide (s.sc.mode = .shaped) ∧
    (statusWord s).getLsbD 6 = s.sc.fault ∧ (statusWord s).getLsbD 7 = s.kpValid ∧
    (statusWord s).getLsbD 8 = s.khValid ∧ (statusWord s).getLsbD 9 = s.wrign ∧
    ∀ n, 10 ≤ n → (statusWord s).getLsbD n = false

/-! ## Reset -/

/-- R41, R320: the first step after reset builds the tables; every register then reads as R41 says. The model's
form of `HASH` = 0 is 32 zero bytes (notes/assumptions/14.md). -/
def Obligations.ResetThenBuildLeavesTheSpecValues : Prop :=
  ∃ t, step State.reset = .next t ∧
    (∀ r : Reg, readReg t r =
      match r with
      | .id => 0x494D4331
      | .status => 0x00000002
      | _ => 0) ∧
    t.sc.prng = { a := 0, b := 0, c := 0, d := 0 } ∧ t.sc.laIdx = laLen ∧
    t.hash = List.replicate 32 0 ∧ t.round = 0 ∧ (∀ a, memRead t.pwbuf a = 0) ∧ irq t = false

/-- R320, R321: hardware reset, from any state: every register at its reset value with `STATUS` = 1, `PWBUF` zero,
`PIX` kept, and the unspecified memories at whatever the reset left in them. That the contents come with the event,
filled with zeros, is the model's choice (notes/assumptions/13.md). -/
def Obligations.HardwareResetFromAnyState : Prop :=
  ∀ (s : State) (r : Residue) (rest : List HostEvent), s.input = .hwReset r :: rest →
    ∃ t, step s = .next t ∧
      (∀ q : Reg, readReg t q =
        match q with
        | .id => 0x494D4331
        | .status => 0x00000001
        | _ => 0) ∧
      t.input = rest ∧ t.pix = s.pix ∧ (∀ a, memRead t.pwbuf a = 0) ∧
      t.sc.prng = { a := 0, b := 0, c := 0, d := 0 } ∧ t.sc.laIdx = laLen ∧
      (∀ a < Config.cfg.dbufMax, memRead t.din a = r.din.getD a 0 ∧ memRead t.dout a = r.dout.getD a 0) ∧
      (∀ a < Config.cfg.aoutMax, memRead t.aout a = r.aout.getD a 0)

/-- Invariants 1 to 3 hold right after reset. The empty memories and the idle form of `HASH` are the model's choice
(notes/assumptions/3.md, 14.md). -/
def Obligations.ResetMeetsTheInvariants : Prop :=
  MemoriesCanonical State.reset ∧ RegistersConsistent State.reset ∧
    SessionSound State.reset.sc ∧ PoolFits State.reset.sc

/-! ## Invariants that every step keeps -/

/-- Invariant 1: every memory space keeps its canonical form, which is the model's choice (notes/assumptions/3.md), and
its bounds. -/
def Obligations.StepKeepsMemoriesCanonical : Prop :=
  ∀ s t : State, MemoriesCanonical s → step s = .next t → MemoriesCanonical t

/-- Invariant 2: the registers stay consistent with one another, the tables as built, the error codes legal.
The idle form of `HASH` is the model's choice (notes/assumptions/14.md). -/
def Obligations.StepKeepsRegistersConsistent : Prop :=
  ∀ s t : State, RegistersConsistent s → step s = .next t → RegistersConsistent t

/-- Invariant 3: the session's books stay balanced, no address can be issued twice, and the session keeps fitting
the pool. -/
def Obligations.StepKeepsTheSessionSound : Prop :=
  ∀ s t : State, SessionSound s.sc → step s = .next t →
    SessionSound t.sc ∧ (PoolFits s.sc → PoolFits t.sc)
end

