-- ==== Sys2Proof/Laws/Memory.lean ====
section
/-! SUPPORT. The laws of a memory space: a read after a write, and the canonical form, which every write
keeps. -/

namespace Sys2Proof.Laws

open Sys2Proof.Machine

variable {w : Nat}

@[simp] theorem memRead_nil (a : Nat) : memRead ([] : Mem w) a = 0 := rfl

/-- A space reads as its last part where its first part lists no such address. -/
theorem memRead_append (m n : Mem w) (a : Nat) :
    memRead (m ++ n) a = if ∃ c ∈ m, c.1 = a then memRead m a else memRead n a := by
  induction m with
  | nil => simp
  | cons c m ih =>
    obtain ⟨x, v⟩ := c
    by_cases hx : x = a
    · simp [memRead, hx]
    · simp [memRead, hx, ih]

/-- Filtering out other addresses does not change what an address reads as. -/
theorem memRead_filter (m : Mem w) (p : Nat → Bool) (a : Nat) (h : p a = true) :
    memRead (m.filter fun c => p c.1) a = memRead m a := by
  induction m with
  | nil => rfl
  | cons c m ih =>
    obtain ⟨x, v⟩ := c
    by_cases hx : x = a
    · subst hx; simp [h, memRead]
    · by_cases hp : p x = true
      · simp [hp, memRead, hx, ih]
      · simp [hp, memRead, hx, ih]

theorem mem_memCells {a : Nat} {vs : List (BitVec w)} {c : Nat × BitVec w} (h : c ∈ memCells a vs) :
    a ≤ c.1 ∧ c.1 < a + vs.length ∧ c.2 ≠ unlisted w := by
  induction vs generalizing a with
  | nil => simp [memCells] at h
  | cons v vs ih =>
    by_cases hv : v = unlisted w
    · have := ih (a := a + 1) (by simpa [memCells, hv] using h)
      simp only [List.length_cons]
      exact ⟨by omega, by omega, this.2.2⟩
    · simp only [memCells, hv, if_false, List.mem_cons] at h
      rcases h with rfl | h
      · simp [hv]
      · have := ih h
        simp only [List.length_cons]
        exact ⟨by omega, by omega, this.2.2⟩

theorem memRead_memCells (a : Nat) (vs : List (BitVec w)) (i : Nat) (hi : i < vs.length) :
    memRead (memCells a vs) (a + i) = vs[i] := by
  induction vs generalizing a i with
  | nil => simp at hi
  | cons v vs ih =>
    cases i with
    | zero =>
      by_cases hv : v = unlisted w
      · have hno : ¬∃ c ∈ memCells (a + 1) vs, c.1 = a := by
          rintro ⟨c, hc, rfl⟩
          have := mem_memCells hc
          omega
        have hread : ∀ m : Mem w, (¬∃ c ∈ m, c.1 = a) → memRead m a = unlisted w := by
          intro m hm
          induction m with
          | nil => rfl
          | cons c m ihm =>
            obtain ⟨x, u⟩ := c
            have hx : x ≠ a := fun he => hm ⟨(x, u), by simp, he⟩
            simp only [memRead, hx, if_false]
            exact ihm fun ⟨c, hc, he⟩ => hm ⟨c, by simp [hc], he⟩
        simp [memCells, hv, hread _ hno]
      · simp [memCells, hv, memRead]
    | succ i =>
      have hi' : i < vs.length := by simpa using hi
      have := ih (a + 1) i hi'
      rw [show a + 1 + i = a + (i + 1) by omega] at this
      by_cases hv : v = unlisted w
      · simp [memCells, hv, this]
      · simp [memCells, hv, memRead, this]

theorem memRead_eq_unlisted {m : Mem w} {a : Nat} (h : ∀ c ∈ m, c.1 ≠ a) : memRead m a = unlisted w := by
  induction m with
  | nil => rfl
  | cons c m ih =>
    obtain ⟨x, v⟩ := c
    have hx : x ≠ a := h (x, v) (by simp)
    simp only [memRead, hx, if_false]
    exact ih fun c hc => h c (by simp [hc])

/-- A read after a write: inside the written run it gives the unit written, outside what was there. -/
theorem memRead_memWriteList (m : Mem w) (a : Nat) (vs : List (BitVec w)) (x : Nat) :
    memRead (memWriteList m a vs) x
      = if h : a ≤ x ∧ x < a + vs.length then vs[x - a]'(by omega) else memRead m x := by
  unfold memWriteList
  rw [memRead_append, memRead_append]
  by_cases hlo : x < a
  · have hin : ¬(a ≤ x ∧ x < a + vs.length) := by omega
    simp only [hin, dif_neg, not_false_iff]
    have hf : memRead (m.filter fun c => c.1 < a) x = memRead m x :=
      memRead_filter m (fun y => decide (y < a)) x (by simp [hlo])
    by_cases hex : ∃ c ∈ m.filter (fun c => decide (c.1 < a)), c.1 = x
    · have : ∃ c ∈ m.filter (fun c => decide (c.1 < a)) ++ memCells a vs, c.1 = x := by
        obtain ⟨c, hc, he⟩ := hex
        exact ⟨c, by simp [hc], he⟩
      rw [if_pos this, if_pos hex, hf]
    · have hnone : ¬∃ c ∈ m.filter (fun c => decide (c.1 < a)) ++ memCells a vs, c.1 = x := by
        rintro ⟨c, hc, rfl⟩
        rcases List.mem_append.mp hc with hc | hc
        · exact hex ⟨c, hc, rfl⟩
        · have := mem_memCells hc
          omega
      rw [if_neg hnone, memRead_eq_unlisted]
      · rw [← hf, memRead_eq_unlisted fun c hc he => hex ⟨c, hc, he⟩]
      · intro c hc he
        simp only [List.mem_filter, decide_eq_true_eq] at hc
        omega
  · by_cases hhi : a + vs.length ≤ x
    · have hin : ¬(a ≤ x ∧ x < a + vs.length) := by omega
      simp only [hin, dif_neg, not_false_iff]
      have hnone : ¬∃ c ∈ m.filter (fun c => decide (c.1 < a)) ++ memCells a vs, c.1 = x := by
        rintro ⟨c, hc, rfl⟩
        rcases List.mem_append.mp hc with hc | hc
        · simp only [List.mem_filter, decide_eq_true_eq] at hc
          omega
        · have := mem_memCells hc
          omega
      rw [if_neg hnone]
      exact memRead_filter m (fun y => decide (a + vs.length ≤ y)) x (by simp [hhi])
    · have hin : a ≤ x ∧ x < a + vs.length := by omega
      rw [dif_pos hin]
      have hcell := memRead_memCells a vs (x - a) (by omega)
      rw [show a + (x - a) = x by omega] at hcell
      have hno : ¬∃ c ∈ m.filter (fun c => decide (c.1 < a)), c.1 = x := by
        rintro ⟨c, hc, rfl⟩
        simp only [List.mem_filter, decide_eq_true_eq] at hc
        omega
      by_cases hex : ∃ c ∈ m.filter (fun c => decide (c.1 < a)) ++ memCells a vs, c.1 = x
      · rw [if_pos hex, if_neg hno, hcell]
      · rw [if_neg hex, ← hcell, memRead_eq_unlisted, memRead_eq_unlisted]
        · intro c hc he
          exact hex ⟨c, by simp [hc], he⟩
        · intro c hc he
          simp only [List.mem_filter, decide_eq_true_eq] at hc
          omega

theorem memRead_memWrite (m : Mem w) (a : Nat) (v : BitVec w) (x : Nat) :
    memRead (memWrite m a v) x = if x = a then v else memRead m x := by
  rw [memWrite, memRead_memWriteList]
  by_cases h : x = a
  · subst h; simp
  · have : ¬(a ≤ x ∧ x < a + [v].length) := by simp; omega
    simp only [this, dif_neg, not_false_iff, h, if_false]

theorem memCells_wf (a : Nat) (vs : List (BitVec w)) : (memCells a vs).wf := by
  refine ⟨?_, fun c hc => (mem_memCells hc).2.2⟩
  induction vs generalizing a with
  | nil => simp [memCells]
  | cons v vs ih =>
    by_cases hv : v = unlisted w
    · simpa [memCells, hv] using ih (a + 1)
    · simp only [memCells, hv, if_false, List.pairwise_cons]
      exact ⟨fun c hc => (mem_memCells hc).1, ih (a + 1)⟩

/-- Every write keeps the canonical form. -/
theorem memWriteList_wf {m : Mem w} (h : m.wf) (a : Nat) (vs : List (BitVec w)) :
    (memWriteList m a vs).wf := by
  obtain ⟨hs, hn⟩ := h
  have hlo : ∀ c ∈ m.filter (fun c => decide (c.1 < a)), c ∈ m ∧ c.1 < a := by
    intro c hc
    simpa using hc
  have hhi : ∀ c ∈ m.filter (fun c => decide (a + vs.length ≤ c.1)), c ∈ m ∧ a + vs.length ≤ c.1 := by
    intro c hc
    simpa using hc
  constructor
  · unfold memWriteList
    rw [List.pairwise_append, List.pairwise_append]
    refine ⟨⟨hs.filter _, (memCells_wf a vs).1, ?_⟩, hs.filter _, ?_⟩
    · intro x hx y hy
      have := (hlo x hx).2
      have := (mem_memCells hy).1
      omega
    · intro x hx y hy
      have hy' := (hhi y hy).2
      rcases List.mem_append.mp hx with hx | hx
      · have := (hlo x hx).2
        omega
      · have := (mem_memCells hx).2.1
        omega
  · intro c hc
    unfold memWriteList at hc
    rcases List.mem_append.mp hc with hc | hc
    · rcases List.mem_append.mp hc with hc | hc
      · exact hn c (hlo c hc).1
      · exact (mem_memCells hc).2.2
    · exact hn c (hhi c hc).1

theorem memWrite_wf {m : Mem w} (h : m.wf) (a : Nat) (v : BitVec w) : (memWrite m a v).wf :=
  memWriteList_wf h a [v]

/-- A write inside a space of size `n` lists no address outside it. -/
theorem memWriteList_within {m : Mem w} {n : Nat} (h : m.within n) (a : Nat) (vs : List (BitVec w))
    (hle : a + vs.length ≤ n) : (memWriteList m a vs).within n := by
  intro c hc
  unfold memWriteList at hc
  rcases List.mem_append.mp hc with hc | hc
  · rcases List.mem_append.mp hc with hc | hc
    · exact h c (List.mem_filter.mp hc).1
    · have := mem_memCells hc
      omega
  · exact h c (List.mem_filter.mp hc).1

@[simp] theorem memReadList_length (m : Mem w) (a n : Nat) : (memReadList m a n).length = n := by
  simp [memReadList]

@[simp] theorem memReadList_getElem (m : Mem w) (a n i : Nat) (h : i < (memReadList m a n).length) :
    (memReadList m a n)[i] = memRead m (a + i) := by
  simp [memReadList]

/-- Two memories in canonical form that read the same are the same list. -/
theorem Mem.ext_of_wf {m n : Mem w} (hm : m.wf) (hn : n.wf) (h : ∀ a, memRead m a = memRead n a) :
    m = n := by
  have listed : ∀ {p : Mem w}, p.Pairwise (fun x y => x.1 < y.1) → ∀ c ∈ p, memRead p c.1 = c.2 := by
    intro p hp
    induction p with
    | nil => simp
    | cons d p ih =>
      obtain ⟨x, v⟩ := d
      rw [List.pairwise_cons] at hp
      intro c hc
      rcases List.mem_cons.mp hc with rfl | hc
      · simp [memRead]
      · have hlt : x < c.1 := hp.1 c hc
        have hne : x ≠ c.1 := by omega
        simp only [memRead, hne, if_false]
        exact ih hp.2 c hc
  induction m generalizing n with
  | nil =>
    cases n with
    | nil => rfl
    | cons d n =>
      have h1 := listed hn.1 d (by simp)
      have h2 := h d.1
      exact absurd (h1.symm.trans h2.symm) (hn.2 d (by simp))
  | cons c m ih =>
    cases n with
    | nil =>
      have h1 := listed hm.1 c (by simp)
      have h2 := h c.1
      exact absurd (h1.symm.trans h2) (hm.2 c (by simp))
    | cons d n =>
      have hcm := List.pairwise_cons.mp hm.1
      have hdn := List.pairwise_cons.mp hn.1
      have below : ∀ (p : Mem w) (e : Nat × BitVec w) (a : Nat), (∀ y ∈ p, e.1 < y.1) → a < e.1 →
          memRead (e :: p) a = unlisted w := by
        intro p e a hp ha
        apply memRead_eq_unlisted
        intro y hy
        rcases List.mem_cons.mp hy with rfl | hy
        · omega
        · have := hp y hy
          omega
      have hkey : c.1 = d.1 := by
        rcases Nat.lt_trichotomy c.1 d.1 with hlt | heq | hlt
        · have h1 := listed hm.1 c (by simp)
          have h2 := below n d c.1 hdn.1 hlt
          exact absurd (h1.symm.trans ((h c.1).trans h2)) (hm.2 c (by simp))
        · exact heq
        · have h1 := listed hn.1 d (by simp)
          have h2 := below m c d.1 hcm.1 hlt
          exact absurd (h1.symm.trans ((h d.1).symm.trans h2)) (hn.2 d (by simp))
      have hval : c.2 = d.2 := by
        have h1 := listed hm.1 c (by simp)
        have h2 := listed hn.1 d (by simp)
        rw [← h1, ← h2, h, hkey]
      have hcd : c = d := Prod.ext hkey hval
      subst hcd
      have hrest : ∀ a, memRead m a = memRead n a := by
        intro a
        by_cases ha : c.1 = a
        · have hm' : memRead m a = unlisted w :=
            memRead_eq_unlisted fun y hy he => by
              have := hcm.1 y hy
              omega
          have hn' : memRead n a = unlisted w :=
            memRead_eq_unlisted fun y hy he => by
              have := hdn.1 y hy
              omega
          rw [hm', hn']
        · have := h a
          obtain ⟨x, v⟩ := c
          simpa [memRead, ha] using this
      rw [ih ⟨hcm.2, fun y hy => hm.2 y (by simp [hy])⟩
        ⟨hdn.2, fun y hy => hn.2 y (by simp [hy])⟩ hrest]

end Sys2Proof.Laws
end

