-- ==== Sys2Proof/Laws/State.lean ====
section
/-! SUPPORT. One lemma for each field and each shared update of the state, true by unfolding, so that no later proof
unfolds a record update. -/

namespace Sys2Proof.Laws

open Sys2Proof.Machine

@[simp] theorem endCommand_input (s : State) : (endCommand s).input = s.input := rfl
@[simp] theorem endCommand_rdata (s : State) : (endCommand s).rdata = s.rdata := rfl
@[simp] theorem endCommand_freeCtr (s : State) : (endCommand s).freeCtr = s.freeCtr := rfl
@[simp] theorem endCommand_cmd (s : State) : (endCommand s).cmd = s.cmd := rfl
@[simp] theorem endCommand_busy (s : State) : (endCommand s).busy = false := rfl
@[simp] theorem endCommand_tblReady (s : State) : (endCommand s).tblReady = s.tblReady := rfl
@[simp] theorem endCommand_done (s : State) : (endCommand s).done = true := rfl
@[simp] theorem endCommand_wrign (s : State) : (endCommand s).wrign = s.wrign := rfl
@[simp] theorem endCommand_kpValid (s : State) : (endCommand s).kpValid = s.kpValid := rfl
@[simp] theorem endCommand_khValid (s : State) : (endCommand s).khValid = s.khValid := rfl
@[simp] theorem endCommand_err (s : State) : (endCommand s).err = s.err := rfl
@[simp] theorem endCommand_errInfo0 (s : State) : (endCommand s).errInfo0 = s.errInfo0 := rfl
@[simp] theorem endCommand_errInfo1 (s : State) : (endCommand s).errInfo1 = s.errInfo1 := rfl
@[simp] theorem endCommand_ie (s : State) : (endCommand s).ie = s.ie := rfl
@[simp] theorem endCommand_pwLen (s : State) : (endCommand s).pwLen = s.pwLen := rfl
@[simp] theorem endCommand_arg0 (s : State) : (endCommand s).arg0 = s.arg0 := rfl
@[simp] theorem endCommand_arg1 (s : State) : (endCommand s).arg1 = s.arg1 := rfl
@[simp] theorem endCommand_res0 (s : State) : (endCommand s).res0 = s.res0 := rfl
@[simp] theorem endCommand_res1 (s : State) : (endCommand s).res1 = s.res1 := rfl
@[simp] theorem endCommand_seed (s : State) : (endCommand s).seed = s.seed := rfl
@[simp] theorem endCommand_keyP (s : State) : (endCommand s).keyP = s.keyP := rfl
@[simp] theorem endCommand_ivP (s : State) : (endCommand s).ivP = s.ivP := rfl
@[simp] theorem endCommand_keyH (s : State) : (endCommand s).keyH = s.keyH := rfl
@[simp] theorem endCommand_ivH (s : State) : (endCommand s).ivH = s.ivH := rfl
@[simp] theorem endCommand_hash (s : State) : (endCommand s).hash = s.hash := rfl
@[simp] theorem endCommand_round (s : State) : (endCommand s).round = s.round := rfl
@[simp] theorem endCommand_sc (s : State) : (endCommand s).sc = s.sc := rfl
@[simp] theorem endCommand_enc (s : State) : (endCommand s).enc = s.enc := rfl
@[simp] theorem endCommand_syn (s : State) : (endCommand s).syn = s.syn := rfl
@[simp] theorem endCommand_cor (s : State) : (endCommand s).cor = s.cor := rfl
@[simp] theorem endCommand_loops (s : State) : (endCommand s).loops = s.loops := rfl
@[simp] theorem endCommand_pwbuf (s : State) : (endCommand s).pwbuf = s.pwbuf := rfl
@[simp] theorem endCommand_din (s : State) : (endCommand s).din = s.din := rfl
@[simp] theorem endCommand_dout (s : State) : (endCommand s).dout = s.dout := rfl
@[simp] theorem endCommand_aout (s : State) : (endCommand s).aout = s.aout := rfl
@[simp] theorem endCommand_pix (s : State) : (endCommand s).pix = s.pix := rfl

@[simp] theorem raise_input (e : CmdError) (i0 i1 : Word) (s : State) :
    (raise e i0 i1 s).input = s.input := rfl
@[simp] theorem raise_rdata (e : CmdError) (i0 i1 : Word) (s : State) :
    (raise e i0 i1 s).rdata = s.rdata := rfl
@[simp] theorem raise_freeCtr (e : CmdError) (i0 i1 : Word) (s : State) :
    (raise e i0 i1 s).freeCtr = s.freeCtr := rfl
@[simp] theorem raise_cmd (e : CmdError) (i0 i1 : Word) (s : State) :
    (raise e i0 i1 s).cmd = s.cmd := rfl
@[simp] theorem raise_busy (e : CmdError) (i0 i1 : Word) (s : State) :
    (raise e i0 i1 s).busy = false := rfl
@[simp] theorem raise_tblReady (e : CmdError) (i0 i1 : Word) (s : State) :
    (raise e i0 i1 s).tblReady = s.tblReady := rfl
@[simp] theorem raise_done (e : CmdError) (i0 i1 : Word) (s : State) :
    (raise e i0 i1 s).done = true := rfl
@[simp] theorem raise_wrign (e : CmdError) (i0 i1 : Word) (s : State) :
    (raise e i0 i1 s).wrign = s.wrign := rfl
@[simp] theorem raise_kpValid (e : CmdError) (i0 i1 : Word) (s : State) :
    (raise e i0 i1 s).kpValid = s.kpValid := rfl
@[simp] theorem raise_khValid (e : CmdError) (i0 i1 : Word) (s : State) :
    (raise e i0 i1 s).khValid = s.khValid := rfl
@[simp] theorem raise_err (e : CmdError) (i0 i1 : Word) (s : State) :
    (raise e i0 i1 s).err = errCode e := rfl
@[simp] theorem raise_errInfo0 (e : CmdError) (i0 i1 : Word) (s : State) :
    (raise e i0 i1 s).errInfo0 = i0 := rfl
@[simp] theorem raise_errInfo1 (e : CmdError) (i0 i1 : Word) (s : State) :
    (raise e i0 i1 s).errInfo1 = i1 := rfl
@[simp] theorem raise_ie (e : CmdError) (i0 i1 : Word) (s : State) :
    (raise e i0 i1 s).ie = s.ie := rfl
@[simp] theorem raise_pwLen (e : CmdError) (i0 i1 : Word) (s : State) :
    (raise e i0 i1 s).pwLen = s.pwLen := rfl
@[simp] theorem raise_arg0 (e : CmdError) (i0 i1 : Word) (s : State) :
    (raise e i0 i1 s).arg0 = s.arg0 := rfl
@[simp] theorem raise_arg1 (e : CmdError) (i0 i1 : Word) (s : State) :
    (raise e i0 i1 s).arg1 = s.arg1 := rfl
@[simp] theorem raise_res0 (e : CmdError) (i0 i1 : Word) (s : State) :
    (raise e i0 i1 s).res0 = s.res0 := rfl
@[simp] theorem raise_res1 (e : CmdError) (i0 i1 : Word) (s : State) :
    (raise e i0 i1 s).res1 = s.res1 := rfl
@[simp] theorem raise_seed (e : CmdError) (i0 i1 : Word) (s : State) :
    (raise e i0 i1 s).seed = s.seed := rfl
@[simp] theorem raise_keyP (e : CmdError) (i0 i1 : Word) (s : State) :
    (raise e i0 i1 s).keyP = s.keyP := rfl
@[simp] theorem raise_ivP (e : CmdError) (i0 i1 : Word) (s : State) :
    (raise e i0 i1 s).ivP = s.ivP := rfl
@[simp] theorem raise_keyH (e : CmdError) (i0 i1 : Word) (s : State) :
    (raise e i0 i1 s).keyH = s.keyH := rfl
@[simp] theorem raise_ivH (e : CmdError) (i0 i1 : Word) (s : State) :
    (raise e i0 i1 s).ivH = s.ivH := rfl
@[simp] theorem raise_hash (e : CmdError) (i0 i1 : Word) (s : State) :
    (raise e i0 i1 s).hash = s.hash := rfl
@[simp] theorem raise_round (e : CmdError) (i0 i1 : Word) (s : State) :
    (raise e i0 i1 s).round = s.round := rfl
@[simp] theorem raise_sc (e : CmdError) (i0 i1 : Word) (s : State) :
    (raise e i0 i1 s).sc = { s.sc with fault := s.sc.fault || isFatal e } := rfl
@[simp] theorem raise_enc (e : CmdError) (i0 i1 : Word) (s : State) :
    (raise e i0 i1 s).enc = s.enc := rfl
@[simp] theorem raise_syn (e : CmdError) (i0 i1 : Word) (s : State) :
    (raise e i0 i1 s).syn = s.syn := rfl
@[simp] theorem raise_cor (e : CmdError) (i0 i1 : Word) (s : State) :
    (raise e i0 i1 s).cor = s.cor := rfl
@[simp] theorem raise_loops (e : CmdError) (i0 i1 : Word) (s : State) :
    (raise e i0 i1 s).loops = s.loops := rfl
@[simp] theorem raise_pwbuf (e : CmdError) (i0 i1 : Word) (s : State) :
    (raise e i0 i1 s).pwbuf = s.pwbuf := rfl
@[simp] theorem raise_din (e : CmdError) (i0 i1 : Word) (s : State) :
    (raise e i0 i1 s).din = s.din := rfl
@[simp] theorem raise_dout (e : CmdError) (i0 i1 : Word) (s : State) :
    (raise e i0 i1 s).dout = s.dout := rfl
@[simp] theorem raise_aout (e : CmdError) (i0 i1 : Word) (s : State) :
    (raise e i0 i1 s).aout = s.aout := rfl
@[simp] theorem raise_pix (e : CmdError) (i0 i1 : Word) (s : State) :
    (raise e i0 i1 s).pix = s.pix := rfl

@[simp] theorem acknowledge_input (s : State) : (acknowledge s).input = s.input := rfl
@[simp] theorem acknowledge_rdata (s : State) : (acknowledge s).rdata = s.rdata := rfl
@[simp] theorem acknowledge_freeCtr (s : State) : (acknowledge s).freeCtr = s.freeCtr := rfl
@[simp] theorem acknowledge_cmd (s : State) : (acknowledge s).cmd = s.cmd := rfl
@[simp] theorem acknowledge_busy (s : State) : (acknowledge s).busy = s.busy := rfl
@[simp] theorem acknowledge_tblReady (s : State) : (acknowledge s).tblReady = s.tblReady := rfl
@[simp] theorem acknowledge_done (s : State) : (acknowledge s).done = s.done := rfl
@[simp] theorem acknowledge_wrign (s : State) : (acknowledge s).wrign = s.wrign := rfl
@[simp] theorem acknowledge_kpValid (s : State) : (acknowledge s).kpValid = s.kpValid := rfl
@[simp] theorem acknowledge_khValid (s : State) : (acknowledge s).khValid = s.khValid := rfl
@[simp] theorem acknowledge_err (s : State) : (acknowledge s).err = 0 := rfl
@[simp] theorem acknowledge_errInfo0 (s : State) : (acknowledge s).errInfo0 = 0 := rfl
@[simp] theorem acknowledge_errInfo1 (s : State) : (acknowledge s).errInfo1 = 0 := rfl
@[simp] theorem acknowledge_ie (s : State) : (acknowledge s).ie = s.ie := rfl
@[simp] theorem acknowledge_pwLen (s : State) : (acknowledge s).pwLen = s.pwLen := rfl
@[simp] theorem acknowledge_arg0 (s : State) : (acknowledge s).arg0 = s.arg0 := rfl
@[simp] theorem acknowledge_arg1 (s : State) : (acknowledge s).arg1 = s.arg1 := rfl
@[simp] theorem acknowledge_res0 (s : State) : (acknowledge s).res0 = s.res0 := rfl
@[simp] theorem acknowledge_res1 (s : State) : (acknowledge s).res1 = s.res1 := rfl
@[simp] theorem acknowledge_seed (s : State) : (acknowledge s).seed = s.seed := rfl
@[simp] theorem acknowledge_keyP (s : State) : (acknowledge s).keyP = s.keyP := rfl
@[simp] theorem acknowledge_ivP (s : State) : (acknowledge s).ivP = s.ivP := rfl
@[simp] theorem acknowledge_keyH (s : State) : (acknowledge s).keyH = s.keyH := rfl
@[simp] theorem acknowledge_ivH (s : State) : (acknowledge s).ivH = s.ivH := rfl
@[simp] theorem acknowledge_hash (s : State) : (acknowledge s).hash = s.hash := rfl
@[simp] theorem acknowledge_round (s : State) : (acknowledge s).round = s.round := rfl
@[simp] theorem acknowledge_sc (s : State) : (acknowledge s).sc = s.sc := rfl
@[simp] theorem acknowledge_enc (s : State) : (acknowledge s).enc = s.enc := rfl
@[simp] theorem acknowledge_syn (s : State) : (acknowledge s).syn = s.syn := rfl
@[simp] theorem acknowledge_cor (s : State) : (acknowledge s).cor = s.cor := rfl
@[simp] theorem acknowledge_loops (s : State) : (acknowledge s).loops = s.loops := rfl
@[simp] theorem acknowledge_pwbuf (s : State) : (acknowledge s).pwbuf = s.pwbuf := rfl
@[simp] theorem acknowledge_din (s : State) : (acknowledge s).din = s.din := rfl
@[simp] theorem acknowledge_dout (s : State) : (acknowledge s).dout = s.dout := rfl
@[simp] theorem acknowledge_aout (s : State) : (acknowledge s).aout = s.aout := rfl
@[simp] theorem acknowledge_pix (s : State) : (acknowledge s).pix = s.pix := rfl

@[simp] theorem accept_input (c : Word) (s : State) : (accept c s).input = s.input := rfl
@[simp] theorem accept_rdata (c : Word) (s : State) : (accept c s).rdata = s.rdata := rfl
@[simp] theorem accept_freeCtr (c : Word) (s : State) : (accept c s).freeCtr = s.freeCtr := rfl
@[simp] theorem accept_cmd (c : Word) (s : State) : (accept c s).cmd = c := rfl
@[simp] theorem accept_busy (c : Word) (s : State) : (accept c s).busy = true := rfl
@[simp] theorem accept_tblReady (c : Word) (s : State) : (accept c s).tblReady = s.tblReady := rfl
@[simp] theorem accept_done (c : Word) (s : State) : (accept c s).done = false := rfl
@[simp] theorem accept_wrign (c : Word) (s : State) : (accept c s).wrign = s.wrign := rfl
@[simp] theorem accept_kpValid (c : Word) (s : State) : (accept c s).kpValid = s.kpValid := rfl
@[simp] theorem accept_khValid (c : Word) (s : State) : (accept c s).khValid = s.khValid := rfl
@[simp] theorem accept_err (c : Word) (s : State) : (accept c s).err = s.err := rfl
@[simp] theorem accept_errInfo0 (c : Word) (s : State) : (accept c s).errInfo0 = s.errInfo0 := rfl
@[simp] theorem accept_errInfo1 (c : Word) (s : State) : (accept c s).errInfo1 = s.errInfo1 := rfl
@[simp] theorem accept_ie (c : Word) (s : State) : (accept c s).ie = s.ie := rfl
@[simp] theorem accept_pwLen (c : Word) (s : State) : (accept c s).pwLen = s.pwLen := rfl
@[simp] theorem accept_arg0 (c : Word) (s : State) : (accept c s).arg0 = s.arg0 := rfl
@[simp] theorem accept_arg1 (c : Word) (s : State) : (accept c s).arg1 = s.arg1 := rfl
@[simp] theorem accept_res0 (c : Word) (s : State) : (accept c s).res0 = s.res0 := rfl
@[simp] theorem accept_res1 (c : Word) (s : State) : (accept c s).res1 = s.res1 := rfl
@[simp] theorem accept_seed (c : Word) (s : State) : (accept c s).seed = s.seed := rfl
@[simp] theorem accept_keyP (c : Word) (s : State) : (accept c s).keyP = s.keyP := rfl
@[simp] theorem accept_ivP (c : Word) (s : State) : (accept c s).ivP = s.ivP := rfl
@[simp] theorem accept_keyH (c : Word) (s : State) : (accept c s).keyH = s.keyH := rfl
@[simp] theorem accept_ivH (c : Word) (s : State) : (accept c s).ivH = s.ivH := rfl
@[simp] theorem accept_hash (c : Word) (s : State) : (accept c s).hash = s.hash := rfl
@[simp] theorem accept_round (c : Word) (s : State) : (accept c s).round = s.round := rfl
@[simp] theorem accept_sc (c : Word) (s : State) : (accept c s).sc = s.sc := rfl
@[simp] theorem accept_enc (c : Word) (s : State) : (accept c s).enc = s.enc := rfl
@[simp] theorem accept_syn (c : Word) (s : State) : (accept c s).syn = s.syn := rfl
@[simp] theorem accept_cor (c : Word) (s : State) : (accept c s).cor = s.cor := rfl
@[simp] theorem accept_loops (c : Word) (s : State) : (accept c s).loops = s.loops := rfl
@[simp] theorem accept_pwbuf (c : Word) (s : State) : (accept c s).pwbuf = s.pwbuf := rfl
@[simp] theorem accept_din (c : Word) (s : State) : (accept c s).din = s.din := rfl
@[simp] theorem accept_dout (c : Word) (s : State) : (accept c s).dout = s.dout := rfl
@[simp] theorem accept_aout (c : Word) (s : State) : (accept c s).aout = s.aout := rfl
@[simp] theorem accept_pix (c : Word) (s : State) : (accept c s).pix = s.pix := rfl

@[simp] theorem buildTables_input (c : Cfg) (s : State) : (buildTables c s).input = s.input := rfl
@[simp] theorem buildTables_rdata (c : Cfg) (s : State) : (buildTables c s).rdata = s.rdata := rfl
@[simp] theorem buildTables_freeCtr (c : Cfg) (s : State) :
    (buildTables c s).freeCtr = s.freeCtr := rfl
@[simp] theorem buildTables_cmd (c : Cfg) (s : State) : (buildTables c s).cmd = s.cmd := rfl
@[simp] theorem buildTables_busy (c : Cfg) (s : State) : (buildTables c s).busy = false := rfl
@[simp] theorem buildTables_tblReady (c : Cfg) (s : State) :
    (buildTables c s).tblReady = true := rfl
@[simp] theorem buildTables_done (c : Cfg) (s : State) : (buildTables c s).done = s.done := rfl
@[simp] theorem buildTables_wrign (c : Cfg) (s : State) : (buildTables c s).wrign = s.wrign := rfl
@[simp] theorem buildTables_kpValid (c : Cfg) (s : State) :
    (buildTables c s).kpValid = s.kpValid := rfl
@[simp] theorem buildTables_khValid (c : Cfg) (s : State) :
    (buildTables c s).khValid = s.khValid := rfl
@[simp] theorem buildTables_err (c : Cfg) (s : State) : (buildTables c s).err = s.err := rfl
@[simp] theorem buildTables_errInfo0 (c : Cfg) (s : State) :
    (buildTables c s).errInfo0 = s.errInfo0 := rfl
@[simp] theorem buildTables_errInfo1 (c : Cfg) (s : State) :
    (buildTables c s).errInfo1 = s.errInfo1 := rfl
@[simp] theorem buildTables_ie (c : Cfg) (s : State) : (buildTables c s).ie = s.ie := rfl
@[simp] theorem buildTables_pwLen (c : Cfg) (s : State) : (buildTables c s).pwLen = s.pwLen := rfl
@[simp] theorem buildTables_arg0 (c : Cfg) (s : State) : (buildTables c s).arg0 = s.arg0 := rfl
@[simp] theorem buildTables_arg1 (c : Cfg) (s : State) : (buildTables c s).arg1 = s.arg1 := rfl
@[simp] theorem buildTables_res0 (c : Cfg) (s : State) : (buildTables c s).res0 = s.res0 := rfl
@[simp] theorem buildTables_res1 (c : Cfg) (s : State) : (buildTables c s).res1 = s.res1 := rfl
@[simp] theorem buildTables_seed (c : Cfg) (s : State) : (buildTables c s).seed = s.seed := rfl
@[simp] theorem buildTables_keyP (c : Cfg) (s : State) : (buildTables c s).keyP = s.keyP := rfl
@[simp] theorem buildTables_ivP (c : Cfg) (s : State) : (buildTables c s).ivP = s.ivP := rfl
@[simp] theorem buildTables_keyH (c : Cfg) (s : State) : (buildTables c s).keyH = s.keyH := rfl
@[simp] theorem buildTables_ivH (c : Cfg) (s : State) : (buildTables c s).ivH = s.ivH := rfl
@[simp] theorem buildTables_hash (c : Cfg) (s : State) : (buildTables c s).hash = s.hash := rfl
@[simp] theorem buildTables_round (c : Cfg) (s : State) : (buildTables c s).round = s.round := rfl
@[simp] theorem buildTables_sc (c : Cfg) (s : State) : (buildTables c s).sc = s.sc := rfl
@[simp] theorem buildTables_enc (c : Cfg) (s : State) :
    (buildTables c s).enc = foldTable c.gen := by
  simp only [buildTables]
@[simp] theorem buildTables_syn (c : Cfg) (s : State) :
    (buildTables c s).syn = foldTable c.chk := by
  simp only [buildTables]
@[simp] theorem buildTables_cor (c : Cfg) (s : State) :
    (buildTables c s).cor = corTable (foldTable c.chk) := by
  simp only [buildTables]
@[simp] theorem buildTables_loops (c : Cfg) (s : State) :
    (buildTables c s).loops = Loops.zero := rfl
@[simp] theorem buildTables_pwbuf (c : Cfg) (s : State) : (buildTables c s).pwbuf = s.pwbuf := rfl
@[simp] theorem buildTables_din (c : Cfg) (s : State) : (buildTables c s).din = s.din := rfl
@[simp] theorem buildTables_dout (c : Cfg) (s : State) : (buildTables c s).dout = s.dout := rfl
@[simp] theorem buildTables_aout (c : Cfg) (s : State) : (buildTables c s).aout = s.aout := rfl
@[simp] theorem buildTables_pix (c : Cfg) (s : State) : (buildTables c s).pix = s.pix := rfl

@[simp] theorem readReturns_input (v : Word) (s : State) : (readReturns v s).input = s.input := rfl
@[simp] theorem readReturns_rdata (v : Word) (s : State) : (readReturns v s).rdata = v := rfl
@[simp] theorem readReturns_freeCtr (v : Word) (s : State) :
    (readReturns v s).freeCtr = s.freeCtr := rfl
@[simp] theorem readReturns_cmd (v : Word) (s : State) : (readReturns v s).cmd = s.cmd := rfl
@[simp] theorem readReturns_busy (v : Word) (s : State) : (readReturns v s).busy = s.busy := rfl
@[simp] theorem readReturns_tblReady (v : Word) (s : State) :
    (readReturns v s).tblReady = s.tblReady := rfl
@[simp] theorem readReturns_done (v : Word) (s : State) : (readReturns v s).done = s.done := rfl
@[simp] theorem readReturns_wrign (v : Word) (s : State) : (readReturns v s).wrign = s.wrign := rfl
@[simp] theorem readReturns_kpValid (v : Word) (s : State) :
    (readReturns v s).kpValid = s.kpValid := rfl
@[simp] theorem readReturns_khValid (v : Word) (s : State) :
    (readReturns v s).khValid = s.khValid := rfl
@[simp] theorem readReturns_err (v : Word) (s : State) : (readReturns v s).err = s.err := rfl
@[simp] theorem readReturns_errInfo0 (v : Word) (s : State) :
    (readReturns v s).errInfo0 = s.errInfo0 := rfl
@[simp] theorem readReturns_errInfo1 (v : Word) (s : State) :
    (readReturns v s).errInfo1 = s.errInfo1 := rfl
@[simp] theorem readReturns_ie (v : Word) (s : State) : (readReturns v s).ie = s.ie := rfl
@[simp] theorem readReturns_pwLen (v : Word) (s : State) : (readReturns v s).pwLen = s.pwLen := rfl
@[simp] theorem readReturns_arg0 (v : Word) (s : State) : (readReturns v s).arg0 = s.arg0 := rfl
@[simp] theorem readReturns_arg1 (v : Word) (s : State) : (readReturns v s).arg1 = s.arg1 := rfl
@[simp] theorem readReturns_res0 (v : Word) (s : State) : (readReturns v s).res0 = s.res0 := rfl
@[simp] theorem readReturns_res1 (v : Word) (s : State) : (readReturns v s).res1 = s.res1 := rfl
@[simp] theorem readReturns_seed (v : Word) (s : State) : (readReturns v s).seed = s.seed := rfl
@[simp] theorem readReturns_keyP (v : Word) (s : State) : (readReturns v s).keyP = s.keyP := rfl
@[simp] theorem readReturns_ivP (v : Word) (s : State) : (readReturns v s).ivP = s.ivP := rfl
@[simp] theorem readReturns_keyH (v : Word) (s : State) : (readReturns v s).keyH = s.keyH := rfl
@[simp] theorem readReturns_ivH (v : Word) (s : State) : (readReturns v s).ivH = s.ivH := rfl
@[simp] theorem readReturns_hash (v : Word) (s : State) : (readReturns v s).hash = s.hash := rfl
@[simp] theorem readReturns_round (v : Word) (s : State) : (readReturns v s).round = s.round := rfl
@[simp] theorem readReturns_sc (v : Word) (s : State) : (readReturns v s).sc = s.sc := rfl
@[simp] theorem readReturns_enc (v : Word) (s : State) : (readReturns v s).enc = s.enc := rfl
@[simp] theorem readReturns_syn (v : Word) (s : State) : (readReturns v s).syn = s.syn := rfl
@[simp] theorem readReturns_cor (v : Word) (s : State) : (readReturns v s).cor = s.cor := rfl
@[simp] theorem readReturns_loops (v : Word) (s : State) : (readReturns v s).loops = s.loops := rfl
@[simp] theorem readReturns_pwbuf (v : Word) (s : State) : (readReturns v s).pwbuf = s.pwbuf := rfl
@[simp] theorem readReturns_din (v : Word) (s : State) : (readReturns v s).din = s.din := rfl
@[simp] theorem readReturns_dout (v : Word) (s : State) : (readReturns v s).dout = s.dout := rfl
@[simp] theorem readReturns_aout (v : Word) (s : State) : (readReturns v s).aout = s.aout := rfl
@[simp] theorem readReturns_pix (v : Word) (s : State) : (readReturns v s).pix = s.pix := rfl

@[simp] theorem readUnspecified_input (w : Width) (s : State) :
    (readUnspecified w s).input = s.input := rfl
@[simp] theorem readUnspecified_rdata (w : Width) (s : State) :
    (readUnspecified w s).rdata = truncateTo w (Config.freeWord s.freeCtr) := rfl
@[simp] theorem readUnspecified_freeCtr (w : Width) (s : State) :
    (readUnspecified w s).freeCtr = s.freeCtr + 1 := rfl
@[simp] theorem readUnspecified_cmd (w : Width) (s : State) :
    (readUnspecified w s).cmd = s.cmd := rfl
@[simp] theorem readUnspecified_busy (w : Width) (s : State) :
    (readUnspecified w s).busy = s.busy := rfl
@[simp] theorem readUnspecified_tblReady (w : Width) (s : State) :
    (readUnspecified w s).tblReady = s.tblReady := rfl
@[simp] theorem readUnspecified_done (w : Width) (s : State) :
    (readUnspecified w s).done = s.done := rfl
@[simp] theorem readUnspecified_wrign (w : Width) (s : State) :
    (readUnspecified w s).wrign = s.wrign := rfl
@[simp] theorem readUnspecified_kpValid (w : Width) (s : State) :
    (readUnspecified w s).kpValid = s.kpValid := rfl
@[simp] theorem readUnspecified_khValid (w : Width) (s : State) :
    (readUnspecified w s).khValid = s.khValid := rfl
@[simp] theorem readUnspecified_err (w : Width) (s : State) :
    (readUnspecified w s).err = s.err := rfl
@[simp] theorem readUnspecified_errInfo0 (w : Width) (s : State) :
    (readUnspecified w s).errInfo0 = s.errInfo0 := rfl
@[simp] theorem readUnspecified_errInfo1 (w : Width) (s : State) :
    (readUnspecified w s).errInfo1 = s.errInfo1 := rfl
@[simp] theorem readUnspecified_ie (w : Width) (s : State) : (readUnspecified w s).ie = s.ie := rfl
@[simp] theorem readUnspecified_pwLen (w : Width) (s : State) :
    (readUnspecified w s).pwLen = s.pwLen := rfl
@[simp] theorem readUnspecified_arg0 (w : Width) (s : State) :
    (readUnspecified w s).arg0 = s.arg0 := rfl
@[simp] theorem readUnspecified_arg1 (w : Width) (s : State) :
    (readUnspecified w s).arg1 = s.arg1 := rfl
@[simp] theorem readUnspecified_res0 (w : Width) (s : State) :
    (readUnspecified w s).res0 = s.res0 := rfl
@[simp] theorem readUnspecified_res1 (w : Width) (s : State) :
    (readUnspecified w s).res1 = s.res1 := rfl
@[simp] theorem readUnspecified_seed (w : Width) (s : State) :
    (readUnspecified w s).seed = s.seed := rfl
@[simp] theorem readUnspecified_keyP (w : Width) (s : State) :
    (readUnspecified w s).keyP = s.keyP := rfl
@[simp] theorem readUnspecified_ivP (w : Width) (s : State) :
    (readUnspecified w s).ivP = s.ivP := rfl
@[simp] theorem readUnspecified_keyH (w : Width) (s : State) :
    (readUnspecified w s).keyH = s.keyH := rfl
@[simp] theorem readUnspecified_ivH (w : Width) (s : State) :
    (readUnspecified w s).ivH = s.ivH := rfl
@[simp] theorem readUnspecified_hash (w : Width) (s : State) :
    (readUnspecified w s).hash = s.hash := rfl
@[simp] theorem readUnspecified_round (w : Width) (s : State) :
    (readUnspecified w s).round = s.round := rfl
@[simp] theorem readUnspecified_sc (w : Width) (s : State) : (readUnspecified w s).sc = s.sc := rfl
@[simp] theorem readUnspecified_enc (w : Width) (s : State) :
    (readUnspecified w s).enc = s.enc := rfl
@[simp] theorem readUnspecified_syn (w : Width) (s : State) :
    (readUnspecified w s).syn = s.syn := rfl
@[simp] theorem readUnspecified_cor (w : Width) (s : State) :
    (readUnspecified w s).cor = s.cor := rfl
@[simp] theorem readUnspecified_loops (w : Width) (s : State) :
    (readUnspecified w s).loops = s.loops := rfl
@[simp] theorem readUnspecified_pwbuf (w : Width) (s : State) :
    (readUnspecified w s).pwbuf = s.pwbuf := rfl
@[simp] theorem readUnspecified_din (w : Width) (s : State) :
    (readUnspecified w s).din = s.din := rfl
@[simp] theorem readUnspecified_dout (w : Width) (s : State) :
    (readUnspecified w s).dout = s.dout := rfl
@[simp] theorem readUnspecified_aout (w : Width) (s : State) :
    (readUnspecified w s).aout = s.aout := rfl
@[simp] theorem readUnspecified_pix (w : Width) (s : State) :
    (readUnspecified w s).pix = s.pix := rfl

end Sys2Proof.Laws
end

