-- ==== Sys2Proof/Laws/Ops.lean ====
section
/-! SUPPORT. What the shared operations can do, said once: how a command ends, which error a check raises, what the
draws of a session change, and which agent a step moves. -/

namespace Sys2Proof.Laws

open Sys2Proof.Machine

/-- Every command answers a next state. -/
theorem exec_isNext (i : Instr) (s : State) : ∃ t, exec i s = .next t := by
  cases i <;> exact ⟨_, rfl⟩

/-- A checked command either ends with its effect or raises the check's error. -/
theorem enc12Command_cases (s : State) :
    (s.arg0.toNat ≤ 0xFFF ∧ enc12Command s =
      endCommand { s with res0 := (encode12 s.enc (s.arg0.setWidth 12)).setWidth 32 }) ∨
    (0xFFF < s.arg0.toNat ∧ enc12Command s = raise .operand s.arg0 0xFFF s) := by
  by_cases h : s.arg0.toNat ≤ 0xFFF
  · exact .inl ⟨h, by simp [enc12Command, inRange, h]⟩
  · exact .inr ⟨by omega, by simp [enc12Command, inRange, h]⟩

theorem dec24Command_cases (s : State) :
    (s.arg0.toNat ≤ 0xFFFFFF ∧ dec24Command s =
      endCommand { s with
        res0 := (decode24 s.syn s.cor (s.arg0.setWidth 24)).setWidth 32
        res1 := (syndrome s.syn (s.arg0.setWidth 24)).setWidth 32 }) ∨
    (0xFFFFFF < s.arg0.toNat ∧ dec24Command s = raise .operand s.arg0 0xFFFFFF s) := by
  by_cases h : s.arg0.toNat ≤ 0xFFFFFF
  · exact .inl ⟨h, by simp [dec24Command, inRange, h]⟩
  · exact .inr ⟨by omega, by simp [dec24Command, inRange, h]⟩

theorem eccLengthOk_iff (c : Cfg) (L : Nat) :
    eccLengthOk c L = true ↔ L ≤ c.dbufMax ∧ 3 * nsym L ≤ c.dbufMax := by
  simp [eccLengthOk]

theorem encbCommand_cases (c : Cfg) (s : State) :
    (eccLengthOk c s.arg0.toNat = true ∧ encbCommand c s =
      endCommand { s with
        dout := memWriteList s.dout 0 (encodeBytes s.enc (memReadList s.din 0 s.arg0.toNat))
        res0 := BitVec.ofNat 32 (3 * nsym s.arg0.toNat)
        res1 := BitVec.ofNat 32 (nsym s.arg0.toNat) }) ∨
    (eccLengthOk c s.arg0.toNat = false ∧
      encbCommand c s = raise .length s.arg0 (BitVec.ofNat 32 c.dbufMax) s) := by
  cases h : eccLengthOk c s.arg0.toNat <;> simp [encbCommand, h]

theorem decbCommand_cases (c : Cfg) (s : State) :
    (eccLengthOk c s.arg0.toNat = true ∧ decbCommand c s =
      endCommand { s with
        dout := memWriteList s.dout 0 (decodeBytes s.syn s.cor (decbInput s) s.arg0.toNat)
        res0 := s.arg0
        res1 := BitVec.ofNat 32 (fixedCount s.syn (decbInput s) s.arg0.toNat) }) ∨
    (eccLengthOk c s.arg0.toNat = false ∧
      decbCommand c s = raise .length s.arg0 (BitVec.ofNat 32 c.dbufMax) s) := by
  cases h : eccLengthOk c s.arg0.toNat <;> simp [decbCommand, h]

theorem deriveCommand_cases (c : Cfg) (m : Context) (s : State) :
    (s.pwLen.toNat ≤ c.pwMax ∧ deriveCommand c m s =
      endCommand (kdfRun c m (saltedPassword c m (passwordBytes s)) s)) ∨
    (c.pwMax < s.pwLen.toNat ∧ deriveCommand c m s =
      raise .length (s.pwLen.setWidth 32) (BitVec.ofNat 32 c.pwMax) s) := by
  by_cases h : s.pwLen.toNat ≤ c.pwMax
  · exact .inl ⟨h, by simp [deriveCommand, h]⟩
  · exact .inr ⟨by omega, by simp [deriveCommand, h]⟩

theorem initCommand_cases (c : Cfg) (s : State) :
    (s.arg0.toNat ≤ 0xFFFF ∧ s.arg1.toNat ≤ 0xFFFF ∧ pixelCount s ≤ c.pixMax ∧ initCommand c s =
      endCommand { s with
        sc := startSession c s.seed s.pix (pixelCount s) s.sc
        res0 := BitVec.ofNat 32 (12 * (scanPixels s.pix (pixelCount s)).length)
        res1 := BitVec.ofNat 32 (scanPixels s.pix (pixelCount s)).length }) ∨
    (s.arg0.toNat ≤ 0xFFFF ∧ s.arg1.toNat ≤ 0xFFFF ∧ c.pixMax < pixelCount s ∧ initCommand c s =
      raise .length (BitVec.ofNat 32 (pixelCount s)) (BitVec.ofNat 32 c.pixMax) s) ∨
    ((0xFFFF < s.arg0.toNat ∨ 0xFFFF < s.arg1.toNat) ∧ initCommand c s =
      raise .operand (maxWord s.arg0 s.arg1) 0xFFFF s) := by
  by_cases h0 : s.arg0.toNat ≤ 0xFFFF
  · by_cases h1 : s.arg1.toNat ≤ 0xFFFF
    · by_cases h2 : pixelCount s ≤ c.pixMax
      · exact .inl ⟨h0, h1, h2, by simp [initCommand, inRange, h0, h1, h2]⟩
      · exact .inr (.inl ⟨h0, h1, by omega, by simp [initCommand, inRange, h0, h1, h2]⟩)
    · exact .inr (.inr ⟨.inr (by omega), by simp [initCommand, inRange, h0, h1]⟩)
  · exact .inr (.inr ⟨.inl (by omega), by simp [initCommand, inRange, h0]⟩)

theorem sessionOk_iff (s : State) : sessionOk s = true ↔ s.sc.valid = true ∧ s.sc.fault = false := by
  simp [sessionOk]

theorem freeCommand_cases (m : Mode) (s : State) :
    (sessionOk s = true ∧ freeCommand m s =
      endCommand { s with res0 := BitVec.ofNat 32 (freeSpace s.sc m) }) ∨
    (sessionOk s = false ∧ freeCommand m s = raiseNoSession s) := by
  cases h : sessionOk s <;> simp [freeCommand, h]

/-- `SC.GEN`: the four checks in their order, then the effect (R212, R285). -/
theorem genCommand_cases (c : Cfg) (m : Mode) (s : State) :
    (sessionOk s = false ∧ genCommand c m s = raiseNoSession s) ∨
    (sessionOk s = true ∧ c.aoutMax < s.arg0.toNat ∧
      genCommand c m s = raise .length s.arg0 (BitVec.ofNat 32 c.aoutMax) s) ∨
    (sessionOk s = true ∧ s.arg0.toNat ≤ c.aoutMax ∧ regresses m s.sc = true ∧
      genCommand c m s = raise .regress 0 0 s) ∨
    (sessionOk s = true ∧ s.arg0.toNat ≤ c.aoutMax ∧ regresses m s.sc = false ∧
      freeSpace s.sc m < s.arg0.toNat ∧
      genCommand c m s = raise .capacity s.arg0 (BitVec.ofNat 32 (freeSpace s.sc m)) s) ∨
    (sessionOk s = true ∧ s.arg0.toNat ≤ c.aoutMax ∧ regresses m s.sc = false ∧
      s.arg0.toNat ≤ freeSpace s.sc m ∧ genCommand c m s = endCommand (issueSlots c m s)) := by
  cases h0 : sessionOk s
  · exact .inl ⟨rfl, by simp [genCommand, h0]⟩
  · by_cases h1 : s.arg0.toNat ≤ c.aoutMax
    · cases h2 : regresses m s.sc
      · by_cases h3 : s.arg0.toNat ≤ freeSpace s.sc m
        · exact .inr (.inr (.inr (.inr ⟨rfl, h1, rfl, h3, by simp [genCommand, h0, h1, h2, h3]⟩)))
        · exact .inr (.inr (.inr (.inl
            ⟨rfl, h1, rfl, by omega, by simp [genCommand, h0, h1, h2, h3]⟩)))
      · exact .inr (.inr (.inl ⟨rfl, h1, rfl, by simp [genCommand, h0, h1, h2]⟩))
    · exact .inr (.inl ⟨rfl, by omega, by simp [genCommand, h0, h1]⟩)

/-- `n` rounds of the KDF change `HASH` and `ROUND` alone (R164). -/
theorem kdfRunRounds_frame (c : Cfg) (sp : List Byte) (n : Nat) (s : State) :
    kdfRunRounds c sp n s =
      { s with hash := (kdfRunRounds c sp n s).hash, round := s.round + n } := by
  induction n generalizing s with
  | zero => rfl
  | succ n ih =>
    rw [kdfRunRounds, ih]
    simp only [kdfRound]
    rw [show s.round + 1 + n = s.round + (n + 1) by omega]

/-- A derivation changes the key registers, the seed and the KDF flags, and leaves `HASH` and `ROUND` idle
(R166). -/
theorem kdfRun_frame (c : Cfg) (m : Context) (sp : List Byte) (s : State) :
    ∃ kp iv kh ih a b sd, kdfRun c m sp s =
      { s with
        keyP := kp, ivP := iv, keyH := kh, ivH := ih, kpValid := a, khValid := b, seed := sd
        hash := List.replicate 32 0, round := 0 } := by
  simp only [kdfRun]
  rw [kdfRunRounds_frame]
  cases m <;> exact ⟨_, _, _, _, _, _, _, rfl⟩

/-! ### Draws -/

/-- A draw is either a Uniform or a Shaped one, after the switch if it is due (R212). -/
theorem drawSlot_cases (c : Cfg) (m : Mode) (x : Scatter) :
    (switchDue m x = true ∧ drawSlot c m x = shapedDraw c (switchToShaped x)) ∨
    (switchDue m x = false ∧ x.mode = .uniform ∧ drawSlot c m x = uniformDraw c x) ∨
    (switchDue m x = false ∧ x.mode = .shaped ∧ drawSlot c m x = shapedDraw c x) := by
  cases h : switchDue m x
  · cases hm : x.mode
    · exact .inr (.inl ⟨rfl, rfl, by simp [drawSlot, h, hm]⟩)
    · exact .inr (.inr ⟨rfl, rfl, by simp [drawSlot, h, hm]⟩)
  · exact .inl ⟨rfl, by simp [drawSlot, h, switchToShaped]⟩

theorem drawSlots_length (c : Cfg) (m : Mode) (n : Nat) (x : Scatter) :
    (drawSlots c m n x).2.length = n := by
  induction n generalizing x with
  | zero => rfl
  | succ n ih => simp [drawSlots, ih]

/-- Drawing `a + b` addresses is drawing `a` and then `b` (R209 d). -/
theorem drawSlots_add (c : Cfg) (m : Mode) (a b : Nat) (x : Scatter) :
    drawSlots c m (a + b) x =
      ((drawSlots c m b (drawSlots c m a x).1).1,
        (drawSlots c m a x).2 ++ (drawSlots c m b (drawSlots c m a x).1).2) := by
  induction a generalizing x with
  | zero => simp [drawSlots]
  | succ a ih =>
    rw [show a + 1 + b = (a + b) + 1 by omega]
    simp [drawSlots, ih]

theorem drawMany_length (c : Cfg) (n : Nat) (g : Prng) : (drawMany c n g).2.length = n := by
  induction n generalizing g with
  | zero => rfl
  | succ n ih => simp [drawMany, ih]

/-! ### The step -/

/-- Which agent a step moves: the host's event, or the block after a wait or with no input (R20). -/
theorem step_cases (s : State) :
    (s.input = [] ∧ step s = advance s) ∨
    ∃ e rest, s.input = e :: rest ∧ step s = hostEvent e { s with input := rest } := by
  cases h : s.input with
  | nil => exact .inl ⟨rfl, by simp [step, nextStep, h]⟩
  | cons e rest => exact .inr ⟨e, rest, rfl, by simp [step, nextStep, h]⟩

/-- What the block does when it may move (R110 a). -/
theorem advance_cases (s : State) :
    (s.busy = false ∧ advance s = .next s) ∨
    (s.busy = true ∧ s.tblReady = false ∧ advance s = .next (buildTables Config.cfg s)) ∨
    (s.busy = true ∧ s.tblReady = true ∧ ∃ i, decode s.cmd = .ok i ∧ advance s = exec i s) ∨
    (s.busy = true ∧ s.tblReady = true ∧ (∃ e, decode s.cmd = .error e) ∧
      advance s = .next (raise .illegal s.cmd 0 s)) := by
  cases hb : s.busy
  · exact .inl ⟨rfl, by simp [advance, hb]⟩
  · cases ht : s.tblReady
    · exact .inr (.inl ⟨rfl, rfl, by simp [advance, hb, ht]⟩)
    · cases hd : decode s.cmd with
      | ok i => exact .inr (.inr (.inl ⟨rfl, rfl, i, rfl, by simp [advance, hb, ht, runCommand, hd]⟩))
      | error e =>
        exact .inr (.inr (.inr ⟨rfl, rfl, ⟨e, rfl⟩, by simp [advance, hb, ht, runCommand, hd]⟩))

/-- What a host write behind the port can do (R66, R71, R72). -/
theorem portWrite_cases (c : Cfg) (sp : Space) (w : Width) (off : Nat) (v : Word) (s : State) :
    portWrite c sp w off v s = s ∨
    (s.busy = true ∧ portWrite c sp w off v s = { s with wrign := true }) ∨
    (s.busy = false ∧ inSpace c sp off = true ∧ properAccess sp w off = true ∧
      portWrite c sp w off v s = idleWrite sp off v s) := by
  unfold portWrite
  cases inSpace c sp off
  · exact .inl rfl
  · cases s.busy
    · cases properAccess sp w off
      · exact .inl rfl
      · exact .inr (.inr ⟨rfl, rfl, rfl, rfl⟩)
    · exact .inr (.inl ⟨rfl, rfl⟩)

/-- A host read changes the read data and the count of unspecified words alone. -/
theorem hostRead_frame (c : Cfg) (sp : Space) (w : Width) (off : Nat) (s : State) :
    ∃ v n, hostRead c sp w off s = { s with rdata := v, freeCtr := n } := by
  unfold hostRead
  split
  · split
    · exact ⟨_, s.freeCtr, rfl⟩
    · exact ⟨_, _, rfl⟩
  · exact ⟨_, s.freeCtr, rfl⟩

end Sys2Proof.Laws
end

