-- ==== Sys2Proof/Laws/PerInstr.lean ====
section
/-! SUPPORT. The family TableRow: the word of every command matches the command's row of
`spec/opcode_table.json` (R96), one lemma for each constructor. -/

namespace Sys2Proof.Laws

/-- The row's match word. -/
def rowMatch : Instr → Word
  | .nop => 0x00000000
  | .sreset => 0x01000000
  | .tblRdEnc _ => 0x08000000
  | .tblRdSyn _ => 0x08001000
  | .tblRdCor _ => 0x08002000
  | .eccEnc12 => 0x10000000
  | .eccDec24 => 0x11000000
  | .eccEncb => 0x12000000
  | .eccDecb => 0x13000000
  | .kdfDerive _ => 0x20000000
  | .kdfClear => 0x21000000
  | .scInit => 0x30000000
  | .scFree _ => 0x31000000
  | .scGen _ => 0x32000000
  | .scEnd => 0x33000000

/-- The row's mask. -/
def rowMask : Instr → Word
  | .nop => 0xFFFFFFFF
  | .sreset => 0xFFFFFFFF
  | .tblRdEnc _ => 0xFFFFF000
  | .tblRdSyn _ => 0xFFFFF000
  | .tblRdCor _ => 0xFFFFF000
  | .eccEnc12 => 0xFFFFFFFF
  | .eccDec24 => 0xFFFFFFFF
  | .eccEncb => 0xFFFFFFFF
  | .eccDecb => 0xFFFFFFFF
  | .kdfDerive _ => 0xFFFFFFFE
  | .kdfClear => 0xFFFFFFFF
  | .scInit => 0xFFFFFFFF
  | .scFree _ => 0xFFFFFFFE
  | .scGen _ => 0xFFFFFFFE
  | .scEnd => 0xFFFFFFFF

/-- R96: the command's word agrees with its row on the row's mask. -/
def TableRow.Statement (i : Instr) : Prop := encode i &&& rowMask i = rowMatch i

/-- A word of format T, but for its index, is the row's match word. -/
theorem encodeT_masked (sel : BitVec 2) (idx : Sym) :
    encodeT sel idx &&& 0xFFFFF000 = encodeT sel 0 := by
  have h : (0xFFFFF000 : Word) = 0xFFFFF#20 ++ 0#12 := by decide
  have hs : ∀ i : Sym, encodeT sel i = (0x08#8 ++ 0#10 ++ sel) ++ i := fun _ => rfl
  rw [h, hs, hs, BitVec.and_append, BitVec.and_zero]
  exact congrArg (· ++ 0#12) BitVec.and_allOnes

theorem TableRow.nop : TableRow.Statement .nop := by
  unfold TableRow.Statement; decide
theorem TableRow.sreset : TableRow.Statement .sreset := by
  unfold TableRow.Statement; decide
theorem TableRow.tblRdEnc (idx : Sym) : TableRow.Statement (.tblRdEnc idx) :=
  (encodeT_masked 0 idx).trans (show encodeT 0 0 = 0x08000000 by decide)
theorem TableRow.tblRdSyn (idx : Sym) : TableRow.Statement (.tblRdSyn idx) :=
  (encodeT_masked 1 idx).trans (show encodeT 1 0 = 0x08001000 by decide)
theorem TableRow.tblRdCor (idx : Sym) : TableRow.Statement (.tblRdCor idx) :=
  (encodeT_masked 2 idx).trans (show encodeT 2 0 = 0x08002000 by decide)
theorem TableRow.eccEnc12 : TableRow.Statement .eccEnc12 := by
  unfold TableRow.Statement; decide
theorem TableRow.eccDec24 : TableRow.Statement .eccDec24 := by
  unfold TableRow.Statement; decide
theorem TableRow.eccEncb : TableRow.Statement .eccEncb := by
  unfold TableRow.Statement; decide
theorem TableRow.eccDecb : TableRow.Statement .eccDecb := by
  unfold TableRow.Statement; decide
theorem TableRow.kdfDerive (m : Context) : TableRow.Statement (.kdfDerive m) := by
  cases m <;> (unfold TableRow.Statement; decide)
theorem TableRow.kdfClear : TableRow.Statement .kdfClear := by
  unfold TableRow.Statement; decide
theorem TableRow.scInit : TableRow.Statement .scInit := by
  unfold TableRow.Statement; decide
theorem TableRow.scFree (m : Mode) : TableRow.Statement (.scFree m) := by
  cases m <;> (unfold TableRow.Statement; decide)
theorem TableRow.scGen (m : Mode) : TableRow.Statement (.scGen m) := by
  cases m <;> (unfold TableRow.Statement; decide)
theorem TableRow.scEnd : TableRow.Statement .scEnd := by
  unfold TableRow.Statement; decide

end Sys2Proof.Laws
end

