-- ==== Sys2Proof/Laws/Scatter.lean ====
section
/-! SUPPORT. What the scatter unit's shared operations do to the pool and to a session's stock of addresses. -/

namespace Sys2Proof.Laws

open Sys2Proof.Machine Sys2Proof.Safety

/-! ### Lists: an entry replaced, an entry removed by the tail -/

/-- Replacing entry `i` by `v` trades that entry for `v`. -/
theorem cons_set_perm {α : Type} (l : List α) (i : Nat) (v : α) (h : i < l.length) :
    (l[i] :: l.set i v).Perm (v :: l) := by
  induction l generalizing i with
  | nil => simp at h
  | cons a l ih =>
    cases i with
    | zero => exact List.Perm.swap v a l
    | succ i =>
      simp only [List.length_cons, Nat.add_lt_add_iff_right] at h
      simp only [List.getElem_cons_succ, List.set_cons_succ]
      exact (List.Perm.swap a l[i] _).trans (((ih i h).cons a).trans (List.Perm.swap v a l))

/-- The draw of R198 and R208 on a list: the entry at `i` leaves, the last entry takes its place. -/
def swapRemove {α : Type} (l : List α) (i : Nat) (last : α) : List α := (l.set i last).dropLast

/-- Removing entry `i` so leaves the other entries, up to order. -/
theorem swapRemove_perm {α : Type} (l : List α) (i : Nat) (h : i < l.length) :
    (l[i] :: swapRemove l i (l[l.length - 1]'(by omega))).Perm l := by
  obtain ⟨init, last, rfl⟩ : ∃ init last, l = init ++ [last] := by
    rcases List.eq_nil_or_concat l with rfl | ⟨init, last, rfl⟩
    · simp at h
    · exact ⟨init, last, by simp⟩
  have hl : (init ++ [last])[(init ++ [last]).length - 1]'(by simp) = last := by simp
  rw [hl, swapRemove]
  by_cases hi : i < init.length
  · rw [List.set_append_left _ _ hi, List.dropLast_concat, List.getElem_append_left hi]
    exact (cons_set_perm init i last hi).trans (List.perm_append_singleton last init).symm
  · have he : i = init.length := by simp at h; omega
    subst he
    simp only [List.length_append, List.length_cons, List.length_nil] at h
    rw [List.set_append_right _ _ (Nat.le_refl _)]
    simp only [Nat.sub_self, List.set_cons_zero, List.dropLast_concat, List.getElem_concat_length]
    exact (List.perm_append_singleton last init).symm

/-- Reading `n - 1` units after the unit at `a + i` took the last one's value is the removal on lists. -/
theorem memReadList_swapRemove {w : Nat} (m : Mem w) (a n i : Nat) (h : i < n) :
    memReadList (memWrite m (a + i) (memRead m (a + n - 1))) a (n - 1)
      = swapRemove (memReadList m a n) i (memRead m (a + n - 1)) := by
  apply List.ext_getElem
  · simp [swapRemove]
  · intro j h1 h2
    simp only [memReadList_length] at h1
    simp only [swapRemove, memReadList_getElem, memRead_memWrite, List.getElem_dropLast, List.getElem_set]
    by_cases hj : j = i
    · subst hj; simp
    · have : i ≠ j := fun h => hj h.symm
      simp [hj, this]

/-- A run of units outside the written one is kept. -/
theorem memReadList_memWrite_other {w : Nat} (m : Mem w) (a n x : Nat) (v : BitVec w)
    (h : x < a ∨ a + n ≤ x) : memReadList (memWrite m x v) a n = memReadList m a n := by
  apply List.ext_getElem
  · simp
  · intro j h1 h2
    simp only [memReadList_length] at h1
    simp only [memReadList_getElem, memRead_memWrite]
    rw [if_neg (by omega)]

/-- The units just written, read back. -/
theorem memReadList_memWriteList {w : Nat} (m : Mem w) (a : Nat) (vs : List (BitVec w)) (i n : Nat)
    (h : i + n ≤ vs.length) : memReadList (memWriteList m a vs) (a + i) n = (vs.drop i).take n := by
  apply List.ext_getElem
  · simp; omega
  · intro j h1 h2
    simp only [memReadList_length] at h1
    simp only [memReadList_getElem, memRead_memWriteList, List.getElem_take, List.getElem_drop]
    rw [dif_pos (by omega)]
    congr 1
    omega

/-- Two runs that meet, read as one. -/
theorem memReadList_append {w : Nat} (m : Mem w) (a n k : Nat) :
    memReadList m a n ++ memReadList m (a + n) k = memReadList m a (n + k) := by
  apply List.ext_getElem
  · simp
  · intro j h1 h2
    simp only [List.getElem_append, memReadList_length, memReadList_getElem]
    split
    · rfl
    · congr 1; omega

/-! ### The sort by layer -/

theorem layerOf_lt (a : Word) : layerOf a < 4 := (a.extractLsb' 0 2).isLt

/-- The sorted list has the entries of the list (R203). -/
theorem sortByLayer_perm (ws : List Word) : (sortByLayer ws).Perm ws := by
  have h : ∀ (ks : List Nat) (ws : List Word), ks.Nodup → (∀ a ∈ ws, layerOf a ∈ ks) →
      (ks.flatMap (ofLayer ws)).Perm ws := by
    intro ks
    induction ks with
    | nil =>
      intro ws _ hall
      cases ws with
      | nil => exact .nil
      | cons a ws => exact absurd (hall a (by simp)) (by simp)
    | cons k ks ih =>
      intro ws hnd hall
      rw [List.flatMap_cons]
      have hrest : ks.flatMap (ofLayer ws) = ks.flatMap (ofLayer (ws.filter fun a => !(layerOf a == k))) := by
        apply List.flatMap_congr
        intro j hj
        have hjk : j ≠ k := fun h => (List.nodup_cons.mp hnd).1 (h ▸ hj)
        simp only [ofLayer, List.filter_filter]
        apply List.filter_congr
        intro a _
        by_cases h : layerOf a = j <;> simp [h, hjk]
      rw [hrest]
      refine ((ih _ (List.nodup_cons.mp hnd).2 ?_).append_left _).trans ?_
      · intro a ha
        simp only [List.mem_filter, Bool.not_eq_true', beq_eq_false_iff_ne] at ha
        exact (List.mem_cons.mp (hall a ha.1)).resolve_left ha.2
      · exact List.filter_append_perm _ ws
  exact h _ ws (by decide) fun a _ => List.mem_range.mpr (layerOf_lt a)

/-- The layers together are the whole list. -/
theorem layerCount_sum (ws : List Word) :
    layerCount ws 0 + layerCount ws 1 + layerCount ws 2 + layerCount ws 3 = ws.length := by
  have h := (sortByLayer_perm ws).length_eq
  rw [← h]
  simp [sortByLayer, layerCount, List.range_succ, Nat.add_assoc]

theorem layerCount_perm {ws vs : List Word} (h : ws.Perm vs) (k : Nat) : layerCount ws k = layerCount vs k :=
  (h.filter _).length_eq

/-! ### Buckets -/

/-- The bucket found has quota, if one of the four has any (R207). -/
theorem bucketWithQuota_ne_zero (rq : Vector Word 4) (k : Fin 4) (h : ∃ j : Fin 4, rq[j] ≠ 0) :
    rq[bucketWithQuota rq 4 k] ≠ 0 := by
  simp only [bucketWithQuota]
  split
  · rename_i h0
    split
    · rename_i h1
      split
      · rename_i h2
        split
        · rename_i h3
          exfalso
          obtain ⟨j, hj⟩ := h
          have hall : ∀ j k : Fin 4, j = k ∨ j = k + 1 ∨ j = k + 1 + 1 ∨ j = k + 1 + 1 + 1 := by decide
          rcases hall j k with rfl | rfl | rfl | rfl <;> exact hj (by assumption)
        · assumption
      · assumption
    · assumption
  · assumption

/-- The bucket found is the first from `k` on that has quota (R207). -/
theorem bucketWithQuota_eq (rq : Vector Word 4) (d : Nat) (fuel : Nat) (k : Fin 4) (hd : d < fuel)
    (hq : rq[k + Fin.ofNat 4 d] ≠ 0) (hz : ∀ e < d, rq[k + Fin.ofNat 4 e] = 0) :
    bucketWithQuota rq fuel k = k + Fin.ofNat 4 d := by
  have hk : k + Fin.ofNat 4 0 = k := by simp
  induction d generalizing fuel k with
  | zero =>
    obtain ⟨f, rfl⟩ : ∃ f, fuel = f + 1 := ⟨fuel - 1, by omega⟩
    simp only [hk] at hq
    simp only [bucketWithQuota, hk]
    exact if_neg hq
  | succ d ih =>
    obtain ⟨f, rfl⟩ : ∃ f, fuel = f + 1 := ⟨fuel - 1, by omega⟩
    have e : ∀ n, k + 1 + Fin.ofNat 4 n = k + Fin.ofNat 4 (n + 1) := by
      intro n; apply Fin.ext; simp [Fin.val_add]; omega
    have h0 := hz 0 (by omega)
    simp only [hk] at h0
    rw [bucketWithQuota, if_pos h0, ih f (k + 1) (by omega) (by simpa only [e] using hq)
      (fun n hn => by simp only [e]; exact hz (n + 1) (by omega)) (by simp), e]

/-! ### The lookahead -/

theorem prngAfter_step (c : Cfg) (g : Prng) (n : Nat) :
    prngAfter c (c.prngStep g).1 n = prngAfter c g (n + 1) := by
  induction n with
  | zero => rfl
  | succ n ih => rw [prngAfter, ih]; rfl

/-- The outputs of a batch, each from the PRNG state before it (R206). -/
theorem drawMany_eq (c : Cfg) (n : Nat) (g : Prng) :
    drawMany c n g = (prngAfter c g n, (List.range n).map fun t => (c.prngStep (prngAfter c g t)).2) := by
  induction n generalizing g with
  | zero => rfl
  | succ n ih =>
    rw [drawMany, ih]
    simp only [prngAfter_step, List.range_succ_eq_map, List.map_cons, List.map_map, Prod.mk.injEq, true_and]
    rfl

theorem refill_la_length (c : Cfg) (x : Scatter) : (refill c x).la.length = laLen := by
  rw [refill, drawMany_eq, List.length_map, List.length_map, List.length_range]

/-- Sample `t` of a refilled lookahead (R206). -/
theorem refill_la_getD (c : Cfg) (x : Scatter) (t : Nat) (h : t < laLen) :
    (refill c x).la.getD t 0 = bucketOfSample x (c.prngStep (prngAfter c x.prng t)).2 := by
  rw [List.getD_eq_getElem _ _ (by rw [refill_la_length]; exact h)]
  simp only [refill, drawMany_eq, List.getElem_map, List.getElem_range]

/-- The bucket of a sample as a number (R206). -/
theorem bucketOfSample_val (x : Scatter) (u : Word) :
    (bucketOfSample x u).val =
      if u.toNat * quotaSum x / 2 ^ 32 < x.rq[0].toNat then 0
      else if u.toNat * quotaSum x / 2 ^ 32 < x.rq[0].toNat + x.rq[1].toNat then 1
      else if u.toNat * quotaSum x / 2 ^ 32 < x.rq[0].toNat + x.rq[1].toNat + x.rq[2].toNat then 2
      else 3 := by
  by_cases h0 : u.toNat * quotaSum x / 2 ^ 32 < x.rq[0].toNat
  · simp only [bucketOfSample, if_pos h0]; rfl
  · by_cases h1 : u.toNat * quotaSum x / 2 ^ 32 < x.rq[0].toNat + x.rq[1].toNat
    · simp only [bucketOfSample, if_neg h0, if_pos h1]; rfl
    · by_cases h2 : u.toNat * quotaSum x / 2 ^ 32 < x.rq[0].toNat + x.rq[1].toNat + x.rq[2].toNat
      · simp only [bucketOfSample, if_neg h0, if_neg h1, if_pos h2]; rfl
      · simp only [bucketOfSample, if_neg h0, if_neg h1, if_neg h2]; rfl

/-! ### The pool of a new session -/

/-- The address word of a slot, as a number (R193). -/
theorem slotAddr_toNat (p ch b : Nat) (hp : p < 2 ^ 28) (hc : ch < 3) (hb : b < 4) :
    (slotAddr p ch b).toNat = p * 2 ^ 4 + ch * 2 ^ 2 + b := by
  have hb' : b < 2 ^ 2 := hb
  have hcb : ch * 2 ^ 2 + b < 2 ^ 4 := by omega
  simp only [slotAddr, BitVec.toNat_or, BitVec.toNat_shiftLeft, BitVec.toNat_ofNat]
  rw [Nat.mod_eq_of_lt (show p < 2 ^ 32 by omega), Nat.mod_eq_of_lt (show ch < 2 ^ 32 by omega),
    Nat.mod_eq_of_lt (show b < 2 ^ 32 by omega), Nat.shiftLeft_eq, Nat.shiftLeft_eq,
    Nat.mod_eq_of_lt (show p * 2 ^ 4 < 2 ^ 32 by omega), Nat.mod_eq_of_lt (show ch * 2 ^ 2 < 2 ^ 32 by omega),
    Nat.or_assoc, show ch * 2 ^ 2 ||| b = ch * 2 ^ 2 + b from (Nat.shiftLeft_eq ch 2) ▸
      (Nat.shiftLeft_add_eq_or_of_lt hb' ch).symm]
  rw [show p * 2 ^ 4 ||| (ch * 2 ^ 2 + b) = p * 2 ^ 4 + (ch * 2 ^ 2 + b) from (Nat.shiftLeft_eq p 4) ▸
      (Nat.shiftLeft_add_eq_or_of_lt hcb p).symm]
  omega

theorem layerOf_slotAddr (p ch b : Nat) (hp : p < 2 ^ 28) (hc : ch < 3) (hb : b < 4) :
    layerOf (slotAddr p ch b) = b := by
  simp only [layerOf, BitVec.extractLsb'_toNat, slotAddr_toNat p ch b hp hc hb]
  omega

@[simp] theorem layerEntries_length (ps : List Nat) (b : Nat) : (layerEntries ps b).length = 3 * ps.length := by
  induction ps with
  | nil => rfl
  | cons p ps ih =>
    simp only [layerEntries, List.flatMap_cons, List.length_append] at ih ⊢
    simp [ih]; omega

@[simp] theorem poolEntries_length (ps : List Nat) : (poolEntries ps).length = 12 * ps.length := by
  simp [poolEntries, List.range_succ]; omega

theorem mem_layerEntries {ps : List Nat} {b : Nat} {a : Word} (h : a ∈ layerEntries ps b) :
    ∃ p ∈ ps, ∃ ch < 3, a = slotAddr p ch b := by
  simp only [layerEntries, List.mem_flatMap, List.mem_cons, List.not_mem_nil, or_false] at h
  obtain ⟨p, hp, rfl | rfl | rfl⟩ := h
  exacts [⟨p, hp, 0, by omega, rfl⟩, ⟨p, hp, 1, by omega, rfl⟩, ⟨p, hp, 2, by omega, rfl⟩]

/-- No address stands twice in the region of a layer. -/
theorem layerEntries_nodup {ps : List Nat} (hn : ps.Nodup) (hp : ∀ p ∈ ps, p < 2 ^ 28) {b : Nat} (hb : b < 4) :
    (layerEntries ps b).Nodup := by
  have hne : ∀ p q c d : Nat, p < 2 ^ 28 → q < 2 ^ 28 → c < 3 → d < 3 → slotAddr p c b = slotAddr q d b →
      p = q ∧ c = d := by
    intro p q c d h1 h2 h3 h4 he
    have := congrArg BitVec.toNat he
    rw [slotAddr_toNat p c b h1 h3 hb, slotAddr_toNat q d b h2 h4 hb] at this
    omega
  induction ps with
  | nil => exact List.nodup_nil
  | cons p ps ih =>
    have hpp := hp p (by simp)
    rw [layerEntries, List.flatMap_cons]
    refine List.nodup_append.mpr ⟨?_, ih (List.nodup_cons.mp hn).2 fun q hq => hp q (by simp [hq]), ?_⟩
    · simp only [List.nodup_cons, List.mem_cons, List.not_mem_nil, or_false, not_or, not_false_iff,
        List.nodup_nil, and_true]
      refine ⟨⟨fun h => ?_, fun h => ?_⟩, fun h => ?_⟩ <;>
        exact absurd (hne _ _ _ _ hpp hpp (by omega) (by omega) h).2 (by decide)
    · intro a ha b' hb' he
      subst he
      obtain ⟨q, hq, d, hd, rfl⟩ := mem_layerEntries hb'
      have hpq : p ≠ q := fun h => (List.nodup_cons.mp hn).1 (h ▸ hq)
      simp only [List.mem_cons, List.not_mem_nil, or_false] at ha
      rcases ha with h | h | h <;>
        exact hpq (hne _ _ _ _ (hp q (by simp [hq])) hpp hd (by omega) h).1.symm

theorem layerOf_layerEntries {ps : List Nat} (hp : ∀ p ∈ ps, p < 2 ^ 28) {b : Nat} (hb : b < 4) {a : Word}
    (h : a ∈ layerEntries ps b) : layerOf a = b := by
  obtain ⟨p, hq, ch, hc, rfl⟩ := mem_layerEntries h
  exact layerOf_slotAddr p ch b (hp p hq) hc hb

/-- No address stands twice in the pool of a new session (R192). -/
theorem poolEntries_nodup {ps : List Nat} (hn : ps.Nodup) (hp : ∀ p ∈ ps, p < 2 ^ 28) :
    (poolEntries ps).Nodup := by
  rw [poolEntries, List.nodup_flatMap]
  refine ⟨fun b hb => layerEntries_nodup hn hp (List.mem_range.mp hb), ?_⟩
  refine List.Nodup.pairwise_of_forall_ne (List.nodup_range) fun b hb c hc hbc => ?_
  intro a ha hc'
  exact hbc ((layerOf_layerEntries hp (List.mem_range.mp hb) ha).symm.trans
    (layerOf_layerEntries hp (List.mem_range.mp hc) hc'))

/-- Every layer has `3·A` entries in the pool of a new session. -/
theorem layerCount_poolEntries {ps : List Nat} (hp : ∀ p ∈ ps, p < 2 ^ 28) {k : Nat} (hk : k < 4) :
    layerCount (poolEntries ps) k = 3 * ps.length := by
  have hl : ∀ b < 4, ofLayer (layerEntries ps b) k = if b = k then layerEntries ps b else [] := by
    intro b hb
    by_cases h : b = k
    · rw [if_pos h, ofLayer, List.filter_eq_self]
      intro a ha
      simp [layerOf_layerEntries hp hb ha, h]
    · rw [if_neg h, ofLayer, List.filter_eq_nil_iff]
      intro a ha
      simp [layerOf_layerEntries hp hb ha, h]
  simp only [layerCount, ofLayer] at hl ⊢
  simp only [poolEntries, List.range_succ, List.range_zero, List.nil_append, List.flatMap_append,
    List.flatMap_cons, List.flatMap_nil, List.append_nil, List.filter_append, List.length_append]
  rw [hl 0 (by omega), hl 1 (by omega), hl 2 (by omega), hl 3 (by omega)]
  interval_cases k <;> simp

/-- A part of a list has no more entries of a layer than the list. -/
theorem layerCount_take_le (ws : List Word) (n k : Nat) : layerCount (ws.take n) k ≤ layerCount ws k :=
  ((List.take_sublist n ws).filter _).length_le

/-! ### One draw -/

/-- A drawn position lies in the window (R198, R208). -/
theorem drawIndex_lt (u : Word) (n : Nat) (p : Word) (h : 1 ≤ n) : drawIndex u n p < n := Nat.mod_lt _ h

/-- A Uniform draw takes one entry out of the live window and leaves the others (R198). -/
theorem uniformDraw_perm (c : Cfg) (x : Scatter) (hr : 1 ≤ remaining x) (hu : x.used.toNat + 1 < 2^32) :
    ((uniformDraw c x).2 :: liveWindow (uniformDraw c x).1).Perm (liveWindow x) := by
  have hi := drawIndex_lt (c.prngStep x.prng).2 (remaining x) x.pos hr
  have hrem : remaining (uniformDraw c x).1 = remaining x - 1 := by
    simp [remaining, uniformDraw]
    simp [remaining] at hr
    omega
  have hl : liveWindow (uniformDraw c x).1 = swapRemove (liveWindow x) (drawIndex (c.prngStep x.prng).2 (remaining x) x.pos) (memRead x.pool (remaining x - 1)) := by
    rw [liveWindow, hrem]
    have := memReadList_swapRemove x.pool 0 (remaining x) (drawIndex (c.prngStep x.prng).2 (remaining x) x.pos) hi
    simpa [uniformDraw, liveWindow] using this
  rw [hl]
  have := swapRemove_perm (liveWindow x) (drawIndex (c.prngStep x.prng).2 (remaining x) x.pos) (by simpa [liveWindow] using hi)
  simpa [liveWindow, uniformDraw] using this

/-- The live entries of bucket `k` (R204, R208). -/
def bucketEntries (x : Scatter) (k : Fin 4) : List Word := memReadList x.pool x.base[k].toNat x.live[k].toNat

/-- A Shaped draw takes one entry out of its bucket and leaves the others (R208). -/
theorem bucketDraw_perm (c : Cfg) (x : Scatter) (k : Fin 4) (hl : 1 ≤ x.live[k].toNat) :
    ((bucketDraw c k x).2 :: bucketEntries (bucketDraw c k x).1 k).Perm (bucketEntries x k) := by
  have hi := drawIndex_lt (c.prngStep x.prng).2 (x.live[k].toNat) x.pos hl
  have h1 : (x.live[k] - 1).toNat = x.live[k].toNat - 1 := by
    exact BitVec.toNat_sub_of_le (BitVec.le_def.mpr hl)
  have hl' : bucketEntries (bucketDraw c k x).1 k = swapRemove (bucketEntries x k) (drawIndex (c.prngStep x.prng).2 (x.live[k].toNat) x.pos) (memRead x.pool (x.base[k].toNat + x.live[k].toNat - 1)) := by
    rw [bucketEntries, bucketEntries, ← memReadList_swapRemove _ _ _ _ hi, ← h1]
    simp [bucketDraw]
  rw [hl']
  have := swapRemove_perm (bucketEntries x k) (drawIndex (c.prngStep x.prng).2 (x.live[k].toNat) x.pos) (by simpa [bucketEntries] using hi)
  simp only [bucketEntries, memReadList_getElem, memReadList_length] at this ⊢
  rw [show x.base[k].toNat + (x.live[k].toNat - 1) = x.base[k].toNat + x.live[k].toNat - 1 by omega] at this
  exact this

/-- A Shaped draw leaves every other bucket (R208). -/
theorem bucketDraw_other (c : Cfg) (x : Scatter) (k j : Fin 4) (hjk : j ≠ k) (hl : 1 ≤ x.live[k].toNat)
   (h : x.base[j].toNat + x.live[j].toNat ≤ x.base[k].toNat ∨ x.base[k].toNat + x.live[k].toNat ≤ x.base[j].toNat) :
    bucketEntries (bucketDraw c k x).1 j = bucketEntries x j := by
  have hi := drawIndex_lt (c.prngStep x.prng).2 (x.live[k].toNat) x.pos hl
  have hv : k.val ≠ j.val := fun h => hjk (Fin.ext h.symm)
  rw [bucketEntries, bucketEntries]
  simp only [bucketDraw]
  rw [show ((x.live.set k.val (x.live[k] - 1) k.isLt)[j]) = x.live[j] by
    simp only [Fin.getElem_fin]; rw [Vector.getElem_set_ne]; exact hv]
  exact memReadList_memWrite_other _ _ _ _ _ (by omega)

theorem issuable_shaped (x : Scatter) (h : x.mode = .shaped) :
    issuable x = bucketEntries x 0 ++ (bucketEntries x 1 ++ (bucketEntries x 2 ++ bucketEntries x 3)) := by
  simp [issuable, h, bucketEntries, List.finRange_succ]

/-- A Shaped draw takes one address out of the four buckets together. -/
theorem bucketDraw_issuable_perm (c : Cfg) (x : Scatter) (k : Fin 4) (hm : x.mode = .shaped) (hl : 1 ≤ x.live[k].toNat)
  (ho : ∀ j k : Fin 4, j < k → x.base[j].toNat + x.live[j].toNat ≤ x.base[k].toNat) :
   ((bucketDraw c k x).2 :: issuable (bucketDraw c k x).1).Perm (issuable x) := by
  have hm' : (bucketDraw c k x).1.mode = .shaped := hm
  rw [issuable_shaped x hm, issuable_shaped _ hm']
  have hs := bucketDraw_perm c x k hl
  have hob : ∀ j, j ≠ k → bucketEntries (bucketDraw c k x).1 j = bucketEntries x j := fun j hj => by
    apply bucketDraw_other c x k j hj hl
    rcases lt_or_gt_of_ne hj with h | h
    · exact .inl (ho _ _ h)
    · exact .inr (ho _ _ h)
  have hall : ∀ k : Fin 4, k = 0 ∨ k = 1 ∨ k = 2 ∨ k = 3 := by decide
  rcases hall k with rfl | rfl | rfl | rfl
  · rw [hob 1 (by decide), hob 2 (by decide), hob 3 (by decide)]
    exact hs.append_right _
  · rw [hob 0 (by decide), hob 2 (by decide), hob 3 (by decide)]
    exact List.perm_middle.symm.trans ((hs.append_right _).append_left _)
  · rw [hob 0 (by decide), hob 1 (by decide), hob 3 (by decide)]
    refine List.perm_middle.symm.trans (List.Perm.append_left _ ?_)
    exact List.perm_middle.symm.trans ((hs.append_right _).append_left _)
  · rw [hob 0 (by decide), hob 1 (by decide), hob 2 (by decide)]
    refine List.perm_middle.symm.trans (List.Perm.append_left _ ?_)
    refine List.perm_middle.symm.trans (List.Perm.append_left _ ?_)
    exact List.perm_middle.symm.trans (hs.append_left _)

/-- The quotas of a switch add up to the budget and no bucket is asked for more than it has (R205). -/
theorem quotas_sum (live : Vector Word 4) (b a used : Nat) (hL : live[0].toNat + live[1].toNat + live[2].toNat + live[3].toNat = 12 * a - used)
   (hb : b = 6 * a - used) (hu : 264 ≤ used) (ha : a ≤ 2^28)
   (h1 : ∀ k : Fin 4, live[k].toNat ≤ 3 * a) : 
   (quotas live b)[0].toNat + (quotas live b)[1].toNat + (quotas live b)[2].toNat + (quotas live b)[3].toNat = b ∧
   ∀ k : Fin 4, (quotas live b)[k].toNat ≤ live[k].toNat := by
  have e0 := h1 0
  have e1 := h1 1
  have e2 := h1 2
  have e3 := h1 3
  simp only [Fin.getElem_fin, Fin.val_zero, Fin.val_one, Fin.val_two] at e0 e1 e2 e3
  change live[3].toNat ≤ _ at e3
  have hx0 := live[0].isLt
  have hx1 := live[1].isLt
  have hx2 := live[2].isLt
  have hx3 := live[3].isLt
  generalize hv0 : live[0].toNat = l0 at *
  generalize hv1 : live[1].toNat = l1 at *
  generalize hv2 : live[2].toNat = l2 at *
  generalize hv3 : live[3].toNat = l3 at *
  have w1 : wppm[1] = 665272 := rfl
  have w2 : wppm[2] = 382584 := rfl
  have w3 : wppm[3] = 152144 := rfl
  obtain ⟨q1, hq1⟩ : ∃ q, q = min (665272 * l1 / 1000000) b := ⟨_, rfl⟩
  obtain ⟨q2, hq2⟩ : ∃ q, q = min (382584 * l2 / 1000000) (b - q1) := ⟨_, rfl⟩
  obtain ⟨q3, hq3⟩ : ∃ q, q = min (152144 * l3 / 1000000) (b - q1 - q2) := ⟨_, rfl⟩
  obtain ⟨q0, hq0⟩ : ∃ q, q = min l0 (b - q1 - q2 - q3) := ⟨_, rfl⟩
  have hq : quotas live b = #v[BitVec.ofNat 32 q0, BitVec.ofNat 32 q1, BitVec.ofNat 32 q2, BitVec.ofNat 32 q3] := by
    simp only [quotas, quotaOf, w1, w2, w3, hv0, hv1, hv2, hv3, ← hq1, ← hq2, ← hq3, ← hq0]
  rw [hq]
  have hh0 : q0 ≤ l0 := by omega
  have hh1 : q1 ≤ l1 := by omega
  have hh2 : q2 ≤ l2 := by omega
  have hh3 : q3 ≤ l3 := by omega
  have key : q0 + q1 + q2 + q3 = b := by
    by_cases hs : b - q1 - q2 - q3 ≤ l0
    · omega
    · -- with that much budget left no quota was cut, and the four shares together cover it
      have c1 : q1 = 665272 * l1 / 1000000 := by omega
      have c2 : q2 = 382584 * l2 / 1000000 := by omega
      have c3 : q3 = 152144 * l3 / 1000000 := by omega
      clear hq1 hq2 hq3 hq0
      omega
  constructor
  · simp [Nat.mod_eq_of_lt (show q0 < 4294967296 by omega), Nat.mod_eq_of_lt (show q1 < 4294967296 by omega), Nat.mod_eq_of_lt (show q2 < 4294967296 by omega), Nat.mod_eq_of_lt (show q3 < 4294967296 by omega)]
    omega
  · intro k
    have hall : ∀ k : Fin 4, k = 0 ∨ k = 1 ∨ k = 2 ∨ k = 3 := by decide
    rcases hall k with rfl | rfl | rfl | rfl
    · change (BitVec.ofNat 32 q0).toNat ≤ live[0].toNat
      rw [hv0, BitVec.toNat_ofNat, Nat.mod_eq_of_lt (by omega)]; omega
    · change (BitVec.ofNat 32 q1).toNat ≤ live[1].toNat
      rw [hv1, BitVec.toNat_ofNat, Nat.mod_eq_of_lt (by omega)]; omega
    · change (BitVec.ofNat 32 q2).toNat ≤ live[2].toNat
      rw [hv2, BitVec.toNat_ofNat, Nat.mod_eq_of_lt (by omega)]; omega
    · change (BitVec.ofNat 32 q3).toNat ≤ live[3].toNat
      rw [hv3, BitVec.toNat_ofNat, Nat.mod_eq_of_lt (by omega)]; omega

end Sys2Proof.Laws
end

