-- ==== Sys2Proof/Machine/HostFlow.lean ====
section
/-! DEFINITION. The host's two programs, encode and decode (`spec/44_host_protocol.md` R251, R252), as accesses to the
block in the spec's order. The compressor and the cipher are parameters (R4 b). The machine's step calls
nothing of this file (R250). notes/assumptions/20.md, 25.md, 26.md. -/

namespace Sys2Proof.Machine

/-- What surrounds the host: the external compressor and cipher (`spec/44_host_protocol.md`, opening), `TYPE_CODES` and
`DEFAULT_TYPE` (R253). A type is {error correction on or off} and {uniform or shaped scatter}. -/
structure HostParams where
  compress : List Byte → List Byte
  decompress : List Byte → Option (List Byte)
  aesEnc (key iv bytes : List Byte) : List Byte
  aesDec (key iv bytes : List Byte) : Option (List Byte)
  typeCode : Bool × Mode → Byte × Byte
  defaultType : Bool × Mode

/-- R259: how a call of the host can fail. -/
inductive HostError where
  /-- `CapacityExceeded`, with the required and the available bytes (R255) -/
  | capacityExceeded (required available : Nat)
  /-- `DecodeFailed` -/
  | decodeFailed
  /-- a command ended in the error with this code; for 5 and 6 this is `UsageError` -/
  | commandFailed (code : Word)
  /-- the header does not fit one cipher block (R256) -/
  | headerTooLong
  /-- a length or dimension does not fit the register that takes it (notes/assumptions/26.md) -/
  | operandTooWide (r : Reg) (v : Nat)
  /-- the step has no meaning -/
  | refused
  deriving DecidableEq, Repr

/-- The host's side of a run: it goes on with the block's state, or it fails in one. -/
abbrev Flow (α : Type) := StateT State (Except (HostError × State)) α

/-- The call fails here. What a failed call still does to the block is `closingOnFailure`, the model's choice
(notes/assumptions/25.md). -/
def failWith {α : Type} (e : HostError) : Flow α := fun s => .error (e, s)

/-- One access of the host. -/
def access (e : HostEvent) : Flow Unit := fun s =>
  match hostEvent e s with
  | .next t => .ok ((), t)
  | .fault f => nomatch f
  | .refused _ => .error (.refused, s)

/-- Accesses in their order. -/
def accesses : List HostEvent → Flow Unit
  | [] => pure ()
  | e :: es => do access e; accesses es

/-- One read and the word it returns. -/
def fetch (e : HostEvent) : Flow Word := do
  access e
  return (← get).rdata

/-- Reads in their order. -/
def fetchAll : List HostEvent → Flow (List Word)
  | [] => pure []
  | e :: es => do
    let v ← fetch e
    return v :: (← fetchAll es)

/-- `rd r` of R102. -/
def readRegister (r : Reg) : Flow Word := fetch (.read .reg .word (regOffset r))

/-- The bits a register has for a value of the host: 16 in `PWLEN` (R29), else 32 (R21). -/
def operandBits (r : Reg) : Nat := if r = .pwLen then 16 else 32

/-- `wr r, v` of R102, for a value of the host's own arithmetic. The spec does not say what the host does with a value
that does not fit the register: here the call fails and nothing is cut (the model's choice:
notes/assumptions/26.md). -/
def writeRegister (r : Reg) (v : Nat) : Flow Unit :=
  if v < 2 ^ operandBits r then accesses (lineEvents (.wr r (BitVec.ofNat 32 v)))
  else failWith (.operandTooWide r v)

/-- `rdb sp, 0, n` of R102. -/
def readBytes (sp : Space) (n : Nat) : Flow (List Byte) := do
  return (← fetchAll (lineEvents (.rdb sp 0 n))).map (·.setWidth 8)

/-- `cmd i; wait`. If the command ended in an error, the host acknowledges it, as it must before any next command
(R287, R334), and the call fails. -/
def command (i : Instr) : Flow Unit := do
  accesses (scriptEvents [.cmd i, .wait])
  let e ← readRegister .err
  if e = 0 then pure ()
  else do
    accesses (lineEvents .ack)
    failWith (.commandFailed e)

/-- The bytes of consecutive registers (R62). -/
def registerBytes (rs : List Reg) : Flow (List Byte) := do
  return (← fetchAll (rs.map fun r => .read .reg .word (regOffset r))).flatMap bytesLe32

/-- R251 step 1. -/
def givePassword (pw : List Byte) : Flow Unit := do
  accesses (lineEvents (.wrb .pwbuf 0 pw))
  writeRegister .pwLen pw.length

/-- R251 step 2: the payload key and IV. -/
def payloadKey : Flow (List Byte × List Byte) := do
  command (.kdfDerive .payload)
  return (← registerBytes ((List.finRange 8).map Reg.keyP), ← registerBytes ((List.finRange 4).map Reg.ivP))

/-- R251 step 3: the header key and IV; the seed is set. -/
def headerKey : Flow (List Byte × List Byte) := do
  command (.kdfDerive .header)
  return (← registerBytes ((List.finRange 8).map Reg.keyH), ← registerBytes ((List.finRange 4).map Reg.ivH))

/-- Golay-encoding by the block (R251 steps 5 and 8). -/
def protect (bs : List Byte) : Flow (List Byte) := do
  accesses (lineEvents (.wrb .din 0 bs))
  writeRegister .arg0 bs.length
  command .eccEncb
  let n ← readRegister .res0
  readBytes .dout n.toNat

/-- Golay-decoding by the block to `n` bytes (R252 steps 6 and 11). -/
def recover (bs : List Byte) (n : Nat) : Flow (List Byte) := do
  accesses (lineEvents (.wrb .din 0 bs))
  writeRegister .arg0 n
  command .eccDecb
  readBytes .dout n

/-- R251 step 9. -/
def openSession (w h : Nat) : Flow Unit := do
  writeRegister .arg0 w
  writeRegister .arg1 h
  command .scInit

/-- `SC.FREE m` and its result, in slots. -/
def freeSlots (m : Mode) : Flow Nat := do
  command (.scFree m)
  return (← readRegister .res0).toNat

/-- `SC.GEN m` for `n` addresses, read from `AOUT`. -/
def addresses (m : Mode) (n : Nat) : Flow (List Word) := do
  writeRegister .arg0 n
  command (.scGen m)
  fetchAll (lineEvents (.rdw 0 n))

/-- R258: one bit into the picture. -/
def embedBit (a : Word) (v : Bool) : Flow Unit := do
  let old ← fetch (.read .pix .byte (slotByte a))
  access (embedEvent a v (old.setWidth 8))

/-- R257: the bits of a code, in the order of the addresses. -/
def embedBits : List (Word × Bool) → Flow Unit
  | [] => pure ()
  | (a, v) :: rest => do embedBit a v; embedBits rest

/-- R257: a code written over addresses of mode `m`. -/
def embedCode (m : Mode) (code : List Byte) : Flow Unit := do
  let as ← addresses m (8 * code.length)
  embedBits (as.zip ((List.range (8 * code.length)).map (codeBit code)))

/-- R257: a byte gathered from 8 bits, least significant first. -/
def byteOfBits (vs : List Bool) : Byte := BitVec.ofNat 8 (vs.foldr (fun v n => v.toNat + 2 * n) 0)

/-- R257: `n` bytes gathered from addresses of mode `m`. -/
def gatherCode (m : Mode) (n : Nat) : Flow (List Byte) := do
  let as ← addresses m (8 * n)
  let ws ← fetchAll (as.map fun a => .read .pix .byte (slotByte a))
  let vs := (as.zip ws).map fun x => embeddedBit x.1 (x.2.setWidth 8)
  return (List.range n).map fun i => byteOfBits ((vs.drop (8 * i)).take 8)

/-- R251 step 12: the lengths of the pieces of `n` bytes, at most `AOUT_MAX div 8` each. -/
def pieceLengths (c : Cfg) (n : Nat) : List Nat :=
  (List.range ((n + c.aoutMax / 8 - 1) / (c.aoutMax / 8))).map fun i =>
    min (c.aoutMax / 8) (n - i * (c.aoutMax / 8))

/-- R251 step 12. -/
def embedPieces (m : Mode) : List Nat → List Byte → Flow Unit
  | [], _ => pure ()
  | n :: ns, bs => do
    embedCode m (bs.take n)
    embedPieces m ns (bs.drop n)

/-- R252 step 10. -/
def gatherPieces (m : Mode) : List Nat → Flow (List Byte)
  | [] => pure []
  | n :: ns => do
    let bs ← gatherCode m n
    return bs ++ (← gatherPieces m ns)

/-- The last step of both flows: the cleanup of R260. -/
def closeCall : Flow Unit := do
  command .scEnd
  command .kdfClear

/-- A call that fails does the cleanup too and then fails as it did, so that no session, key or error of it is left and
every call is independent of the one before (R259). R260 says of the cleanup only that a call 'should end
with' it: that a failed call does it is the model's choice (notes/assumptions/25.md). -/
def closingOnFailure {α : Type} (call : Flow α) : Flow α := fun s =>
  match call s with
  | .ok r => .ok r
  | .error (e, t) =>
    match closeCall t with
    | .ok (_, u) => .error (e, u)
    | .error (_, u) => .error (e, u)

/-- The ASCII digits of a number. -/
def decimalBytes (n : Nat) : List Byte := (Nat.toDigits 10 n).map fun ch => BitVec.ofNat 8 ch.toNat

/-- R253: the header of a type and a length: form (a) for the default type, form (b) for the others. -/
def headerOf (p : HostParams) (ty : Bool × Mode) (lc : Nat) : List Byte :=
  if ty = p.defaultType then decimalBytes lc
  else headerBytes { typeCode := p.typeCode ty, length := lc }

/-- The four types. -/
def allTypes : List (Bool × Mode) := [(false, .uniform), (false, .shaped), (true, .uniform), (true, .shaped)]

/-- R254: the type and length of a header. -/
def parseTypedHeader (p : HostParams) (hdr : List Byte) : Option ((Bool × Mode) × Nat) :=
  match parseHeader (p.typeCode p.defaultType) hdr with
  | none => none
  | some h =>
    if hdr.all isDigit then some (p.defaultType, h.length)
    else (allTypes.find? fun ty => p.typeCode ty == h.typeCode).map fun ty => (ty, h.length)

/-- R251: the steps of encode, up to a failure. -/
def encodeSteps (c : Cfg) (p : HostParams) (ty : Bool × Mode) (w h : Nat) (pw message : List Byte) :
    Flow Unit := do
  givePassword pw
  let (keyP, ivP) ← payloadKey
  let (keyH, ivH) ← headerKey
  let ct := p.aesEnc keyP ivP (p.compress message)
  let pc ← if ty.1 then protect ct else pure ct
  let hdr := headerOf p ty ct.length
  if 16 ≤ hdr.length then failWith .headerTooLong
  let hc ← protect (p.aesEnc keyH ivH hdr)
  openSession w h
  let slots ← freeSlots ty.2
  if slots < 8 * (33 + pc.length) then failWith (.capacityExceeded (33 + pc.length) (usableBytes slots))
  embedCode .uniform hc
  embedPieces ty.2 (pieceLengths c pc.length) pc
  closeCall

/-- R251: encode a message into the picture in `PIX`. -/
def encodeCall (c : Cfg) (p : HostParams) (ty : Bool × Mode) (w h : Nat) (pw message : List Byte) : Flow Unit :=
  closingOnFailure (encodeSteps c p ty w h pw message)

/-- R252 without its last sentence: the steps of decode, up to a failure. -/
def decodeSteps (c : Cfg) (p : HostParams) (w h : Nat) (pw : List Byte) : Flow (List Byte) := do
  givePassword pw
  let (keyP, ivP) ← payloadKey
  let (keyH, ivH) ← headerKey
  openSession w h
  let hc ← gatherCode .uniform 33
  let hc16 ← recover hc 16
  let some hdr := p.aesDec keyH ivH hc16 | failWith .decodeFailed
  let some (ty, lc) := parseTypedHeader p hdr | failWith .decodeFailed
  let ld := onDiskLength ty.1 lc
  let slots ← freeSlots ty.2
  if ld < 2 ∨ slots < 8 * ld then failWith .decodeFailed
  let gathered ← gatherPieces ty.2 (pieceLengths c ld)
  let ct ← if ty.1 then recover gathered lc else pure gathered
  let some text := p.aesDec keyP ivP ct | failWith .decodeFailed
  let some message := p.decompress text | failWith .decodeFailed
  closeCall
  return message

/-- R252: decode the picture in `PIX`; any failure surfaces as the one `DecodeFailed`. -/
def decodeCall (c : Cfg) (p : HostParams) (w h : Nat) (pw : List Byte) : Flow (List Byte) := fun s =>
  match closingOnFailure (decodeSteps c p w h pw) s with
  | .ok r => .ok r
  | .error (_, t) => .error (.decodeFailed, t)

end Sys2Proof.Machine
end

