-- ==== Sys2Proof/Tests/Slice0.lean ====
section
/-! SUPPORT. The model's own tests: words decoded, ill-formed terms refused, vectors of `spec/95_test_vectors.md`, and
for each statement with hypotheses a state that meets them. -/

namespace Sys2Proof.Tests

open Sys2Proof.Machine Sys2Proof.Safety Sys2Proof.Laws

/-! ### Words written out from `spec/30_encoding.md` R90, R96, R101 -/

theorem test_decode_nop : decode 0b00000000_000000000000000000000000 = .ok .nop := rfl
theorem test_decode_sreset : decode 0b00000001_000000000000000000000000 = .ok .sreset := rfl
theorem test_decode_tblRdEnc :
    decode 0b00001000_0000000000_00_000000000001 = .ok (.tblRdEnc 1) := rfl
theorem test_decode_tblRdSyn :
    decode 0b00001000_0000000000_01_000100100011 = .ok (.tblRdSyn 0x123) := rfl
theorem test_decode_tblRdCor :
    decode 0b00001000_0000000000_10_110010011110 = .ok (.tblRdCor 0xC9E) := rfl
theorem test_decode_eccEnc12 : decode 0b00010000_000000000000000000000000 = .ok .eccEnc12 := rfl
theorem test_decode_eccDec24 : decode 0b00010001_000000000000000000000000 = .ok .eccDec24 := rfl
theorem test_decode_eccEncb : decode 0b00010010_000000000000000000000000 = .ok .eccEncb := rfl
theorem test_decode_eccDecb : decode 0b00010011_000000000000000000000000 = .ok .eccDecb := rfl
theorem test_decode_kdfDerive_payload :
    decode 0b00100000_00000000000000000000000_0 = .ok (.kdfDerive .payload) := rfl
theorem test_decode_kdfDerive_header :
    decode 0b00100000_00000000000000000000000_1 = .ok (.kdfDerive .header) := rfl
theorem test_decode_kdfClear : decode 0b00100001_000000000000000000000000 = .ok .kdfClear := rfl
theorem test_decode_scInit : decode 0b00110000_000000000000000000000000 = .ok .scInit := rfl
theorem test_decode_scFree :
    decode 0b00110001_00000000000000000000000_1 = .ok (.scFree .shaped) := rfl
theorem test_decode_scGen :
    decode 0b00110010_00000000000000000000000_0 = .ok (.scGen .uniform) := rfl
theorem test_decode_scEnd : decode 0b00110011_000000000000000000000000 = .ok .scEnd := rfl

/-- V17: the four illegal words of the table. -/
theorem test_decode_illegal :
    decode 0x02000000 = .error .reservedOpcode ∧ decode 0x10000001 = .error .reservedField ∧
    decode 0x08003000 = .error .reservedTable ∧ decode 0x08004000 = .error .reservedField :=
  ⟨rfl, rfl, rfl, rfl⟩

/-- The words of P1 to P3 as the encoder writes them. -/
theorem test_encode_programs :
    encode (.tblRdCor 0xC9E) = 0x08002C9E ∧ encode (.kdfDerive .header) = 0x20000001 ∧
    encode (.scFree .shaped) = 0x31000001 ∧ encode .eccDecb = 0x13000000 := by decide

/-! ### Ill-formed terms (R72, R102) -/

theorem test_illformed_half_register_write :
    (HostEvent.write .reg .half 0x020 1).wellFormed = false := by decide
theorem test_illformed_misaligned_register_read :
    (HostEvent.read .reg .word 0x021).wellFormed = false := by decide
theorem test_illformed_byte_aout_read : (HostEvent.read .aout .byte 0).wellFormed = false := by decide
theorem test_illformed_misaligned_aout_write :
    (HostEvent.write .aout .word 2 0).wellFormed = false := by decide
theorem test_illformed_wide_pwbuf_write :
    (HostEvent.write .pwbuf .word 0 1).wellFormed = false := by decide
theorem test_illformed_wide_din_read : (HostEvent.read .din .half 0).wellFormed = false := by decide
theorem test_illformed_wide_dout_read : (HostEvent.read .dout .word 0).wellFormed = false := by decide
theorem test_illformed_wide_pix_write : (HostEvent.write .pix .word 0 1).wellFormed = false := by decide
theorem test_illformed_wrb_into_dout : (ScriptLine.wrb .dout 0 [1]).wellFormed = false := by decide
theorem test_illformed_rdb_of_pwbuf : (ScriptLine.rdb .pwbuf 0 1).wellFormed = false := by decide
theorem test_wellformed_accesses :
    (HostEvent.write .reg .word 0x020 1).wellFormed = true ∧
    (ScriptLine.rdb .dout 0 12).wellFormed = true := by decide

/-! ### Small states -/

/-- The block idle after the table build, but for the contents of the tables. -/
def idle : State := { State.reset with busy := false, tblReady := true }

/-- The word `c` accepted, the host waiting. -/
def accepted (c : Word) : State := { idle with busy := true, cmd := c, input := [.wait] }

/-- The word `c` accepted, the host with nothing left to do. -/
def acceptedLast (c : Word) : State := { idle with busy := true, cmd := c }

/-- The state a step or a command answers. -/
def after : Result → State
  | .next t => t
  | .fault _ => State.reset
  | .refused _ => State.reset

/-- The table with one entry other than 0. -/
def oneEntry (i v : Sym) : Table := tableSet (Vector.replicate 4096 0) i v

/-! ### System commands -/

/-- V18. -/
theorem test_nop_status : statusWord (after (exec .nop idle)) = 0x00000006 := by decide

/-- A state with registers to clear and a faulted session. -/
def beforeReset : State :=
  { idle with
    arg0 := 5, arg1 := 6, res0 := 7, pwLen := 3, wrign := true, kpValid := true, khValid := true
    sc := { idle.sc with valid := true, mode := .shaped, fault := true } }

/-- V18, R113. -/
theorem test_sreset_registers :
    (after (exec .sreset beforeReset)).arg0 = 0 ∧
    statusWord (after (exec .sreset beforeReset)) = 0x00000006 := by decide

/-- V3: `ENC[001] = C75`. -/
theorem test_tblRdEnc :
    (after (exec (.tblRdEnc 1) { idle with enc := foldTable refGen })).res0 = 0x00000C75 := by
  change (tableGet (foldTable refGen) 1).setWidth 32 = 0x00000C75
  rw [tableGet_foldTable]; decide

/-- V3: `SYN[001] = 49F`. -/
theorem test_tblRdSyn :
    (after (exec (.tblRdSyn 1) { idle with syn := foldTable refChk })).res0 = 0x0000049F := by
  change (tableGet (foldTable refChk) 1).setWidth 32 = 0x0000049F
  rw [tableGet_foldTable]; decide

/-- P1: entry C9E of `COR` is 801. -/
theorem test_tblRdCor :
    (after (exec (.tblRdCor 0xC9E) { idle with cor := oneEntry 0xC9E 0x801 })).res0 = 0x00000801 := by
  change (tableGet (oneEntry 0xC9E 0x801) 0xC9E).setWidth 32 = 0x00000801
  rw [oneEntry, tableGet_tableSet]; decide

/-! ### ECC unit -/

/-- V2: `ABC` to `ABC11E`. -/
theorem test_eccEnc12 :
    (after (exec .eccEnc12 { idle with arg0 := 0xABC, enc := foldTable refGen })).res0 = 0x00ABC11E := by
  change (mkCode 0xABC (tableGet (foldTable refGen) 0xABC)).setWidth 32 = 0x00ABC11E
  rw [tableGet_foldTable]; decide

/-- V2: `ARG0 = 1000` is `E_OPERAND (1000, FFF)`. -/
theorem test_eccEnc12_operand :
    (after (exec .eccEnc12 { idle with arg0 := 0x1000 })).err = 2 ∧
    (after (exec .eccEnc12 { idle with arg0 := 0x1000 })).errInfo1 = 0xFFF := by decide

/-- V4, third row: three errors, mixed: syndrome C9E. -/
theorem test_eccDec24_syndrome : syndrome (foldTable refChk) 0x2BD11F = 0xC9E := by
  rw [syndrome, tableGet_foldTable]; decide

/-- V4, third row: the data word comes back. -/
theorem test_eccDec24 : decode24 (foldTable refChk) (oneEntry 0xC9E 0x801) 0x2BD11F = 0xABC := by
  rw [decode24, test_eccDec24_syndrome, oneEntry, tableGet_tableSet]; decide

/-- V6. -/
theorem test_nsym : [0, 1, 2, 3, 4, 5, 16, 33].map nsym = [0, 1, 2, 2, 3, 4, 11, 22] := by decide

/-- V7, V8: symbols of 68 65 6C 6C 6F, and the bytes of the symbols. -/
theorem test_repacking :
    packSymbols [0x68, 0x65, 0x6C, 0x6C, 0x6F] = [0x686, 0x56C, 0x6C6, 0xF00] ∧
    unpackBytes [0x686, 0x56C, 0x6C6, 0xF00] 5 = [0x68, 0x65, 0x6C, 0x6C, 0x6F] := by decide

/-- V7, `L` = 2: the bytes 12 34 as 12 30 56 40 0B 1D. -/
theorem test_eccEncb : encodeBytes (foldTable refGen) [0x12, 0x34] =
    [0x12, 0x30, 0x56, 0x40, 0x0B, 0x1D] := by
  simp only [encodeBytes, show packSymbols [0x12, 0x34] = [0x123, 0x400] by decide, encode12,
    List.flatMap_cons, List.flatMap_nil, tableGet_foldTable]
  decide

/-- V8: `FF AE C1` decodes to FF, syndrome 0. -/
theorem test_eccDecb : decodeBytes (foldTable refChk) (oneEntry 0xC9E 0x801) [0xFF, 0xAE, 0xC1] 1 = [0xFF] := by
  have h : receivedCodes [0xFF, 0xAE, 0xC1] 1 = [0xFFAEC1] := by decide
  have hs : syndrome (foldTable refChk) 0xFFAEC1 = 0 := by
    rw [syndrome, tableGet_foldTable]; decide
  simp only [decodeBytes, h, List.map_cons, List.map_nil, decode24, hs, oneEntry, tableGet_tableSet]
  decide

/-! ### KDF unit -/

/-- R174 (V9): the first and last words of the digest of "abc". -/
theorem test_sha256_abc :
    ((sha256Digest [0x61, 0x62, 0x63]).toList.take 4, (sha256Digest [0x61, 0x62, 0x63]).toList.drop 28) =
      ([0xBA, 0x78, 0x16, 0xBF], [0xF2, 0x00, 0x15, 0xAD]) := by decide +kernel

/-- V9, "pw1", context 0: `KEYP0 = AA69D4CD`, `IVP3 = 48D18DB8`. -/
theorem test_kdfDerive_packing :
    readReg (kdfStore .payload [0xCD, 0xD4, 0x69, 0xAA] [0, 0, 0, 0, 0, 0, 0, 0, 0, 0, 0, 0, 0xB8, 0x8D, 0xD1, 0x48]
      idle) (.keyP 0) = 0xAA69D4CD ∧
    readReg (kdfStore .payload [0xCD, 0xD4, 0x69, 0xAA] [0, 0, 0, 0, 0, 0, 0, 0, 0, 0, 0, 0, 0xB8, 0x8D, 0xD1, 0x48]
      idle) (.ivP 3) = 0x48D18DB8 := by decide

/-- V9: `PWLEN = 101` is `E_LENGTH (101, 100)` under REFCFG. -/
theorem test_kdfDerive_length :
    (deriveCommand refCfg .header { idle with pwLen := 0x101 }).err = 3 ∧
    (deriveCommand refCfg .header { idle with pwLen := 0x101 }).errInfo1 = 0x100 := by decide

/-- R167: `PWLEN` and the two valid bits are cleared; the session is kept. -/
theorem test_kdfClear :
    (after (exec .kdfClear beforeReset)).pwLen = 0 ∧
    statusWord (after (exec .kdfClear beforeReset)) = 0x00000276 := by decide

/-! ### SCT unit: session S1 of V11 -/

/-- V11: the alpha bytes FF 00 FF FF 80 FF. -/
def pixS1 : Mem 8 := [(3, 0xFF), (11, 0xFF), (15, 0xFF), (19, 0x80), (23, 0xFF)]

/-- V11: seed 1, 2, 3, 4 and a picture of 3 by 2. -/
def beforeS1 : State := { idle with seed := #v[1, 2, 3, 4], pix := pixS1, arg0 := 3, arg1 := 2 }

/-- V11: the session right after `SC.INIT`. -/
def afterS1 : State := initCommand refCfg beforeS1

/-- V11: `RES0 = 30`, `RES1 = 4`, and layer 0 and the last layer of `POOL`. -/
theorem test_scInit :
    afterS1.res0 = 0x30 ∧ afterS1.res1 = 4 ∧ memReadList afterS1.sc.pool 0 12 =
      [0x50, 0x54, 0x58, 0x30, 0x34, 0x38, 0x20, 0x24, 0x28, 0x00, 0x04, 0x08] ∧
    memReadList afterS1.sc.pool 36 12 =
      [0x53, 0x57, 0x5B, 0x33, 0x37, 0x3B, 0x23, 0x27, 0x2B, 0x03, 0x07, 0x0B] := by decide +kernel

/-- V16: `W = 10000` is `E_OPERAND (10000, FFFF)`. -/
theorem test_scInit_operand :
    (after (exec .scInit { idle with arg0 := 0x10000, arg1 := 1 })).err = 2 ∧
    (after (exec .scInit { idle with arg0 := 0x10000, arg1 := 1 })).errInfo0 = 0x10000 := by decide

/-- V11: free 48 and 24. -/
theorem test_scFree :
    (freeCommand .uniform afterS1).res0 = 0x30 ∧ (freeCommand .shaped afterS1).res0 = 0x18 := by
  decide +kernel

/-- V11: five draws. -/
theorem test_scGen :
    issued 5 (genCommand refCfg .uniform { afterS1 with arg0 := 5 }) = [0x58, 0x5A, 0x0A, 0x3B, 0x24] ∧
    (genCommand refCfg .uniform { afterS1 with arg0 := 5 }).sc.pos = 7 := by decide +kernel

/-- V17: a request of 49 is `E_CAPACITY (31, 30)` and marks the session. -/
theorem test_scGen_capacity :
    (genCommand refCfg .uniform { afterS1 with arg0 := 49 }).err = 5 ∧
    (genCommand refCfg .uniform { afterS1 with arg0 := 49 }).errInfo1 = 0x30 ∧
    (genCommand refCfg .uniform { afterS1 with arg0 := 49 }).sc.fault = true := by decide +kernel

/-- R213. -/
theorem test_scEnd : statusWord (after (exec .scEnd { idle with sc := { idle.sc with valid := true } })) =
    0x00000006 := by decide

/-- V10: the first outputs of sfc32 from (1, 2, 3, 4) and the discard of that seed. -/
theorem test_prng :
    (drawMany refCfg 6 { a := 1, b := 2, c := 3, d := 4 }).2 =
      [0x00000008, 0x00000023, 0x0360006A, 0x0C621D8B, 0xCEC610D9, 0xAE0F8563] ∧
    refDiscard #v[1, 2, 3, 4] = 26 ∧ refDiscard #v[0x007BA086, 0xE47D4F7B, 0xE26CBBBA, 0x2CD0030D] = 452 := by
  decide +kernel

/-- V10: `scale`. -/
theorem test_scale :
    [scale 0xFFFFFFFF 7, scale 0x80000000 1, scale 0x7FFFFFFF 1, scale 0x0BE2FE5C 0x2F, scale 0x83B9B943 0x2E] =
      [7, 1, 0, 2, 24] := by decide

/-- V15: the quotas of the large pool. -/
theorem test_quotas : quotas #v[49152, 49152, 49152, 48888] 98040 = #v[39099, 32699, 18804, 7438] := by decide

/-- V14, V16: the quotas of the smallest budget. -/
theorem test_quotas_small : quotas #v[59, 74, 68, 75] 6 = #v[0, 6, 0, 0] := by decide

/-! ### Flags, acknowledge, reset -/

/-- V17, V18: an unacknowledged error drops a command and sets `WRIGN`. -/
theorem test_dropped_command :
    statusWord (writeReg .cmd 0 (after (exec .eccEnc12 { idle with arg0 := 0x1000 }))) = 0x0000020E := by decide

/-- R287: the acknowledge. -/
theorem test_acknowledge :
    readReg (writeReg .err 0xFFFFFFFF (after (exec .eccEnc12 { idle with arg0 := 0x1000 }))) .errInfo0 = 0 := by
  decide

/-- V18: `STATUS` right after reset and after the first step. -/
theorem test_reset_status :
    statusWord State.reset = 0x00000001 ∧ statusWord (after (step State.reset)) = 0x00000002 := by decide

/-- The first instruction after reset. -/
theorem test_withFetchWord :
    (after (step (State.reset.withFetchWord 32 0x33000000))).cmd = 0x33000000 ∧
    (after (step (State.reset.withFetchWord 32 0x33000000))).done = true ∧
    (after (step (State.reset.withFetchWord 32 0x34000000))).err = 1 := by decide

/-! ### The host -/

/-- R102: the events of two script lines. -/
theorem test_scriptEvents :
    scriptEvents [.wrb .din 4 [0x12, 0x34], .cmd .eccEncb] =
      [.write .din .byte 4 0x12, .write .din .byte 5 0x34, .write .reg .word 4 0x12000000] := by decide

/-- R102: `wait` ends with the read of `STATUS` that finds `BUSY = 0`; V18: it is then 00000006. -/
theorem test_wait_reads_status :
    scriptEvents [.wait] = [.wait, .read .reg .word 0x008] ∧
    (hostRead refCfg .reg .word 0x008 (after (advance (acceptedLast 0)))).rdata = 0x00000006 := by decide

/-- R41, R67, R71: reads of the building block, of `PWBUF` in every width, and of a busy block's `STATUS`. -/
theorem test_reads :
    (hostRead refCfg .reg .word 0x080 State.reset).freeCtr = 0 ∧
    (hostRead refCfg .pwbuf .word 0 { idle with rdata := 7, pwbuf := [(0, 5)] }).rdata = 0 ∧
    (hostRead refCfg .pwbuf .half 1 { idle with rdata := 7, pwbuf := [(1, 5)] }).rdata = 0 ∧
    (hostRead refCfg .reg .word 0x008 (acceptedLast 0)).rdata = 0x00000003 ∧
    (hostRead refCfg .reg .word 0x020 (acceptedLast 0)).freeCtr = 1 := by decide

/-- How a call of the host failed, with `ERR` and `ARG0` as it left them. -/
def failure {α : Type} : Except (HostError × State) α → Option (HostError × Byte × Word)
  | .ok _ => none
  | .error (e, t) => some (e, t.err, t.arg0)

/-- R287, R334: a command of the host that ends in an error is acknowledged, and the call fails with its code. -/
theorem test_host_acknowledges :
    failure (command .eccEnc12 { idle with arg0 := 0x1000 }) = some (.commandFailed 2, 0, 0x1000) := by decide

/-- A dimension of 2^32 fits no register. -/
theorem test_host_cuts_nothing :
    failure (openSession (2 ^ 32) 1 idle) = some (.operandTooWide .arg0 (2 ^ 32), 0, 0) := by decide

/-- P4, R257, R258: byte A5 over eight addresses: the pixel bytes 1E, 14 and 0A of the addresses 58, 57 and 32. -/
theorem test_embedding :
    (List.range 8).map (codeBit [0xA5]) = [true, false, true, false, false, true, false, true] ∧
    slotByte 0x57 = 21 ∧ embedByte 0x57 true 0x14 = 0x1C ∧
    embedByte 0x5A false (embedByte 0x58 true 0x1E) = 0x1B ∧ embedByte 0x32 true 0x0A = 0x0E := by decide

/-- R253, R254: both forms of a header of length 300, read back. -/
theorem test_header :
    headerBytes { typeCode := (0x41, 0x42), length := 300 } = [0x2A, 0x41, 0x42, 0x2A, 0x2C, 0x01, 0x00, 0x00] ∧
    parseHeader (0, 0) [0x2A, 0x41, 0x42, 0x2A, 0x2C, 0x01, 0x00, 0x00] =
      some { typeCode := (0x41, 0x42), length := 300 } ∧
    parseHeader (0, 0) [0x33, 0x30, 0x30] = some { typeCode := (0, 0), length := 300 } ∧
    parseHeader (0, 0) [0x2B, 0x30] = none := by decide

/-- R66: flat host offsets of the spaces, and one outside every space. -/
theorem test_hostMap :
    hostMap refCfg 0x0FC = some (.reg, 0xFC) ∧ hostMap refCfg 0x1005 = some (.pwbuf, 5) ∧
    hostMap refCfg 0x02000007 = some (.dout, 7) ∧ hostMap refCfg 0x03000010 = some (.aout, 16) ∧
    hostMap refCfg 0x100 = none := by decide

/-! ### Witnesses: for each statement with hypotheses, a state and operands that meet them -/

/-- The block idle after the table build. -/
def built : State := buildTables Config.cfg State.reset

theorem built_tables : TablesBuilt built := ⟨buildTables_enc .., buildTables_syn .., buildTables_cor ..⟩

/-- A session of one available pixel, nothing issued yet, and a request of `n`. -/
def smallSession (n : Word) : State :=
  { idle with
    arg0 := n
    sc := { idle.sc with valid := true, avail := 1, total := 12 } }

/-- A session in Shaped mode with one address left, in bucket 1, and a request of `n`. -/
def lastShaped (n : Word) : State :=
  { idle with
    arg0 := n
    sc :=
      { idle.sc with
        valid := true, mode := .shaped, avail := 64, total := 768, used := 383
        rq := #v[0, 1, 0, 0], live := #v[0, 1, 0, 0], laIdx := 0 } }

/-- A session of `m` available pixels, of which `u` slots are spent. -/
def sessionOf (m : Nat) (u : Word) : Scatter :=
  { idle.sc with
    valid := true, avail := BitVec.ofNat 32 m, total := BitVec.ofNat 32 (12 * m), used := u
    pool := memWriteList [] 0 (poolEntries (List.range m).reverse) }

/-- A session of 45 available pixels. -/
def session45 (u : Word) : Scatter := sessionOf 45 u

/-- The block with that session and a request of `n`. -/
def state45 (u n : Word) : State := { idle with sc := session45 u, arg0 := n }

theorem witness_EncodedCommandDecodesToItself : (Instr.tblRdCor 0xFFF).wellFormed = true := rfl

theorem witness_StepRunsTheAcceptedCommand :
    Accepted 0x08002FFF [] (accepted 0x08002FFF) ∧ Accepted 0x08002FFF [] (acceptedLast 0x08002FFF) ∧
    decode 0x08002FFF = .ok (.tblRdCor 0xFFF) ∧ (Instr.tblRdCor 0xFFF).wellFormed = true :=
  ⟨⟨rfl, rfl, rfl, .inl rfl⟩, ⟨rfl, rfl, rfl, .inr ⟨rfl, rfl⟩⟩, rfl, rfl⟩

theorem witness_ReservedOpcodeEndsInEIllegal :
    Accepted 0x34000000 [] (accepted 0x34000000) ∧
    (BitVec.extractLsb' 24 8 (0x34000000 : Word)).toNat ∉ opcodes :=
  ⟨⟨rfl, rfl, rfl, .inl rfl⟩, by decide⟩

theorem witness_ReservedFieldEndsInEIllegal_Z :
    Accepted 0x33000001 [] (accepted 0x33000001) ∧
    (BitVec.extractLsb' 24 8 (0x33000001 : Word)).toNat ∈
      [0x00, 0x01, 0x10, 0x11, 0x12, 0x13, 0x21, 0x30, 0x33] ∧
    BitVec.extractLsb' 0 24 (0x33000001 : Word) ≠ 0 :=
  ⟨⟨rfl, rfl, rfl, .inl rfl⟩, by decide, by decide⟩

theorem witness_ReservedFieldEndsInEIllegal_M :
    Accepted 0x20000002 [] (accepted 0x20000002) ∧
    (BitVec.extractLsb' 24 8 (0x20000002 : Word)).toNat ∈ [0x20, 0x31, 0x32] ∧
    BitVec.extractLsb' 1 23 (0x20000002 : Word) ≠ 0 :=
  ⟨⟨rfl, rfl, rfl, .inl rfl⟩, by decide, by decide⟩

theorem witness_ReservedFieldEndsInEIllegal_T :
    Accepted 0x08004000 [] (accepted 0x08004000) ∧ Accepted 0x08003000 [] (accepted 0x08003000) ∧
    BitVec.extractLsb' 14 10 (0x08004000 : Word) ≠ 0 ∧
    (BitVec.extractLsb' 12 2 (0x08003000 : Word)).toNat = 3 :=
  ⟨⟨rfl, rfl, rfl, .inl rfl⟩, ⟨rfl, rfl, rfl, .inl rfl⟩, by decide, by decide⟩

theorem witness_IdleBlockIsQuiescent : idle.busy = false ∧ idle.input = [] := ⟨rfl, rfl⟩

theorem witness_TableBuildFillsTheFoldTables :
    State.reset.busy = true ∧ State.reset.tblReady = false ∧ State.reset.input = [] ∧
    { State.reset with input := [.wait] }.input = .wait :: [] := ⟨rfl, rfl, rfl, rfl⟩

theorem witness_CorrectionTableHoldsTheLastPattern : TablesBuilt built := built_tables

/-- The weight-4 pattern whose lowest bit is the highest there is. -/
theorem witness_ErrorPatternsHaveWeightOneToFour :
    TablesBuilt built ∧ popcount (0xF00000 : Code) = 4 ∧
    ∀ e' : Code, popcount e' = 4 → e' ≠ 0xF00000 →
      ∃ n, e'.getLsbD n = true ∧ ∀ m ≤ n, (0xF00000 : Code).getLsbD m = false := by
  refine ⟨built_tables, by decide, fun e' h4 hne => ?_⟩
  by_contra hno
  have hlow : ∀ n < 20, e'.getLsbD n = false := by
    intro n hn
    by_contra hb
    refine hno ⟨n, by simpa using hb, fun m hm => ?_⟩
    have hall : ∀ m < 20, (0xF00000 : Code).getLsbD m = false := by decide
    exact hall m (by omega)
  have h0 : (List.range 20).countP (fun n => e'.getLsbD n) = 0 :=
    List.countP_eq_zero.mpr fun n hn => by simp [hlow n (List.mem_range.mp hn)]
  have hsplit : List.range 24 = List.range 20 ++ [20, 21, 22, 23] := by decide
  rw [popcount, hsplit, List.countP_append, h0] at h4
  refine hne (BitVec.eq_of_getLsbD_eq fun n hn => ?_)
  by_cases h : n < 20
  · have hall : ∀ m < 20, (0xF00000 : Code).getLsbD m = false := by decide
    rw [hlow n h, hall n h]
  · have hall : ∀ m < 24, 20 ≤ m → (0xF00000 : Code).getLsbD m = true := by decide
    rw [hall n hn (by omega)]
    refine List.countP_eq_length.mp ((Nat.zero_add _).symm.trans h4) n ?_
    simp only [List.mem_cons, List.not_mem_nil, or_false]
    omega

theorem witness_Enc12GivesTheCodeword : { idle with arg0 := 0xFFF }.arg0.toNat ≤ 0xFFF := by decide

theorem witness_Dec24CorrectsByTheSyndrome :
    ({ idle with arg0 := 0xFFFFFF } : State).arg0.toNat ≤ 0xFFFFFF ∧
    (0xFFF : Sym) = BitVec.ofNat 12 (({ idle with arg0 := 0xFFFFFF } : State).arg0.toNat / 2 ^ 12) ∧
    (0xFFF : Sym) = BitVec.ofNat 12 (({ idle with arg0 := 0xFFFFFF } : State).arg0.toNat % 2 ^ 12) := by
  decide

theorem witness_EncbWritesTheCodewords :
    1 = ({ idle with arg0 := 1 } : State).arg0.toNat ∧ 1 = (1 + 1) * 8 / 12 ∧
    1 ≤ Config.cfg.dbufMax ∧ 3 * 1 ≤ Config.cfg.dbufMax := by
  have h := Config.cfg_admissible.dbufMax_ge
  exact ⟨rfl, rfl, by omega, by omega⟩

/-- The codeword FFAEC1 in `DIN`. -/
def oneCodeword : State := { idle with arg0 := 1, din := [(0, 0xFF), (1, 0xAE), (2, 0xC1)] }

theorem witness_DecbWritesTheCorrectedBytes :
    1 = oneCodeword.arg0.toNat ∧ 1 = (1 + 1) * 8 / 12 ∧ 1 ≤ Config.cfg.dbufMax ∧ 3 * 1 ≤ Config.cfg.dbufMax ∧
    ∀ k < 1, (0xFFAEC1 : Code).toNat = (memRead oneCodeword.din (3 * k)).toNat * 2 ^ 16 +
      (memRead oneCodeword.din (3 * k + 1)).toNat * 2 ^ 8 + (memRead oneCodeword.din (3 * k + 2)).toNat := by
  have h := Config.cfg_admissible.dbufMax_ge
  exact ⟨rfl, rfl, by omega, by omega, by decide⟩

theorem witness_EccOperandErrors :
    0xFFF < ({ idle with arg0 := 0x1000 } : State).arg0.toNat ∧
    0xFFFFFF < ({ idle with arg0 := 0x1000000 } : State).arg0.toNat ∧
    Config.cfg.dbufMax < ({ idle with arg0 := 0xFFFFFFFF } : State).arg0.toNat := by
  have h := Config.cfg_admissible.dbufMax_le
  refine ⟨by decide, by decide, ?_⟩
  show Config.cfg.dbufMax < 0xFFFFFFFF
  omega

/-- A length that fits `DIN` while its codewords do not fit `DOUT`. -/
theorem witness_EccOperandErrors_output :
    (BitVec.ofNat 32 Config.cfg.dbufMax).toNat ≤ Config.cfg.dbufMax ∧
    Config.cfg.dbufMax < 3 * (((BitVec.ofNat 32 Config.cfg.dbufMax).toNat + 1) * 8 / 12) := by
  have h := Config.cfg_admissible.dbufMax_le
  have h' := Config.cfg_admissible.dbufMax_ge
  rw [BitVec.toNat_ofNat, Nat.mod_eq_of_lt (by omega)]
  omega

theorem witness_EncodedWordDecodesBack :
    TablesBuilt { built with arg0 := 0xFFF } ∧ ({ built with arg0 := 0xFFF } : State).arg0.toNat ≤ 0xFFF :=
  ⟨⟨by simp only [built_tables.enc], by simp only [built_tables.syn], by simp only [built_tables.cor]⟩, by decide⟩

/-- The codeword of FFF with its three lowest bits flipped. -/
def threeErrors : State :=
  { built with arg0 := (codeword Config.cfg.gen 0xFFF ^^^ 0x000007).setWidth 32 }

theorem threeErrors_tables : TablesBuilt threeErrors := by
  constructor <;> simp only [threeErrors, built_tables.enc, built_tables.syn, built_tables.cor]

theorem witness_ThreeBitErrorsAreCorrected :
    TablesBuilt threeErrors ∧ popcount (0x000007 : Code) ≤ 3 ∧
    threeErrors.arg0 = (codeword Config.cfg.gen 0xFFF ^^^ 0x000007).setWidth 32 :=
  ⟨threeErrors_tables, by decide, rfl⟩

/-- One byte to encode. -/
def oneByte : State := { built with arg0 := 1, din := [(0, 0xFF)] }

/-- Its codewords, copied back to `DIN`. -/
def oneByteBack : State := { encbCommand Config.cfg oneByte with din := (encbCommand Config.cfg oneByte).dout }

theorem oneByte_tables : TablesBuilt oneByte := by
  constructor <;> simp only [oneByte, built_tables.enc, built_tables.syn, built_tables.cor]

theorem witness_EncodedBytesDecodeBack :
    TablesBuilt oneByte ∧ oneByte.arg0.toNat ≤ Config.cfg.dbufMax ∧
    3 * nsym oneByte.arg0.toNat ≤ Config.cfg.dbufMax ∧
    exec .eccEncb oneByte = .next (encbCommand Config.cfg oneByte) ∧
    oneByteBack = { encbCommand Config.cfg oneByte with din := oneByteBack.din } ∧
    ∀ a < 3 * nsym oneByte.arg0.toNat,
      memRead oneByteBack.din a = memRead (encbCommand Config.cfg oneByte).dout a := by
  have h := Config.cfg_admissible.dbufMax_ge
  have h1 : oneByte.arg0.toNat = 1 := rfl
  have h2 : 3 * nsym oneByte.arg0.toNat = 3 := rfl
  exact ⟨oneByte_tables, by omega, by omega, rfl, rfl, fun _ _ => by simp only [oneByteBack]⟩

theorem witness_RepackingFollowsTheBitStream : 0 < nsym [0xFF].length ∧ 11 < 12 ∧ 7 < 8 := by decide

theorem witness_PayloadDerivationStoresKeyAndIv :
    ({ idle with pwLen := 1 } : State).pwLen.toNat ≤ Config.cfg.pwMax := Config.cfg_admissible.pwMax_pos

theorem witness_HeaderDerivationStoresKeyIvAndSeed :
    ({ idle with pwLen := 1 } : State).pwLen.toNat ≤ Config.cfg.pwMax := Config.cfg_admissible.pwMax_pos

theorem witness_ScInitStartsASession :
    ({ idle with arg0 := 0xFFFF, arg1 := 0 } : State).arg0.toNat ≤ 0xFFFF ∧
    ({ idle with arg0 := 0xFFFF, arg1 := 0 } : State).arg1.toNat ≤ 0xFFFF ∧
    ({ idle with arg0 := 0xFFFF, arg1 := 0 } : State).arg0.toNat *
      ({ idle with arg0 := 0xFFFF, arg1 := 0 } : State).arg1.toNat ≤ Config.cfg.pixMax :=
  ⟨by decide, by decide, Nat.zero_le _⟩

/-- One opaque pixel. -/
def onePixel : State := { idle with arg0 := 1, arg1 := 1, pix := [(3, 0xFF)] }

/-- In every configuration with room for a pixel at all (section 4 sets no lower bound for `PIX_MAX`). -/
theorem witness_ScInitStartsASession_onePixel (h : 1 ≤ Config.cfg.pixMax) :
    onePixel.arg0.toNat ≤ 0xFFFF ∧ onePixel.arg1.toNat ≤ 0xFFFF ∧
    onePixel.arg0.toNat * onePixel.arg1.toNat ≤ Config.cfg.pixMax ∧
    [0] = scanPixels onePixel.pix (onePixel.arg0.toNat * onePixel.arg1.toNat) ∧
    [0][0]? = some 0 ∧ 2 < 3 ∧ 3 < 4 :=
  ⟨by decide, by decide, h, by decide, rfl, by decide, by decide⟩

theorem witness_ScInitErrors_operand :
    0xFFFF < ({ idle with arg0 := 0x10000 } : State).arg0.toNat ∧
    0xFFFF < ({ idle with arg1 := 0x10000 } : State).arg1.toNat := by decide

theorem witness_ScInitErrors_length :
    ({ idle with arg0 := 0xFFFF, arg1 := 0xFFFF } : State).arg0.toNat ≤ 0xFFFF ∧
    ({ idle with arg0 := 0xFFFF, arg1 := 0xFFFF } : State).arg1.toNat ≤ 0xFFFF ∧
    Config.cfg.pixMax < ({ idle with arg0 := 0xFFFF, arg1 := 0xFFFF } : State).arg0.toNat *
      ({ idle with arg0 := 0xFFFF, arg1 := 0xFFFF } : State).arg1.toNat := by
  refine ⟨by decide, by decide, ?_⟩
  show Config.cfg.pixMax < 0xFFFF * 0xFFFF
  have h := Config.cfg_admissible.pixMax_le
  omega

theorem witness_ScFreeReportsFreeSlots :
    (smallSession 0).sc.valid = true ∧ (smallSession 0).sc.fault = false ∧
    (smallSession 0).sc.mode = .uniform ∧ (lastShaped 0).sc.valid = true ∧
    (lastShaped 0).sc.fault = false ∧ (lastShaped 0).sc.mode = .shaped := by decide

theorem witness_NoSessionEndsInENoSession :
    idle.sc.valid = false ∧ beforeReset.sc.valid = true ∧ beforeReset.sc.fault = true := by decide

theorem grantable_small : Grantable .uniform (smallSession 1) :=
  ⟨rfl, rfl, Nat.le_trans (by decide) Config.cfg_admissible.aoutMax_ge, by decide, by decide⟩

theorem grantable_lastShaped : Grantable .shaped (lastShaped 1) :=
  ⟨rfl, rfl, Nat.le_trans (by decide) Config.cfg_admissible.aoutMax_ge, by decide, by decide⟩

theorem witness_ScGenIssuesTheAddresses :
    Grantable .uniform (smallSession 1) ∧ Grantable .shaped (lastShaped 1) :=
  ⟨grantable_small, grantable_lastShaped⟩

theorem witness_UniformDrawTakesTheOffsetPosition :
    Grantable .uniform (smallSession 1) ∧ (smallSession 1).sc.mode = .uniform ∧ (smallSession 1).arg0 = 1 ∧
    12 = (smallSession 1).sc.total.toNat - (smallSession 1).sc.used.toNat :=
  ⟨grantable_small, rfl, rfl, rfl⟩

theorem witness_ShapedDrawTakesFromTheSelectedBucket :
    Grantable .shaped (lastShaped 1) ∧ (lastShaped 1).sc.mode = .shaped ∧ (lastShaped 1).arg0 = 1 ∧
    (lastShaped 1).sc.laIdx < laLen ∧
    (0 : Fin 4) = (lastShaped 1).sc.la.getD (lastShaped 1).sc.laIdx 0 ∧ 1 < 4 ∧
    (1 : Fin 4) = 0 + Fin.ofNat 4 1 ∧ (lastShaped 1).sc.rq[(1 : Fin 4)] ≠ 0 ∧
    (∀ e < 1, (lastShaped 1).sc.rq[(0 : Fin 4) + Fin.ofNat 4 e] = 0) ∧
    (lastShaped 1).sc.live[(1 : Fin 4)] ≠ 0 :=
  ⟨grantable_lastShaped, rfl, rfl, by decide, rfl, by decide, rfl, by decide, by decide, by decide⟩

/-- A session in Shaped mode whose lookahead is used up and whose buckets have one address each. -/
def beforeRefill : State :=
  { idle with
    arg0 := 1
    sc :=
      { idle.sc with
        valid := true, mode := .shaped, avail := 64, total := 768, used := 380
        rq := Vector.replicate 4 1, live := Vector.replicate 4 1, base := #v[0, 1, 2, 3] } }

/-- Whatever bucket the refilled lookahead gives, it has quota. -/
theorem witness_ShapedDrawTakesFromTheSelectedBucket_refill :
    Grantable .shaped beforeRefill ∧ beforeRefill.sc.mode = .shaped ∧ beforeRefill.arg0 = 1 ∧
    beforeRefill.sc.laIdx = laLen ∧
    (refill Config.cfg beforeRefill.sc).la.length = laLen ∧
    (∀ t < laLen, ∀ v,
      v = (Config.cfg.prngStep (prngAfter Config.cfg beforeRefill.sc.prng t)).2.toNat *
        (beforeRefill.sc.rq[0].toNat + beforeRefill.sc.rq[1].toNat + beforeRefill.sc.rq[2].toNat +
          beforeRefill.sc.rq[3].toNat) / 2 ^ 32 →
      ((refill Config.cfg beforeRefill.sc).la.getD t 0).val =
        if v < beforeRefill.sc.rq[0].toNat then 0
        else if v < beforeRefill.sc.rq[0].toNat + beforeRefill.sc.rq[1].toNat then 1
        else if v < beforeRefill.sc.rq[0].toNat + beforeRefill.sc.rq[1].toNat + beforeRefill.sc.rq[2].toNat then 2
        else 3) ∧
    ∀ k : Fin 4, k = k + Fin.ofNat 4 0 ∧ beforeRefill.sc.rq[k] ≠ 0 ∧ beforeRefill.sc.live[k] ≠ 0 := by
  refine ⟨⟨rfl, rfl, Nat.le_trans (by decide) Config.cfg_admissible.aoutMax_ge, by decide, by decide⟩, rfl, rfl, rfl,
    refill_la_length .., fun t ht v hv => ?_, by decide⟩
  rw [refill_la_getD _ _ _ ht, bucketOfSample_val, hv]
  rfl

/-- In every configuration whose `AOUT_MAX` a request can exceed (section 4 sets no upper bound for it). -/
theorem witness_RefusedRequest_length (h : Config.cfg.aoutMax < 0xFFFFFFFF) :
    (smallSession 0xFFFFFFFF).sc.valid = true ∧ (smallSession 0xFFFFFFFF).sc.fault = false ∧
    Config.cfg.aoutMax < (smallSession 0xFFFFFFFF).arg0.toNat := ⟨rfl, rfl, h⟩

theorem witness_RefusedRequest_regress :
    (lastShaped 0).sc.valid = true ∧ (lastShaped 0).sc.fault = false ∧
    (lastShaped 0).arg0.toNat ≤ Config.cfg.aoutMax ∧ (lastShaped 0).sc.mode = .shaped :=
  ⟨rfl, rfl, Nat.zero_le _, rfl⟩

theorem witness_RefusedRequest_capacity :
    (smallSession 13).sc.valid = true ∧ (smallSession 13).sc.fault = false ∧
    (smallSession 13).arg0.toNat ≤ Config.cfg.aoutMax ∧
    ¬(Mode.uniform = .uniform ∧ (smallSession 13).sc.mode = .shaped) ∧
    freeSpace (smallSession 13).sc .uniform < (smallSession 13).arg0.toNat :=
  ⟨rfl, rfl, Nat.le_trans (by decide) Config.cfg_admissible.aoutMax_ge, by decide, by decide⟩

/-- A picture of 44 opaque pixels: the whole Shaped budget lies in the header region (V16). -/
def state44 : State :=
  { idle with arg0 := 264, sc := { idle.sc with valid := true, avail := 44, total := 528 } }

theorem witness_HeaderRegionIsAlwaysUniform :
    Grantable .shaped state44 ∧ state44.sc.mode = .uniform ∧
    state44.sc.used.toNat + state44.arg0.toNat ≤ headerSlots :=
  ⟨⟨rfl, rfl, Nat.le_trans (by decide) Config.cfg_admissible.aoutMax_ge, by decide, by decide⟩, rfl, by decide⟩

theorem pixels_nodup (m : Nat) (h : m ≤ 2 ^ 28) :
    (List.range m).reverse.Nodup ∧ ∀ p ∈ (List.range m).reverse, p < 2 ^ 28 :=
  ⟨List.nodup_reverse.mpr List.nodup_range, by simp; omega⟩

theorem sessionOf_total (m : Nat) (u : Word) (h : m ≤ 2 ^ 28) : (sessionOf m u).total.toNat = 12 * m := by
  simp only [sessionOf, BitVec.toNat_ofNat]
  omega

theorem sessionOf_avail (m : Nat) (u : Word) (h : m ≤ 2 ^ 28) : (sessionOf m u).avail.toNat = m := by
  simp only [sessionOf, BitVec.toNat_ofNat]
  omega

/-- The live window of such a session is a part of the pool of its start. -/
theorem sessionOf_window (m : Nat) (u : Word) (h : m ≤ 2 ^ 28) :
    liveWindow (sessionOf m u) = (poolEntries (List.range m).reverse).take (12 * m - u.toNat) := by
  have hr : remaining (sessionOf m u) = 12 * m - u.toNat := by rw [remaining, sessionOf_total m u h]; rfl
  have hm := memReadList_memWriteList [] 0 (poolEntries (List.range m).reverse) 0 (12 * m - u.toNat) (by simp)
  rw [liveWindow, hr]
  simpa [sessionOf] using hm

theorem sessionOf_sound (m : Nat) (u : Word) (h : m ≤ 2 ^ 28) (hu : u.toNat ≤ 12 * m) :
    SessionSound (sessionOf m u) where
  total_eq := by rw [sessionOf_total m u h, sessionOf_avail m u h]
  avail_le := by rw [sessionOf_avail m u h]; exact h
  used_le := by rw [sessionOf_total m u h]; exact hu
  la_length := by simp [sessionOf, idle, State.reset, Scatter.reset]
  laIdx_le := Nat.le_refl _
  uniform_layers := fun _ k hk => by
    rw [sessionOf_window m u h, sessionOf_avail m u h]
    refine Nat.le_trans (layerCount_take_le _ _ _) ?_
    rw [layerCount_poolEntries (pixels_nodup m h).2 hk]
    simp
  shaped_header := fun h => nomatch h
  shaped_budget := fun h => nomatch h
  shaped_quota := fun h => nomatch h
  shaped_order := fun h => nomatch h
  shaped_end := fun h => nomatch h
  distinct := by
    have hn := (List.take_sublist (12 * m - u.toNat) _).nodup
      (poolEntries_nodup (pixels_nodup m h).1 (pixels_nodup m h).2)
    rw [← sessionOf_window m u h] at hn
    exact hn

theorem sound45 : SessionSound (session45 264) := sessionOf_sound 45 264 (by decide) (by decide)

/-- A request right after the header region: the switch comes with its first address. -/
theorem witness_SplitRequestsIssueTheSameAddresses :
    SessionSound (state45 264 0).sc ∧ ((1 : Word) + 5).toNat = (1 : Word).toNat + (5 : Word).toNat ∧
    Grantable .shaped { state45 264 0 with arg0 := 1 + 5 } :=
  ⟨sound45, by decide,
    ⟨rfl, rfl, Nat.le_trans (by decide) Config.cfg_admissible.aoutMax_ge, by decide, by decide⟩⟩

theorem witness_IssuedAddressesNeverRepeat :
    SessionSound (state45 264 6).sc ∧ Grantable .shaped (state45 264 6) :=
  ⟨sound45, ⟨rfl, rfl, Nat.le_trans (by decide) Config.cfg_admissible.aoutMax_ge, by decide, by decide⟩⟩

theorem witness_FreeSpaceFallsByTheNumberIssued :
    SessionSound (state45 264 6).sc ∧ Grantable .shaped (state45 264 6) := witness_IssuedAddressesNeverRepeat

theorem witness_ShapedCapacityIsHalfAtTheStart (h : 1 ≤ Config.cfg.pixMax) :
    onePixel.arg0.toNat ≤ 0xFFFF ∧ onePixel.arg1.toNat ≤ 0xFFFF ∧
    onePixel.arg0.toNat * onePixel.arg1.toNat ≤ Config.cfg.pixMax := ⟨by decide, by decide, h⟩

/-- A pool that is sorted. -/
theorem witness_SwitchPartitionsTheLiveWindow :
    SessionSound (session45 264) ∧ (session45 264).mode = .uniform ∧
    headerSlots ≤ (session45 264).used.toNat ∧ (session45 264).avail.toNat < sortPixels ∧
    (state45 264 6).sc = session45 264 ∧ Grantable .shaped (state45 264 6) ∧ 1 ≤ (state45 264 6).arg0.toNat :=
  ⟨sound45, rfl, by decide, by decide, rfl, witness_IssuedAddressesNeverRepeat.2, by decide⟩

/-- The smallest pool that is not sorted. -/
theorem witness_SwitchPartitionsTheLiveWindow_large :
    SessionSound (sessionOf 16384 264) ∧ (sessionOf 16384 264).mode = .uniform ∧
    headerSlots ≤ (sessionOf 16384 264).used.toNat ∧ sortPixels ≤ (sessionOf 16384 264).avail.toNat :=
  ⟨sessionOf_sound 16384 264 (by decide) (by decide), rfl, Nat.le_refl _, by decide⟩

/-- `SC.END` accepted in a Shaped session. -/
def endingShaped : State := { lastShaped 0 with busy := true, cmd := 0x33000000 }

theorem witness_ShapedNeverReturnsToUniform :
    (∃ t, step endingShaped = .next t ∧ t.sc.mode = .uniform) ∧ endingShaped.sc.mode = .shaped :=
  ⟨⟨_, rfl, rfl⟩, rfl⟩

theorem witness_ErrorsArePrecise : idle.err = 0 := rfl

theorem witness_CommandsWriteOnlyTheirOwnState :
    exec .nop idle = .next (endCommand idle) ∧
    exec (.scGen .uniform) idle = .next (genCommand Config.cfg .uniform idle) := ⟨rfl, rfl⟩

theorem witness_CmdWriteIsAcceptedOrDropped :
    { idle with input := [.write .reg .word 0x004 0x10000000] }.busy = false ∧ idle.err = 0 ∧
    { idle with input := [.write .reg .word 0x004 0x10000000], err := 1 }.err ≠ 0 := by decide

theorem witness_AcknowledgeClearsTheError :
    { idle with input := [.write .reg .word 0x00C 0], err := 6 }.busy = false := rfl

theorem witness_BusyWritesAreDroppedAndFlagged :
    (accepted 0).busy = true ∧ inSpace Config.cfg .reg 0xFF = true ∧ inSpace Config.cfg .din 2 = true ∧
    inSpace Config.cfg .pwbuf 0 = true ∧ inSpace Config.cfg .dout 2 = true ∧
    inSpace Config.cfg .aout 1055 = true := by
  have h1 := Config.cfg_admissible.dbufMax_ge
  have h2 := Config.cfg_admissible.pwMax_pos
  have h3 := Config.cfg_admissible.aoutMax_ge
  refine ⟨rfl, rfl, ?_, ?_, ?_, ?_⟩ <;> simp only [inSpace, spaceSize, decide_eq_true_eq] <;> omega

/-- The idle block with one event of the host. -/
def facing (e : HostEvent) : State := { idle with input := [e] }

/-- Every register clause, and the byte clauses at the last offset of their space. -/
theorem witness_WrittenRegistersReadBack (e : HostEvent) :
    (facing e).busy = false ∧ (facing e).input = e :: [] ∧ 0x030 + 4 * (3 : Fin 4).val = 0x03C ∧
    Config.cfg.pwMax - 1 < Config.cfg.pwMax ∧ Config.cfg.dbufMax - 1 < Config.cfg.dbufMax ∧
    Config.cfg.aoutMax - 1 < Config.cfg.aoutMax := by
  have h1 := Config.cfg_admissible.dbufMax_ge
  have h2 := Config.cfg_admissible.pwMax_pos
  have h3 := Config.cfg_admissible.aoutMax_ge
  exact ⟨rfl, rfl, rfl, by omega, by omega, by omega⟩

theorem witness_RegisterMapFindsEveryRegister (r : Reg) :
    (facing (.read .reg .word (regOffset r))).busy = false ∧
    { State.reset with input := [.read .reg .word (regOffset r)] }.tblReady = false ∧
    { accepted 0 with input := [.read .reg .word (regOffset .ctrl)] }.input =
      .read .reg .word (regOffset .ctrl) :: [] := ⟨rfl, rfl, rfl⟩

theorem witness_ReservedOffsetsReadZeroAndIgnoreWrites :
    (∀ off ∈ [0x0B0, 0x0BC, 0x0F0, 0x0FC],
      (0x0B0 ≤ off ∧ off ≤ 0x0BC ∨ 0x0F0 ≤ off ∧ off ≤ 0x0FC) ∧ off % 4 = 0) ∧
    { idle with input := [.read .reg .word 0x0FC] }.busy = false := by decide

theorem witness_HardwareResetFromAnyState :
    { lastShaped 0 with input := [.hwReset { din := [1], dout := [2], aout := [3], pool := [], la := [] }] }.input =
      .hwReset { din := [1], dout := [2], aout := [3], pool := [], la := [] } :: [] := rfl

/-- An idle block with a byte of password. -/
def withPassword : State := { built with pwbuf := [(0, 0x70)] }

theorem witness_StepKeepsMemoriesCanonical :
    MemoriesCanonical withPassword ∧ step withPassword = .next withPassword := by
  refine ⟨⟨by decide, ?_, by decide, by nofun, by decide, by nofun, by decide, by nofun, by decide, by decide⟩, rfl⟩
  intro c hc
  have h := Config.cfg_admissible.pwMax_pos
  rw [List.mem_singleton.mp hc]
  exact h

theorem witness_StepKeepsRegistersConsistent :
    RegistersConsistent withPassword ∧ step withPassword = .next withPassword := by
  refine ⟨?_, rfl⟩
  have ht : TablesBuilt withPassword := by
    constructor <;> simp only [withPassword, built_tables.enc, built_tables.syn, built_tables.cor]
  exact ⟨by decide, fun _ => ⟨rfl, rfl⟩, nofun, nofun, nofun, fun _ => ht, fun _ => ⟨rfl, rfl⟩,
    fun _ => ⟨rfl, rfl⟩, fun _ => ⟨rfl, rfl, rfl, rfl, rfl, rfl⟩, fun _ => ⟨rfl, rfl, rfl⟩, rfl, rfl, rfl, rfl⟩

theorem witness_StepKeepsTheSessionSound :
    SessionSound (state45 264 6).sc ∧ step (state45 264 6) = .next (state45 264 6) := ⟨sound45, rfl⟩

/-- In every configuration with room for 45 pixels. -/
theorem witness_StepKeepsTheSessionSound_fits (h : 45 ≤ Config.cfg.pixMax) : PoolFits (state45 264 6).sc := by
  refine ⟨h, fun c hc => ?_⟩
  have hb : ∀ c ∈ (session45 264).pool, c.1 < 540 := by decide +kernel
  have := hb c hc
  simp only [Cfg.poolMax]
  omega

end Sys2Proof.Tests
end

section
/-! SUPPORT. What the block's operations do to its memory spaces: the lengths of the runs they write, the pool through
a draw, and, command by command and event by event, that every space stays canonical and in its bounds
(`spec/10_state.md` R40, `spec/20_memory.md` R66, R80). -/

namespace Sys2Proof.Proofs

open Sys2Proof.Machine Sys2Proof.Safety Sys2Proof.Laws

/-! ### The runs of units that are written -/

theorem wf_nil (w : Nat) : Mem.wf ([] : Mem w) := ⟨List.Pairwise.nil, by simp⟩

theorem within_nil (w n : Nat) : Mem.within ([] : Mem w) n := by simp

/-- A memory filled from address 0 by at most `n` units lies within `n`. -/
theorem memWriteList_nil_take_within {w : Nat} (vs : List (BitVec w)) (n : Nat) :
    (memWriteList [] 0 (vs.take n)).within n :=
  memWriteList_within (within_nil w n) 0 _ (by simp)

theorem clearPwbuf_wf (c : Cfg) {m : Mem 8} (h : m.wf) : (clearPwbuf c m).wf := memWriteList_wf h 0 _

theorem clearPwbuf_within (c : Cfg) {m : Mem 8} (h : m.within c.pwMax) :
    (clearPwbuf c m).within c.pwMax :=
  memWriteList_within h 0 _ (by simp)

@[simp] theorem packSymbols_length (bs : List Byte) : (packSymbols bs).length = nsym bs.length := by
  simp [packSymbols]

/-- R142: three bytes for each symbol. -/
@[simp] theorem encodeBytes_length (enc : Table) (bs : List Byte) :
    (encodeBytes enc bs).length = 3 * nsym bs.length := by
  have three : ∀ w ∈ packSymbols bs, (codeBytes (encode12 enc w)).length = 3 := fun _ _ => rfl
  rw [encodeBytes, List.length_flatMap, List.map_congr_left three]
  simp [Nat.mul_comm]

/-- R144: one byte for each address below the original length. -/
@[simp] theorem decodeBytes_length (syn cor : Table) (bs : List Byte) (L : Nat) :
    (decodeBytes syn cor bs L).length = L := by
  simp [decodeBytes, unpackBytes]

/-! ### The pool through a draw -/

/-- R203, R204: the switch rewrites the live window of a small pool and moves nothing in a large one. -/
theorem switchToShaped_pool (x : Scatter) :
    (switchToShaped x).pool =
      if x.avail.toNat < sortPixels then memWriteList x.pool 0 (sortByLayer (liveWindow x))
      else x.pool := by
  by_cases h : x.avail.toNat < sortPixels
  · simp only [switchToShaped, if_pos h, sortSwitch]
  · simp only [switchToShaped, if_neg h, positionSwitch]

@[simp] theorem ensureLookahead_pool (c : Cfg) (x : Scatter) : (ensureLookahead c x).pool = x.pool := by
  by_cases h : x.laIdx = laLen
  · simp only [ensureLookahead, if_pos h, refill]
  · simp only [ensureLookahead, if_neg h]

theorem uniformDraw_pool_wf (c : Cfg) {x : Scatter} (h : x.pool.wf) : (uniformDraw c x).1.pool.wf :=
  memWrite_wf h _ _

theorem switchToShaped_pool_wf {x : Scatter} (h : x.pool.wf) : (switchToShaped x).pool.wf := by
  rw [switchToShaped_pool]
  split
  · exact memWriteList_wf h 0 _
  · exact h

theorem shapedDraw_pool_wf (c : Cfg) {x : Scatter} (h : x.pool.wf) : (shapedDraw c x).1.pool.wf := by
  have hy : (ensureLookahead c x).pool.wf := by rwa [ensureLookahead_pool]
  exact memWrite_wf hy _ _

theorem drawSlot_pool_wf (c : Cfg) (m : Mode) {x : Scatter} (h : x.pool.wf) :
    (drawSlot c m x).1.pool.wf := by
  rcases drawSlot_cases c m x with ⟨_, hd⟩ | ⟨_, _, hd⟩ | ⟨_, _, hd⟩
  · rw [hd]
    exact shapedDraw_pool_wf c (switchToShaped_pool_wf h)
  · rw [hd]
    exact uniformDraw_pool_wf c h
  · rw [hd]
    exact shapedDraw_pool_wf c h

/-- R212: a request of any length keeps the pool canonical. -/
theorem drawSlots_pool_wf (c : Cfg) (m : Mode) (n : Nat) {x : Scatter} (h : x.pool.wf) :
    (drawSlots c m n x).1.pool.wf := by
  induction n generalizing x with
  | zero => exact h
  | succ n ih => exact ih (drawSlot_pool_wf c m h)

/-! ### The commands -/

variable {s t : State}

theorem endCommand_canonical (h : MemoriesCanonical s) : MemoriesCanonical (endCommand s) := { h with }

theorem raise_canonical (h : MemoriesCanonical s) (e : CmdError) (i0 i1 : Word) :
    MemoriesCanonical (raise e i0 i1 s) := { h with }

/-- A command that answers in `RES0` and `RES1` alone. -/
theorem results_canonical (h : MemoriesCanonical s) (r0 r1 : Word) :
    MemoriesCanonical (endCommand { s with res0 := r0, res1 := r1 }) := { h with }

theorem softReset_canonical (h : MemoriesCanonical s) :
    MemoriesCanonical (softReset Config.cfg s) :=
  { h with
    pwbuf_wf := clearPwbuf_wf _ h.pwbuf_wf
    pwbuf_within := clearPwbuf_within _ h.pwbuf_within }

theorem clearKeys_canonical (h : MemoriesCanonical s) :
    MemoriesCanonical (clearKeys Config.cfg s) :=
  { h with
    pwbuf_wf := clearPwbuf_wf _ h.pwbuf_wf
    pwbuf_within := clearPwbuf_within _ h.pwbuf_within }

theorem enc12Command_canonical (h : MemoriesCanonical s) : MemoriesCanonical (enc12Command s) := by
  rcases enc12Command_cases s with ⟨_, hc⟩ | ⟨_, hc⟩
  · rw [hc]
    exact results_canonical h _ s.res1
  · rw [hc]
    exact raise_canonical h _ _ _

theorem dec24Command_canonical (h : MemoriesCanonical s) : MemoriesCanonical (dec24Command s) := by
  rcases dec24Command_cases s with ⟨_, hc⟩ | ⟨_, hc⟩
  · rw [hc]
    exact results_canonical h _ _
  · rw [hc]
    exact raise_canonical h _ _ _

/-- The effect of a byte command: a run of bytes that fits `DOUT`, and the two results. -/
theorem doutWrite_canonical (h : MemoriesCanonical s) {bs : List Byte}
    (hfit : bs.length ≤ Config.cfg.dbufMax) (r0 r1 : Word) :
    MemoriesCanonical
      (endCommand { s with dout := memWriteList s.dout 0 bs, res0 := r0, res1 := r1 }) :=
  { h with
    dout_wf := memWriteList_wf h.dout_wf 0 bs
    dout_within := memWriteList_within h.dout_within 0 bs (by omega) }

theorem encbCommand_canonical (h : MemoriesCanonical s) :
    MemoriesCanonical (encbCommand Config.cfg s) := by
  rcases encbCommand_cases Config.cfg s with ⟨hok, hc⟩ | ⟨_, hc⟩
  · obtain ⟨_, hout⟩ := (eccLengthOk_iff _ _).mp hok
    rw [hc]
    exact doutWrite_canonical h (by simpa using hout) _ _
  · rw [hc]
    exact raise_canonical h _ _ _

theorem decbCommand_canonical (h : MemoriesCanonical s) :
    MemoriesCanonical (decbCommand Config.cfg s) := by
  rcases decbCommand_cases Config.cfg s with ⟨hok, hc⟩ | ⟨_, hc⟩
  · obtain ⟨hlen, _⟩ := (eccLengthOk_iff _ _).mp hok
    rw [hc]
    exact doutWrite_canonical h (by simpa using hlen) _ _
  · rw [hc]
    exact raise_canonical h _ _ _

theorem deriveCommand_canonical (h : MemoriesCanonical s) (m : Context) :
    MemoriesCanonical (deriveCommand Config.cfg m s) := by
  rcases deriveCommand_cases Config.cfg m s with ⟨_, hc⟩ | ⟨_, hc⟩
  · obtain ⟨_, _, _, _, _, _, _, hrun⟩ :=
      kdfRun_frame Config.cfg m (saltedPassword Config.cfg m (passwordBytes s)) s
    rw [hc, hrun]
    exact { h with }
  · rw [hc]
    exact raise_canonical h _ _ _

/-- R210: the pool of a new session is written over the old one. -/
theorem initCommand_canonical (h : MemoriesCanonical s) :
    MemoriesCanonical (initCommand Config.cfg s) := by
  rcases initCommand_cases Config.cfg s with ⟨_, _, _, hc⟩ | ⟨_, _, _, hc⟩ | ⟨_, hc⟩
  · rw [hc]
    exact { h with pool_wf := memWriteList_wf h.pool_wf 0 _ }
  · rw [hc]
    exact raise_canonical h _ _ _
  · rw [hc]
    exact raise_canonical h _ _ _

theorem freeCommand_canonical (h : MemoriesCanonical s) (m : Mode) :
    MemoriesCanonical (freeCommand m s) := by
  rcases freeCommand_cases m s with ⟨_, hc⟩ | ⟨_, hc⟩
  · rw [hc]
    exact results_canonical h _ s.res1
  · rw [hc]
    exact raise_canonical h _ _ _

/-- R212: a granted request of at most `AOUT_MAX` addresses fits `AOUT`. -/
theorem issueSlots_canonical (h : MemoriesCanonical s) (m : Mode)
    (hlen : s.arg0.toNat ≤ Config.cfg.aoutMax) : MemoriesCanonical (issueSlots Config.cfg m s) :=
  { h with
    aout_wf := memWriteList_wf h.aout_wf 0 _
    aout_within := memWriteList_within h.aout_within 0 _ (by rw [drawSlots_length]; omega)
    pool_wf := drawSlots_pool_wf Config.cfg m _ h.pool_wf }

theorem genCommand_canonical (h : MemoriesCanonical s) (m : Mode) :
    MemoriesCanonical (genCommand Config.cfg m s) := by
  rcases genCommand_cases Config.cfg m s with
    ⟨_, hc⟩ | ⟨_, _, hc⟩ | ⟨_, _, _, hc⟩ | ⟨_, _, _, _, hc⟩ | ⟨_, hlen, _, _, hc⟩
  · rw [hc]
    exact raise_canonical h _ _ _
  · rw [hc]
    exact raise_canonical h _ _ _
  · rw [hc]
    exact raise_canonical h _ _ _
  · rw [hc]
    exact raise_canonical h _ _ _
  · rw [hc]
    exact endCommand_canonical (issueSlots_canonical h m hlen)

/-- R80: no command leaves the bounds of a memory space. -/
theorem exec_canonical (h : MemoriesCanonical s) (i : Instr) (hx : exec i s = .next t) :
    MemoriesCanonical t := by
  cases i <;> cases hx
  case nop => exact endCommand_canonical h
  case sreset => exact endCommand_canonical (softReset_canonical h)
  case tblRdEnc => exact results_canonical h _ s.res1
  case tblRdSyn => exact results_canonical h _ s.res1
  case tblRdCor => exact results_canonical h _ s.res1
  case eccEnc12 => exact enc12Command_canonical h
  case eccDec24 => exact dec24Command_canonical h
  case eccEncb => exact encbCommand_canonical h
  case eccDecb => exact decbCommand_canonical h
  case kdfDerive m => exact deriveCommand_canonical h m
  case kdfClear => exact endCommand_canonical (clearKeys_canonical h)
  case scInit => exact initCommand_canonical h
  case scFree m => exact freeCommand_canonical h m
  case scGen m => exact genCommand_canonical h m
  case scEnd => exact { h with }

/-! ### The host's events -/

theorem writeReg_canonical (h : MemoriesCanonical s) (r : Reg) (v : Word) :
    MemoriesCanonical (writeReg r v s) := by
  cases r
  case cmd =>
    simp only [writeReg, writeCmd]
    split <;> exact { h with }
  all_goals exact { h with }

/-- R66: a host write lands inside the space it names. -/
theorem idleWrite_canonical (h : MemoriesCanonical s) (sp : Space) (off : Nat) (v : Word)
    (hin : inSpace Config.cfg sp off = true) : MemoriesCanonical (idleWrite sp off v s) := by
  cases sp with
  | reg => exact writeReg_canonical h _ v
  | pwbuf =>
    have hoff : off < Config.cfg.pwMax := by simpa [inSpace, spaceSize] using hin
    exact { h with
      pwbuf_wf := memWrite_wf h.pwbuf_wf _ _
      pwbuf_within := memWriteList_within h.pwbuf_within _ _ hoff }
  | din =>
    have hoff : off < Config.cfg.dbufMax := by simpa [inSpace, spaceSize] using hin
    exact { h with
      din_wf := memWrite_wf h.din_wf _ _
      din_within := memWriteList_within h.din_within _ _ hoff }
  | dout => exact h
  | aout => exact h
  | pix => exact { h with pix_wf := memWrite_wf h.pix_wf _ _ }

theorem portWrite_canonical (h : MemoriesCanonical s) (sp : Space) (w : Width) (off : Nat) (v : Word) :
    MemoriesCanonical (portWrite Config.cfg sp w off v s) := by
  rcases portWrite_cases Config.cfg sp w off v s with hp | ⟨_, hp⟩ | ⟨_, hin, _, hp⟩
  · rwa [hp]
  · rw [hp]
    exact { h with }
  · rw [hp]
    exact idleWrite_canonical h sp off v hin

theorem pixWrite_canonical (h : MemoriesCanonical s) (w : Width) (off : Nat) (v : Word)
    (hx : pixWrite w off v s = .next t) : MemoriesCanonical t := by
  unfold pixWrite at hx
  split at hx
  · cases hx
  · split at hx
    · cases hx
      exact idleWrite_canonical h .pix off v rfl
    · cases hx
      exact h

theorem hostWrite_canonical (h : MemoriesCanonical s) (sp : Space) (w : Width) (off : Nat) (v : Word)
    (hx : hostWrite Config.cfg sp w off v s = .next t) : MemoriesCanonical t := by
  cases sp
  case pix => exact pixWrite_canonical h w off v hx
  all_goals
    cases hx
    exact portWrite_canonical h _ w off v

theorem hostRead_canonical (h : MemoriesCanonical s) (sp : Space) (w : Width) (off : Nat) :
    MemoriesCanonical (hostRead Config.cfg sp w off s) := by
  obtain ⟨v, n, hr⟩ := hostRead_frame Config.cfg sp w off s
  rw [hr]
  exact { h with }

theorem busWriteAt_canonical (h : MemoriesCanonical s) (w : Width) (addr : Nat) (v : Word)
    (hx : busWriteAt Config.cfg w addr v s = .next t) : MemoriesCanonical t := by
  unfold busWriteAt at hx
  split at hx
  · cases hx
    exact h
  · exact hostWrite_canonical h _ w _ v hx

theorem busReadAt_canonical (h : MemoriesCanonical s) (w : Width) (addr : Nat) :
    MemoriesCanonical (busReadAt Config.cfg w addr s) := by
  unfold busReadAt
  split
  · exact { h with }
  · exact hostRead_canonical h _ w _

/-- R320, R321: whatever a reset leaves in the memories is cut to their sizes. -/
theorem hardwareReset_canonical (h : MemoriesCanonical s) (r : Residue) :
    MemoriesCanonical (hardwareReset Config.cfg r s) where
  pwbuf_wf := wf_nil 8
  pwbuf_within := within_nil 8 _
  din_wf := memWriteList_wf (wf_nil 8) 0 _
  din_within := memWriteList_nil_take_within _ _
  dout_wf := memWriteList_wf (wf_nil 8) 0 _
  dout_within := memWriteList_nil_take_within _ _
  aout_wf := memWriteList_wf (wf_nil 32) 0 _
  aout_within := memWriteList_nil_take_within _ _
  pix_wf := h.pix_wf
  pool_wf := memWriteList_wf (wf_nil 32) 0 _

/-! ### The step -/

theorem advance_canonical (h : MemoriesCanonical s) (hx : advance s = .next t) :
    MemoriesCanonical t := by
  rcases advance_cases s with ⟨_, ha⟩ | ⟨_, _, ha⟩ | ⟨_, _, i, _, ha⟩ | ⟨_, _, _, ha⟩
  · cases ha.symm.trans hx
    exact h
  · cases ha.symm.trans hx
    exact { h with }
  · exact exec_canonical h i (ha.symm.trans hx)
  · cases ha.symm.trans hx
    exact raise_canonical h _ _ _

theorem hostEvent_canonical (h : MemoriesCanonical s) (e : HostEvent)
    (hx : hostEvent e s = .next t) : MemoriesCanonical t := by
  cases e with
  | write sp w off v => exact hostWrite_canonical h sp w off v hx
  | read sp w off =>
    cases hx
    exact hostRead_canonical h sp w off
  | busWrite w addr v => exact busWriteAt_canonical h w addr v hx
  | busRead w addr =>
    cases hx
    exact busReadAt_canonical h w addr
  | wait => exact advance_canonical h hx
  | hwReset r =>
    cases hx
    exact hardwareReset_canonical h r

end Sys2Proof.Proofs
end

section
/-! PROOFS. The memories stay canonical (O58). -/

namespace Sys2Proof.Proofs

open Sys2Proof.Machine Sys2Proof.Safety Sys2Proof.Laws

/-- Settles O58: whichever agent the step moves, the block or the host, keeps the invariant. -/
theorem stepKeepsMemoriesCanonical : Obligations.StepKeepsMemoriesCanonical := by
  intro s t h hx
  rcases step_cases s with ⟨_, hs⟩ | ⟨e, rest, _, hs⟩
  · exact advance_canonical h (hs.symm.trans hx)
  · have hrest : MemoriesCanonical { s with input := rest } := { h with }
    exact hostEvent_canonical hrest e (hs.symm.trans hx)

end Sys2Proof.Proofs
end

section
/-! SUPPORT. The Golay code under the constraints of R5: the bits of an error pattern, which patterns the loop of R135
visits, the syndrome of a damaged codeword (R134), and why the correction table repairs three flipped bits (R137). -/

namespace Sys2Proof.Proofs

open Sys2Proof.Machine Sys2Proof.Safety Sys2Proof.Laws

/-! ### Counting bits -/

/-- Elements that satisfy `p` satisfy one of two others, so `p` counts at most as many. -/
theorem countP_le_countP_add_countP {α : Type} {p q r : α → Bool} (l : List α)
    (h : ∀ x ∈ l, p x = true → q x = true ∨ r x = true) :
    l.countP p ≤ l.countP q + l.countP r := by
  induction l with
  | nil => simp
  | cons x l ih => grind

/-- The weight of a word whose bits are among those of two others. -/
theorem popcount_le_add {w : Nat} {a b c : BitVec w}
    (h : ∀ i, a.getLsbD i = true → b.getLsbD i = true ∨ c.getLsbD i = true) :
    popcount a ≤ popcount b + popcount c :=
  countP_le_countP_add_countP _ fun i _ => h i

theorem popcount_xor_le {w : Nat} (a b : BitVec w) : popcount (a ^^^ b) ≤ popcount a + popcount b :=
  popcount_le_add fun i hi => by
    rw [BitVec.getLsbD_xor] at hi
    cases ha : a.getLsbD i
    · simpa [ha] using hi
    · exact .inl rfl

theorem popcount_or_le {w : Nat} (a b : BitVec w) : popcount (a ||| b) ≤ popcount a + popcount b :=
  popcount_le_add fun i hi => by simpa using hi

theorem popcount_pos_of_getLsbD {w : Nat} {v : BitVec w} {i : Nat} (h : v.getLsbD i = true) :
    1 ≤ popcount v :=
  List.countP_pos_iff.mpr ⟨i, List.mem_range.mpr (BitVec.lt_of_getLsbD h), h⟩

@[simp] theorem popcount_zero (w : Nat) : popcount (0 : BitVec w) = 0 := by
  simp [popcount]

theorem eq_zero_of_popcount_eq_zero {w : Nat} {v : BitVec w} (h : popcount v = 0) : v = 0 := by
  apply BitVec.eq_of_getLsbD_eq
  intro i hi
  have hclear := List.countP_eq_zero.mp h i (List.mem_range.mpr hi)
  simpa using hclear

/-! ### Error patterns (R135) -/

theorem errBit_getLsbD (n i : Nat) : (errBit n).getLsbD i = decide (i < 24 ∧ i = n) := by
  rw [errBit, BitVec.getLsbD_shiftLeft, BitVec.getLsbD_one]
  by_cases hi : i < 24
  · rcases Nat.lt_trichotomy i n with h | h | h
    · simp [h, Nat.ne_of_lt h]
    · simp [h]
    · simp [Nat.sub_ne_zero_of_lt h, Nat.ne_of_gt h]
  · simp [hi]

theorem popcount_errBit_le (n : Nat) : popcount (errBit n) ≤ 1 := by
  have hcount : popcount (errBit n) ≤ (List.range 24).count n :=
    List.countP_mono_left fun i _ hi => by
      rw [errBit_getLsbD] at hi
      simpa using (of_decide_eq_true hi).2
  exact hcount.trans (List.nodup_iff_count_le_one.mp List.nodup_range n)

/-- The positions of the set bits, ascending. -/
def setBits (e : Code) : List Nat := (List.range 24).filter e.getLsbD

/-- The word with the bits at the listed positions. -/
def orBits (l : List Nat) : Code := l.foldr (fun n r => errBit n ||| r) 0

theorem setBits_length (e : Code) : (setBits e).length = popcount e := List.countP_eq_length_filter.symm

theorem setBits_ascending (e : Code) : (setBits e).Pairwise (· < ·) := List.pairwise_lt_range.filter _

theorem lt_of_mem_setBits {e : Code} {n : Nat} (h : n ∈ setBits e) : n < 24 :=
  List.mem_range.mp (List.mem_filter.mp h).1

theorem orBits_getLsbD (l : List Nat) (i : Nat) :
    (orBits l).getLsbD i = decide (i < 24 ∧ i ∈ l) := by
  induction l with
  | nil => simp [orBits]
  | cons n l ih =>
    rw [orBits, List.foldr_cons, ← orBits, BitVec.getLsbD_or, ih, errBit_getLsbD]
    by_cases hi : i < 24 <;> simp [hi]

/-- A word is the combination of its set bits. -/
theorem orBits_setBits (e : Code) : orBits (setBits e) = e := by
  apply BitVec.eq_of_getLsbD_eq
  intro i hi
  rw [orBits_getLsbD]
  simp [setBits, hi]

/-- R135: what the four nested loops visit. -/
theorem mem_errPatterns {e : Code} :
    e ∈ errPatterns ↔ ∃ i j k l, i ≤ j ∧ j ≤ k ∧ k ≤ l ∧ l < 24 ∧
      e = errBit i ||| errBit j ||| errBit k ||| errBit l := by
  simp only [errPatterns, List.mem_flatMap, List.mem_map, List.mem_range'_1]
  constructor
  · rintro ⟨i, hi, j, hj, k, hk, l, hl, rfl⟩
    exact ⟨i, j, k, l, hj.1, hk.1, hl.1, by omega, rfl⟩
  · rintro ⟨i, j, k, l, hij, hjk, hkl, hl, rfl⟩
    exact ⟨i, by omega, j, by omega, k, by omega, l, by omega, rfl⟩

/-- One to four ascending positions are among the index tuples of the loops, the last one repeated. -/
theorem orBits_mem_errPatterns {l : List Nat} (hasc : l.Pairwise (· < ·)) (hlt : ∀ n ∈ l, n < 24)
    (hpos : 1 ≤ l.length) (hle : l.length ≤ 4) : orBits l ∈ errPatterns := by
  rw [mem_errPatterns]
  match l with
  | [i] => exact ⟨i, i, i, i, by simpa [orBits] using hlt⟩
  | [i, j] =>
    exact ⟨i, j, j, j, by grind, by grind, by grind, hlt j (by simp), by simp [orBits, BitVec.or_assoc]⟩
  | [i, j, k] =>
    exact ⟨i, j, k, k, by grind, by grind, by grind, hlt k (by simp), by simp [orBits, BitVec.or_assoc]⟩
  | [i, j, k, n] =>
    exact ⟨i, j, k, n, by grind, by grind, by grind, hlt n (by simp), by simp [orBits, BitVec.or_assoc]⟩

/-- R135: the patterns are the words of weight 1 to 4. -/
theorem mem_errPatterns_iff_popcount (e : Code) :
    e ∈ errPatterns ↔ 1 ≤ popcount e ∧ popcount e ≤ 4 := by
  constructor
  · intro h
    obtain ⟨i, j, k, l, hij, hjk, hkl, hl, rfl⟩ := mem_errPatterns.mp h
    constructor
    · exact popcount_pos_of_getLsbD (i := i) (by simp [errBit_getLsbD]; omega)
    · have h1 := popcount_or_le (errBit i ||| errBit j ||| errBit k) (errBit l)
      have h2 := popcount_or_le (errBit i ||| errBit j) (errBit k)
      have h3 := popcount_or_le (errBit i) (errBit j)
      have hi := popcount_errBit_le i
      have hj := popcount_errBit_le j
      have hk := popcount_errBit_le k
      have hl := popcount_errBit_le l
      omega
  · rintro ⟨hpos, hle⟩
    rw [← setBits_length] at hpos hle
    have hmem := orBits_mem_errPatterns (setBits_ascending e) (fun _ => lt_of_mem_setBits) hpos hle
    rwa [orBits_setBits] at hmem

/-! ### The correction table (R135) -/

/-- The last writer wins: entry `z` of the table is what the last pattern with syndrome `z` stores. -/
theorem tableGet_foldl_corStore (syn : Table) (ps : List Code) (cor : Table) (z : Sym) :
    tableGet (ps.foldl (corStore syn) cor) z =
      ((ps.filter fun e => syndrome syn e == z).getLast?.map dataBits).getD (tableGet cor z) := by
  induction ps generalizing cor with
  | nil => rfl
  | cons e ps ih =>
    rw [List.foldl_cons, ih, corStore, tableGet_tableSet]
    by_cases hz : syndrome syn e = z
    · rw [if_pos hz, List.filter_cons_of_pos (by simpa using hz), List.getLast?_cons]
      cases (ps.filter fun e => syndrome syn e == z).getLast? <;> rfl
    · rw [if_neg hz, List.filter_cons_of_neg (by simpa using hz)]

theorem tableGet_corTable (syn : Table) (z : Sym) :
    tableGet (corTable syn) z =
      ((errPatterns.filter fun e => syndrome syn e == z).getLast?.map dataBits).getD 0 := by
  rw [corTable, tableGet_foldl_corStore, tableGet_replicate]

/-- An entry whose only possible writer is `e` holds the data bits of `e`, if `e` is 0 or is visited. -/
theorem tableGet_corTable_of_unique {syn : Table} {z : Sym} {e : Code}
    (hunique : ∀ e' ∈ errPatterns, syndrome syn e' = z → e' = e)
    (hvisited : e ≠ 0 → e ∈ errPatterns ∧ syndrome syn e = z) :
    tableGet (corTable syn) z = dataBits e := by
  rw [tableGet_corTable]
  cases hlast : (errPatterns.filter fun e => syndrome syn e == z).getLast? with
  | none =>
    have hempty := List.getLast?_eq_none_iff.mp hlast
    have hzero : e = 0 := by
      by_contra hne
      obtain ⟨hmem, hsyn⟩ := hvisited hne
      have hin : e ∈ errPatterns.filter fun e => syndrome syn e == z :=
        List.mem_filter.mpr ⟨hmem, by simpa using hsyn⟩
      simp [hempty] at hin
    subst hzero
    rfl
  | some e' =>
    obtain ⟨hmem, hsyn⟩ := List.mem_filter.mp (List.mem_of_getLast? hlast)
    rw [hunique e' hmem (by simpa using hsyn)]
    rfl

/-! ### Syndromes (R134) -/

/-- R134 with `SYN` as built: the fold of the parity bits against the data bits. -/
theorem syndrome_foldTable (m : Matrix) (r : Code) :
    syndrome (foldTable m) r = fold m (parityBits r) ^^^ dataBits r := by
  rw [syndrome, tableGet_foldTable]

theorem syndrome_xor (m : Matrix) (r e : Code) :
    syndrome (foldTable m) (r ^^^ e) = syndrome (foldTable m) r ^^^ syndrome (foldTable m) e := by
  simp only [syndrome_foldTable, parityBits_xor, dataBits_xor, fold_xor]
  ac_rfl

theorem mkCode_dataBits_parityBits (r : Code) : mkCode (dataBits r) (parityBits r) = r := by
  apply BitVec.eq_of_getLsbD_eq
  intro i hi
  simp only [mkCode, dataBits, parityBits, BitVec.getLsbD_append, BitVec.getLsbD_extractLsb']
  by_cases h : i < 12
  · simp [h]
  · simp [h, show i - 12 < 12 by omega, show 12 + (i - 12) = i by omega]

variable {c : Cfg}

/-- P1 makes `CHK` the inverse of `GEN` on the 4096 words, and so also the other way round. -/
theorem fold_gen_fold_chk (hc : c.Admissible) (p : Sym) : fold c.gen (fold c.chk p) = p := by
  have hleft : Function.LeftInverse (fold c.chk) (fold c.gen) := hc.p1
  have hsurj := Finite.injective_iff_surjective.mp hleft.injective
  exact hleft.rightInverse_of_surjective hsurj p

theorem syndrome_codeword (hc : c.Admissible) (w : Sym) :
    syndrome (foldTable c.chk) (codeword c.gen w) = 0 := by
  rw [syndrome_foldTable, parityBits_codeword, dataBits_codeword, hc.p1, BitVec.xor_self]
  rfl

@[simp] theorem codeword_zero (m : Matrix) : codeword m 0 = 0 := by
  rw [codeword, fold_zero]
  rfl

/-- The words with syndrome 0 are the codewords. -/
theorem eq_codeword_of_syndrome_eq_zero (hc : c.Admissible) {r : Code}
    (h : syndrome (foldTable c.chk) r = 0) : r = codeword c.gen (dataBits r) := by
  rw [syndrome_foldTable] at h
  have hdata : dataBits r = fold c.chk (parityBits r) := (BitVec.xor_eq_zero_iff.mp h).symm
  have hparity : fold c.gen (dataBits r) = parityBits r := by rw [hdata, fold_gen_fold_chk hc]
  rw [codeword, hparity, mkCode_dataBits_parityBits]

/-- P2 against the codeword 0: a word of syndrome 0 with fewer than 8 ones is 0. -/
theorem eq_zero_of_syndrome_eq_zero (hc : c.Admissible) {r : Code}
    (h : syndrome (foldTable c.chk) r = 0) (hlight : popcount r < 8) : r = 0 := by
  have hr := eq_codeword_of_syndrome_eq_zero hc h
  by_cases hd : dataBits r = 0
  · rw [hr, hd, codeword_zero]
  · have hheavy := hc.p2 (dataBits r) 0 hd
    rw [codeword_zero, ← hr, show r ^^^ 0 = r from BitVec.xor_zero] at hheavy
    omega

/-- Two error patterns that together have fewer than 8 ones are told apart by their syndromes. -/
theorem eq_of_syndrome_eq (hc : c.Admissible) {e e' : Code} (hlight : popcount e + popcount e' < 8)
    (h : syndrome (foldTable c.chk) e = syndrome (foldTable c.chk) e') : e = e' := by
  have hsyn : syndrome (foldTable c.chk) (e ^^^ e') = 0 := by
    rw [syndrome_xor, h, BitVec.xor_self]
    rfl
  have hpop := popcount_xor_le e e'
  exact BitVec.xor_eq_zero_iff.mp (eq_zero_of_syndrome_eq_zero hc hsyn (by omega))

/-! ### Decoding a damaged codeword (R134, R136) -/

/-- R134: the syndrome depends on the error pattern alone. -/
theorem syndrome_codeword_xor (hc : c.Admissible) (w : Sym) (e : Code) :
    syndrome (foldTable c.chk) (codeword c.gen w ^^^ e) = syndrome (foldTable c.chk) e := by
  rw [syndrome_xor, syndrome_codeword hc]
  exact BitVec.zero_xor

/-- The correction table gives back the data bits of every pattern of weight at most 3: a pattern of the loop with
the same syndrome has weight at most 4, and `3 + 4 < 8`. -/
theorem tableGet_corTable_syndrome (hc : c.Admissible) {e : Code} (he : popcount e ≤ 3) :
    tableGet (corTable (foldTable c.chk)) (syndrome (foldTable c.chk) e) = dataBits e := by
  apply tableGet_corTable_of_unique
  · intro e' hmem hsyn
    have hweight := (mem_errPatterns_iff_popcount e').mp hmem
    exact eq_of_syndrome_eq hc (by omega) hsyn
  · intro hne
    have hpos : popcount e ≠ 0 := fun h => hne (eq_zero_of_popcount_eq_zero h)
    exact ⟨(mem_errPatterns_iff_popcount e).mpr (by omega), rfl⟩

theorem decode24_codeword_xor (hc : c.Admissible) (w : Sym) {e : Code} (he : popcount e ≤ 3) :
    decode24 (foldTable c.chk) (corTable (foldTable c.chk)) (codeword c.gen w ^^^ e) = w := by
  rw [decode24, syndrome_codeword_xor hc, tableGet_corTable_syndrome hc he, dataBits_xor,
    dataBits_codeword, BitVec.xor_assoc, BitVec.xor_self, BitVec.xor_zero]

end Sys2Proof.Proofs
end

section
/-! PROOFS. Encoding, damage and decoding of one word (O20, O21). -/

namespace Sys2Proof.Proofs

open Sys2Proof.Machine Sys2Proof.Safety Sys2Proof.Laws

/-- `ECC.ENC12` of a word in range, with the tables built, answers its codeword and keeps the tables. -/
theorem exec_eccEnc12_codeword {s : State} (ht : TablesBuilt s) (h : s.arg0.toNat ≤ 0xFFF) :
    ∃ t, exec .eccEnc12 s = .next t ∧
      t.res0 = (codeword Config.cfg.gen (s.arg0.setWidth 12)).setWidth 32 ∧ TablesBuilt t := by
  rcases enc12Command_cases s with ⟨_, hc⟩ | ⟨hlt, _⟩
  · refine ⟨_, congrArg Host.Outcome.next hc, ?_, ⟨ht.enc, ht.syn, ht.cor⟩⟩
    rw [endCommand_res0, ht.enc, encode12, tableGet_foldTable, codeword]
  · omega

/-- Settles O21: codewords are 8 apart (P2), so at most 3 flipped bits leave one pattern for the syndrome. -/
theorem threeBitErrorsAreCorrected : Obligations.ThreeBitErrorsAreCorrected := by
  intro s w e ht he harg
  have hword : s.arg0.setWidth 24 = codeword Config.cfg.gen w ^^^ e := by rw [harg]; simp
  rcases dec24Command_cases s with ⟨_, hc⟩ | ⟨hlt, _⟩
  · refine ⟨_, congrArg Host.Outcome.next hc, ?_, ?_⟩
    · rw [endCommand_res0, hword, ht.syn, ht.cor,
        decode24_codeword_xor Config.cfg_admissible w he]
    · rw [endCommand_res1, hword, ht.syn, syndrome_codeword_xor Config.cfg_admissible]
  · have hbound := (codeword Config.cfg.gen w ^^^ e).isLt
    rw [harg, BitVec.toNat_setWidth_of_le (by decide)] at hlt
    omega

/-- Settles O20: an undamaged codeword is the case of no flipped bit in O21. -/
theorem encodedWordDecodesBack : Obligations.EncodedWordDecodesBack := by
  intro s ht h
  obtain ⟨t, henc, hres, htables⟩ := exec_eccEnc12_codeword ht h
  have hsyn : syndrome t.syn 0 = 0 := by
    rw [htables.syn, ← codeword_zero Config.cfg.gen, syndrome_codeword Config.cfg_admissible]
  obtain ⟨u, hdec, hword, hzero⟩ :=
    threeBitErrorsAreCorrected { t with arg0 := t.res0 } (s.arg0.setWidth 12) 0
      ⟨htables.enc, htables.syn, htables.cor⟩ (by rw [popcount_zero]; omega) (by simp [hres])
  refine ⟨t, u, henc, hdec, ?_, ?_⟩
  · rw [hword]
    exact BitVec.eq_of_toNat_eq (by simp; omega)
  · rw [hzero, hsyn]
    rfl

end Sys2Proof.Proofs
end

section
/-! SUPPORT. What a step can do, said once: the effect of each command, the two ways a command ends
(`spec/30_encoding.md` R91), and the moves of the block and of its host (`spec/10_state.md` R20). The proofs about
steps and about what a command leaves alone go through these cases. -/

namespace Sys2Proof.Proofs

open Sys2Proof.Machine Sys2Proof.Safety Sys2Proof.Laws

/-! ### The commands -/

/-- What a command whose checks pass does before it ends (R91 step 4). -/
def effect (c : Cfg) (i : Instr) (s : State) : State :=
  match i with
  | .nop => s
  | .sreset => softReset c s
  | .tblRdEnc idx => { s with res0 := (tableGet s.enc idx).setWidth 32 }
  | .tblRdSyn idx => { s with res0 := (tableGet s.syn idx).setWidth 32 }
  | .tblRdCor idx => { s with res0 := (tableGet s.cor idx).setWidth 32 }
  | .eccEnc12 => { s with res0 := (encode12 s.enc (s.arg0.setWidth 12)).setWidth 32 }
  | .eccDec24 =>
    { s with
      res0 := (decode24 s.syn s.cor (s.arg0.setWidth 24)).setWidth 32
      res1 := (syndrome s.syn (s.arg0.setWidth 24)).setWidth 32 }
  | .eccEncb =>
    { s with
      dout := memWriteList s.dout 0 (encodeBytes s.enc (memReadList s.din 0 s.arg0.toNat))
      res0 := BitVec.ofNat 32 (3 * nsym s.arg0.toNat)
      res1 := BitVec.ofNat 32 (nsym s.arg0.toNat) }
  | .eccDecb =>
    { s with
      dout := memWriteList s.dout 0 (decodeBytes s.syn s.cor (decbInput s) s.arg0.toNat)
      res0 := s.arg0
      res1 := BitVec.ofNat 32 (fixedCount s.syn (decbInput s) s.arg0.toNat) }
  | .kdfDerive m => kdfRun c m (saltedPassword c m (passwordBytes s)) s
  | .kdfClear => clearKeys c s
  | .scInit =>
    { s with
      sc := startSession c s.seed s.pix (pixelCount s) s.sc
      res0 := BitVec.ofNat 32 (12 * (scanPixels s.pix (pixelCount s)).length)
      res1 := BitVec.ofNat 32 (scanPixels s.pix (pixelCount s)).length }
  | .scFree m => { s with res0 := BitVec.ofNat 32 (freeSpace s.sc m) }
  | .scGen m => issueSlots c m s
  | .scEnd => { s with sc := endSession s.sc }

/-- What the checks of `SC.INIT` (R210) and `SC.GEN` (R212) tell of a session; of the other commands' checks nothing
is kept. -/
def Granted (c : Cfg) (i : Instr) (s : State) : Prop :=
  match i with
  | .scInit => pixelCount s ≤ c.pixMax
  | .scGen m => s.sc.valid = true ∧ s.arg0.toNat ≤ freeSpace s.sc m
  | _ => True

/-- A command ends with its effect or with an error, and a fatal error is one of `SC.GEN` in a session (R91, R283,
R286). -/
inductive Ends (i : Instr) (s t : State) : Prop where
  | done (granted : Granted Config.cfg i s) (h : t = endCommand (effect Config.cfg i s))
  | raised (e : CmdError) (i0 i1 : Word)
    (fatal : isFatal e = true → s.sc.valid = true ∧ ∃ m, i = .scGen m) (h : t = raise e i0 i1 s)

variable {s t : State}

theorem Ends.of_nonfatal {i : Instr} {e : CmdError} {i0 i1 : Word} (h : t = raise e i0 i1 s)
    (hf : isFatal e = false) : Ends i s t :=
  .raised e i0 i1 (fun he => absurd he (by simp [hf])) h

theorem enc12Command_ends (s : State) : Ends .eccEnc12 s (enc12Command s) := by
  rcases enc12Command_cases s with ⟨_, h⟩ | ⟨_, h⟩
  · exact .done trivial h
  · exact .of_nonfatal h rfl

theorem dec24Command_ends (s : State) : Ends .eccDec24 s (dec24Command s) := by
  rcases dec24Command_cases s with ⟨_, h⟩ | ⟨_, h⟩
  · exact .done trivial h
  · exact .of_nonfatal h rfl

theorem encbCommand_ends (s : State) : Ends .eccEncb s (encbCommand Config.cfg s) := by
  rcases encbCommand_cases Config.cfg s with ⟨_, h⟩ | ⟨_, h⟩
  · exact .done trivial h
  · exact .of_nonfatal h rfl

theorem decbCommand_ends (s : State) : Ends .eccDecb s (decbCommand Config.cfg s) := by
  rcases decbCommand_cases Config.cfg s with ⟨_, h⟩ | ⟨_, h⟩
  · exact .done trivial h
  · exact .of_nonfatal h rfl

theorem deriveCommand_ends (m : Context) (s : State) :
    Ends (.kdfDerive m) s (deriveCommand Config.cfg m s) := by
  rcases deriveCommand_cases Config.cfg m s with ⟨_, h⟩ | ⟨_, h⟩
  · exact .done trivial h
  · exact .of_nonfatal h rfl

theorem initCommand_ends (s : State) : Ends .scInit s (initCommand Config.cfg s) := by
  rcases initCommand_cases Config.cfg s with ⟨_, _, hfit, h⟩ | ⟨_, _, _, h⟩ | ⟨_, h⟩
  · exact .done hfit h
  · exact .of_nonfatal h rfl
  · exact .of_nonfatal h rfl

theorem freeCommand_ends (m : Mode) (s : State) : Ends (.scFree m) s (freeCommand m s) := by
  rcases freeCommand_cases m s with ⟨_, h⟩ | ⟨_, h⟩
  · exact .done trivial h
  · exact .of_nonfatal h rfl

/-- R285: `E_REGRESS` and `E_CAPACITY` come after the check for a session. -/
theorem genCommand_ends (m : Mode) (s : State) : Ends (.scGen m) s (genCommand Config.cfg m s) := by
  have valid (hok : sessionOk s = true) : s.sc.valid = true := ((sessionOk_iff s).mp hok).1
  rcases genCommand_cases Config.cfg m s with
    ⟨_, h⟩ | ⟨_, _, h⟩ | ⟨hok, _, _, h⟩ | ⟨hok, _, _, _, h⟩ | ⟨hok, _, _, hfree, h⟩
  · exact .of_nonfatal h rfl
  · exact .of_nonfatal h rfl
  · exact .raised _ _ _ (fun _ => ⟨valid hok, m, rfl⟩) h
  · exact .raised _ _ _ (fun _ => ⟨valid hok, m, rfl⟩) h
  · exact .done ⟨valid hok, hfree⟩ h

theorem exec_ends (i : Instr) (hx : exec i s = .next t) : Ends i s t := by
  cases i <;> cases hx
  case eccEnc12 => exact enc12Command_ends s
  case eccDec24 => exact dec24Command_ends s
  case eccEncb => exact encbCommand_ends s
  case eccDecb => exact decbCommand_ends s
  case kdfDerive m => exact deriveCommand_ends m s
  case scInit => exact initCommand_ends s
  case scFree m => exact freeCommand_ends m s
  case scGen m => exact genCommand_ends m s
  all_goals exact .done trivial rfl

/-! ### What a command's effect leaves alone -/

/-- R166: what a derivation leaves alone, in either context. -/
theorem kdfRun_kept (c : Cfg) (m : Context) (sp : List Byte) (s : State) :
    kdfRun c m sp s =
      { s with
        keyP := (kdfRun c m sp s).keyP, ivP := (kdfRun c m sp s).ivP
        keyH := (kdfRun c m sp s).keyH, ivH := (kdfRun c m sp s).ivH
        kpValid := (kdfRun c m sp s).kpValid, khValid := (kdfRun c m sp s).khValid
        seed := (kdfRun c m sp s).seed, hash := List.replicate 32 0, round := 0 } := by
  obtain ⟨_, _, _, _, _, _, _, hrun⟩ := kdfRun_frame c m sp s
  rw [hrun]

/-- R23, R37: no command's effect reaches the host's side, `CMD`, `CTRL`, the error registers, the flags of the
sequencer, the tables, `DIN` or `PIX`. -/
theorem effect_frame (c : Cfg) (i : Instr) (s : State) :
    effect c i s =
      { s with
        wrign := (effect c i s).wrign, kpValid := (effect c i s).kpValid, khValid := (effect c i s).khValid
        pwLen := (effect c i s).pwLen, arg0 := (effect c i s).arg0, arg1 := (effect c i s).arg1
        res0 := (effect c i s).res0, res1 := (effect c i s).res1, seed := (effect c i s).seed
        keyP := (effect c i s).keyP, ivP := (effect c i s).ivP
        keyH := (effect c i s).keyH, ivH := (effect c i s).ivH
        hash := (effect c i s).hash, round := (effect c i s).round, sc := (effect c i s).sc
        loops := (effect c i s).loops, pwbuf := (effect c i s).pwbuf
        dout := (effect c i s).dout, aout := (effect c i s).aout } := by
  cases i
  case kdfDerive m => rw [effect, kdfRun_kept]
  all_goals rfl

theorem effect_operands (c : Cfg) {i : Instr} (s : State) (hi : i ≠ .sreset) :
    (effect c i s).arg0 = s.arg0 ∧ (effect c i s).arg1 = s.arg1 ∧ (effect c i s).wrign = s.wrign := by
  cases i
  case sreset => exact absurd rfl hi
  case kdfDerive m => rw [effect, kdfRun_kept]; exact ⟨rfl, rfl, rfl⟩
  all_goals exact ⟨rfl, rfl, rfl⟩

/-- R40: `DOUT` belongs to the byte commands of the ECC unit. -/
theorem effect_dout (c : Cfg) {i : Instr} (s : State) (hi : i ∉ [Instr.eccEncb, Instr.eccDecb]) :
    (effect c i s).dout = s.dout := by
  cases i
  case eccEncb => simp at hi
  case eccDecb => simp at hi
  case kdfDerive m => rw [effect, kdfRun_kept]
  all_goals rfl

/-- R40: `AOUT` belongs to `SC.GEN`. -/
theorem effect_aout (c : Cfg) {i : Instr} (s : State) (hi : ∀ m, i ≠ .scGen m) :
    (effect c i s).aout = s.aout := by
  cases i
  case scGen m => exact absurd rfl (hi m)
  case kdfDerive m => rw [effect, kdfRun_kept]
  all_goals rfl

/-- R113, R167: only the two clearing commands write the password. -/
theorem effect_password (c : Cfg) {i : Instr} (s : State) (hi : i ∉ [Instr.sreset, Instr.kdfClear]) :
    (effect c i s).pwLen = s.pwLen ∧ (effect c i s).pwbuf = s.pwbuf := by
  cases i
  case sreset => simp at hi
  case kdfClear => simp at hi
  case kdfDerive m => rw [effect, kdfRun_kept]; exact ⟨rfl, rfl⟩
  all_goals exact ⟨rfl, rfl⟩

/-- R34: the keys, and the seed beside the host, belong to the KDF unit and `SRESET`. -/
theorem effect_keys (c : Cfg) {i : Instr} (s : State) (hi : i ∉ [Instr.sreset, Instr.kdfClear])
    (hd : ∀ m, i ≠ .kdfDerive m) :
    (effect c i s).keyP = s.keyP ∧ (effect c i s).ivP = s.ivP ∧ (effect c i s).keyH = s.keyH ∧
      (effect c i s).ivH = s.ivH ∧ (effect c i s).seed = s.seed ∧
      (effect c i s).kpValid = s.kpValid ∧ (effect c i s).khValid = s.khValid := by
  cases i
  case sreset => simp at hi
  case kdfClear => simp at hi
  case kdfDerive m => exact absurd rfl (hd m)
  all_goals exact ⟨rfl, rfl, rfl, rfl, rfl, rfl, rfl⟩

/-- R80: the session belongs to the SCT unit and `SRESET`. -/
theorem effect_sc (c : Cfg) {i : Instr} (s : State) (hi : i ∉ [Instr.sreset, Instr.scInit, Instr.scEnd])
    (hgen : ∀ m, i ≠ .scGen m) : (effect c i s).sc = s.sc := by
  cases i
  case sreset => simp at hi
  case scInit => simp at hi
  case scEnd => simp at hi
  case scGen m => exact absurd rfl (hgen m)
  case kdfDerive m => rw [effect, kdfRun_kept]
  all_goals rfl

/-- The commands that answer in no register (R111, R166, R167, R213). -/
theorem effect_results (c : Cfg) {i : Instr} (s : State)
    (hi : i ∈ [Instr.nop, Instr.kdfClear, Instr.scEnd] ∨ ∃ m, i = .kdfDerive m) :
    (effect c i s).res0 = s.res0 ∧ (effect c i s).res1 = s.res1 := by
  rcases hi with hi | ⟨m, rfl⟩
  · simp only [List.mem_cons, List.not_mem_nil, or_false] at hi
    rcases hi with rfl | rfl | rfl <;> exact ⟨rfl, rfl⟩
  · rw [effect, kdfRun_kept]
    exact ⟨rfl, rfl⟩

/-! ### The host's accesses -/

/-- A host write to its own pixels changes them or nothing (R70, R72). -/
theorem pixWrite_next {w : Width} {off : Nat} {v : Word} (hx : pixWrite w off v s = .next t) :
    ∃ m, t = { s with pix := m } := by
  unfold pixWrite at hx
  split at hx
  · cases hx
  · split at hx
    · cases hx
      exact ⟨_, rfl⟩
    · cases hx
      exact ⟨s.pix, rfl⟩

/-- What one step can do to a state whose input has been taken: the table builder, the end of a command, a hardware
reset, or an access of the host. A step that changes nothing is a `read` of the word that stood there. -/
inductive Moves (s t : State) : Prop where
  | built (busy : s.busy = true) (unready : s.tblReady = false) (h : t = buildTables Config.cfg s)
  | command (i : Instr) (busy : s.busy = true) (ready : s.tblReady = true) (ends : Ends i s t)
  | illegal (busy : s.busy = true) (ready : s.tblReady = true) (h : t = raise .illegal s.cmd 0 s)
  | reset (r : Residue) (h : t = hardwareReset Config.cfg r s)
  | read (v : Word) (n : Nat) (h : t = { s with rdata := v, freeCtr := n })
  | dropped (h : t = { s with wrign := true })
  | pixels (m : Mem 8) (h : t = { s with pix := m })
  | written (sp : Space) (off : Nat) (v : Word) (idle : s.busy = false) (h : t = idleWrite sp off v s)

theorem advance_moves (hx : advance s = .next t) : Moves s t := by
  rcases advance_cases s with ⟨_, ha⟩ | ⟨hb, hr, ha⟩ | ⟨hb, hr, i, _, ha⟩ | ⟨hb, hr, _, ha⟩
  · cases ha.symm.trans hx
    exact .read s.rdata s.freeCtr rfl
  · cases ha.symm.trans hx
    exact .built hb hr rfl
  · exact .command i hb hr (exec_ends i (ha.symm.trans hx))
  · cases ha.symm.trans hx
    exact .illegal hb hr rfl

theorem portWrite_moves (sp : Space) (w : Width) (off : Nat) (v : Word) (s : State) :
    Moves s (portWrite Config.cfg sp w off v s) := by
  rcases portWrite_cases Config.cfg sp w off v s with hp | ⟨_, hp⟩ | ⟨hidle, _, _, hp⟩
  · exact .read s.rdata s.freeCtr hp
  · exact .dropped hp
  · exact .written sp off v hidle hp

theorem hostWrite_moves {sp : Space} {w : Width} {off : Nat} {v : Word}
    (hx : hostWrite Config.cfg sp w off v s = .next t) : Moves s t := by
  cases sp
  case pix =>
    obtain ⟨m, h⟩ := pixWrite_next hx
    exact .pixels m h
  all_goals
    cases hx
    exact portWrite_moves _ w off v s

theorem hostRead_moves (sp : Space) (w : Width) (off : Nat) (s : State) :
    Moves s (hostRead Config.cfg sp w off s) := by
  obtain ⟨v, n, h⟩ := hostRead_frame Config.cfg sp w off s
  exact .read v n h

theorem hostEvent_moves (e : HostEvent) (hx : hostEvent e s = .next t) : Moves s t := by
  cases e with
  | write sp w off v => exact hostWrite_moves hx
  | read sp w off =>
    cases hx
    exact hostRead_moves sp w off s
  | busWrite w addr v =>
    simp only [hostEvent, busWriteAt] at hx
    split at hx
    · cases hx
      exact .read s.rdata s.freeCtr rfl
    · exact hostWrite_moves hx
  | busRead w addr =>
    cases hx
    unfold busReadAt
    split
    · exact .read 0 s.freeCtr rfl
    · exact hostRead_moves _ w _ s
  | wait => exact advance_moves hx
  | hwReset r =>
    cases hx
    exact .reset r rfl

/-- R20: a step takes an event of the input, if there is one, and then makes one move. -/
theorem step_moves (hx : step s = .next t) : ∃ rest, Moves { s with input := rest } t := by
  rcases step_cases s with ⟨hin, hs⟩ | ⟨e, rest, _, hs⟩
  · refine ⟨[], advance_moves ?_⟩
    rw [← hin]
    exact hs.symm.trans hx
  · exact ⟨rest, hostEvent_moves e (hs.symm.trans hx)⟩

/-- No host write reaches the session (R30, R40). -/
@[simp] theorem idleWrite_sc (sp : Space) (off : Nat) (v : Word) (s : State) :
    (idleWrite sp off v s).sc = s.sc := by
  cases sp with
  | reg =>
    simp only [idleWrite]
    cases regOfIndex (off / 4)
    case cmd =>
      simp only [writeReg, writeCmd]
      split <;> rfl
    all_goals rfl
  | _ => rfl

end Sys2Proof.Proofs
end


section
/-! SUPPORT. The session through its commands (`spec/43_scatter.md`): what a draw and the switch leave of the books of
a sound session, that neither leaves the pool, and how `SC.INIT` starts one. -/

namespace Sys2Proof.Proofs

open Sys2Proof.Machine Sys2Proof.Safety Sys2Proof.Laws

variable {x : Scatter}

/-! ### The counters -/

theorem total_le_of_sound (h : SessionSound x) : x.total.toNat ≤ 12 * 2 ^ 28 := by
  have := h.total_eq
  have := h.avail_le
  omega

/-- An address to spare keeps `SC_USED` from overflowing. -/
theorem used_add_one (h : SessionSound x) (hr : 1 ≤ remaining x) :
    (x.used + 1).toNat = x.used.toNat + 1 := by
  have hu : x.used.toNat < x.total.toNat := by
    unfold remaining at hr
    omega
  have ht := total_le_of_sound h
  exact BitVec.toNat_add_of_lt (show x.used.toNat + 1 < 2 ^ 32 by omega)

/-- R199: in either mode the Shaped free space is the budget that is left. -/
theorem freeSpace_shaped (h : SessionSound x) : freeSpace x .shaped = shapedBudget x := by
  cases hm : x.mode with
  | uniform => simp only [freeSpace, hm]
  | shaped =>
    rw [← h.shaped_budget hm]
    simp only [freeSpace, hm]

theorem freeSpace_uniform (hm : x.mode = .uniform) : freeSpace x .uniform = remaining x := by
  simp only [freeSpace, hm]

/-- R200, R212: a session that has switched has no room for Uniform requests. -/
theorem mode_uniform_of_freeSpace (hf : 1 ≤ freeSpace x .uniform) : x.mode = .uniform := by
  cases hm : x.mode with
  | uniform => rfl
  | shaped => simp [freeSpace, hm] at hf

/-- Half the pool is at most the pool. -/
theorem shapedBudget_le_remaining (x : Scatter) : shapedBudget x ≤ remaining x := by
  unfold shapedBudget remaining
  omega

theorem freeSpace_le_remaining (h : SessionSound x) (m : Mode) : freeSpace x m ≤ remaining x := by
  cases m with
  | uniform => cases hm : x.mode <;> simp [freeSpace, hm]
  | shaped =>
    rw [freeSpace_shaped h]
    exact shapedBudget_le_remaining x

/-- R80: a sound session that fits keeps its live window inside the pool. -/
theorem total_le_poolMax (h : SessionSound x) (hf : PoolFits x) : x.total.toNat ≤ Config.cfg.poolMax := by
  have := h.total_eq
  have := hf.avail_le
  unfold Cfg.poolMax
  omega

/-- A write below `SC_TOTAL` does not leave the pool. -/
theorem memWrite_pool_within (h : SessionSound x) (hf : PoolFits x) {a : Nat} (v : Word)
    (ha : a < x.total.toNat) : (memWrite x.pool a v).within Config.cfg.poolMax := by
  refine memWriteList_within hf.pool_within a [v] ?_
  have := total_le_poolMax h hf
  simp only [List.length_singleton]
  omega

/-! ### A Uniform draw -/

theorem uniformDraw_used (c : Cfg) (h : SessionSound x) (hr : 1 ≤ remaining x) :
    (uniformDraw c x).1.used.toNat = x.used.toNat + 1 := used_add_one h hr

/-- R198: the books after one Uniform draw. -/
theorem uniformDraw_sound (c : Cfg) (h : SessionSound x) (hm : x.mode = .uniform) (hr : 1 ≤ remaining x) :
    SessionSound (uniformDraw c x).1 := by
  have hused := uniformDraw_used c h hr
  have hlt : x.used.toNat + 1 ≤ x.total.toNat := by
    unfold remaining at hr
    omega
  have ht := total_le_of_sound h
  have hperm := uniformDraw_perm c x hr (by omega)
  have hmode : (uniformDraw c x).1.mode = .uniform := hm
  have notShaped {P : Prop} (hs : (uniformDraw c x).1.mode = .shaped) : P := by simp [hmode] at hs
  have hissue : issuable x = liveWindow x := by simp only [issuable, hm]
  have hissue' : issuable (uniformDraw c x).1 = liveWindow (uniformDraw c x).1 := by
    simp only [issuable, hmode]
  exact
    { total_eq := h.total_eq
      avail_le := h.avail_le
      used_le := hused ▸ hlt
      la_length := h.la_length
      laIdx_le := h.laIdx_le
      uniform_layers := fun _ k hk =>
        calc layerCount (liveWindow (uniformDraw c x).1) k
            ≤ layerCount ((uniformDraw c x).2 :: liveWindow (uniformDraw c x).1) k :=
              ((List.sublist_cons_self _ _).filter _).length_le
          _ = layerCount (liveWindow x) k := layerCount_perm hperm k
          _ ≤ 3 * x.avail.toNat := h.uniform_layers hm k hk
      shaped_header := notShaped
      shaped_budget := notShaped
      shaped_quota := notShaped
      shaped_order := notShaped
      shaped_end := notShaped
      distinct := by
        rw [hissue']
        exact (List.nodup_cons.mp (hperm.nodup_iff.mpr (hissue ▸ h.distinct))).2 }

theorem uniformDraw_fits (c : Cfg) (h : SessionSound x) (hr : 1 ≤ remaining x) (hf : PoolFits x) :
    PoolFits (uniformDraw c x).1 where
  avail_le := hf.avail_le
  pool_within := by
    have hidx := drawIndex_lt (c.prngStep x.prng).2 (remaining x) x.pos hr
    refine memWrite_pool_within h hf _ (Nat.lt_of_lt_of_le hidx ?_)
    unfold remaining
    omega

/-! ### The switch -/

/-- R203, R204: four runs of at most `q` entries that meet and together are a window of `n` entries. -/
structure Partition (base live : Vector Word 4) (n q : Nat) : Prop where
  base0 : base[0].toNat = 0
  base1 : base[1].toNat = base[0].toNat + live[0].toNat
  base2 : base[2].toNat = base[1].toNat + live[1].toNat
  base3 : base[3].toNat = base[2].toNat + live[2].toNat
  whole : base[3].toNat + live[3].toNat = n
  size : ∀ k : Fin 4, live[k].toNat ≤ q

theorem Partition.sum {base live : Vector Word 4} {n q : Nat} (h : Partition base live n q) :
    live[0].toNat + live[1].toNat + live[2].toNat + live[3].toNat = n := by
  obtain ⟨h0, h1, h2, h3, hn, _⟩ := h
  omega

theorem Partition.order {base live : Vector Word 4} {n q : Nat} (h : Partition base live n q) :
    ∀ j k : Fin 4, j < k → base[j].toNat + live[j].toNat ≤ base[k].toNat := by
  obtain ⟨h0, h1, h2, h3, _, _⟩ := h
  simp only [Fin.forall_fin_succ, Fin.forall_fin_zero]
  simp
  omega

theorem Partition.ends {base live : Vector Word 4} {n q : Nat} (h : Partition base live n q) (k : Fin 4) :
    base[k].toNat + live[k].toNat ≤ n := by
  obtain ⟨h0, h1, h2, h3, hn, _⟩ := h
  revert k
  simp [Fin.forall_fin_succ]
  omega

/-- The buckets of a partition, one after the other, are the window. -/
theorem Partition.issuable {y : Scatter} {n q : Nat} (h : Partition y.base y.live n q)
    (hm : y.mode = .shaped) : issuable y = memReadList y.pool 0 n := by
  obtain ⟨h0, h1, h2, h3, hn, _⟩ := h
  calc Safety.issuable y
      = bucketEntries y 0 ++ (bucketEntries y 1 ++ (bucketEntries y 2 ++ bucketEntries y 3)) :=
        issuable_shaped y hm
    _ = memReadList y.pool y.base[0].toNat y.live[0].toNat ++
          (memReadList y.pool y.base[1].toNat y.live[1].toNat ++
            (memReadList y.pool y.base[2].toNat y.live[2].toNat ++
              memReadList y.pool y.base[3].toNat y.live[3].toNat)) := rfl
    _ = memReadList y.pool 0 n := by
        rw [h3, memReadList_append, h2, memReadList_append, h1, memReadList_append, h0]
        congr 1
        omega

/-- R203: after the sort the buckets are the layers. -/
theorem partition_sortSwitch (h : SessionSound x) (hm : x.mode = .uniform) :
    Partition (sortSwitch x).base (sortSwitch x).live (remaining x) (3 * x.avail.toNat) := by
  have hsum := layerCount_sum (liveWindow x)
  rw [show (liveWindow x).length = remaining x from memReadList_length _ _ _] at hsum
  have hle : remaining x ≤ 12 * 2 ^ 28 := Nat.le_trans (Nat.sub_le _ _) (total_le_of_sound h)
  have l0 := h.uniform_layers hm 0 (by omega)
  have l1 := h.uniform_layers hm 1 (by omega)
  have l2 := h.uniform_layers hm 2 (by omega)
  have l3 := h.uniform_layers hm 3 (by omega)
  refine ⟨rfl, ?_, ?_, ?_, ?_, ?_⟩
  case refine_1 => simp [sortSwitch]
  all_goals
    simp [sortSwitch, Fin.forall_fin_succ]
    omega

/-- R204: without the sort the buckets are what is left of the layers' regions. -/
theorem partition_positionSwitch (h : SessionSound x) :
    Partition (positionSwitch x).base (positionSwitch x).live (remaining x) (3 * x.avail.toNat) := by
  have hle : remaining x ≤ 12 * x.avail.toNat := h.total_eq ▸ Nat.sub_le _ _
  have hav := h.avail_le
  have cut (k : Nat) : positionBase (3 * x.avail.toNat) (remaining x) k ≤ remaining x := Nat.min_le_right _ _
  have base (k : Fin 4) : (positionSwitch x).base[k].toNat =
      positionBase (3 * x.avail.toNat) (remaining x) k := by
    have := cut k
    simp [positionSwitch]
    omega
  have live (k : Fin 4) : (positionSwitch x).live[k].toNat =
      positionBase (3 * x.avail.toNat) (remaining x) (k + 1)
        - positionBase (3 * x.avail.toNat) (remaining x) k := by
    have := cut (k + 1)
    simp [positionSwitch]
    omega
  simp [Fin.forall_fin_succ, positionBase] at base live
  obtain ⟨base0, base1, base2, base3⟩ := base
  obtain ⟨live0, live1, live2, live3⟩ := live
  refine ⟨base0, ?_, ?_, ?_, ?_, ?_⟩
  case refine_5 =>
    simp [Fin.forall_fin_succ]
    omega
  all_goals omega

/-- R202: which of the two ways the switch takes. -/
theorem switchToShaped_eq (x : Scatter) :
    ∃ y,
      (x.avail.toNat < sortPixels ∧ y = sortSwitch x ∨ sortPixels ≤ x.avail.toNat ∧ y = positionSwitch x) ∧
      switchToShaped x = { y with rq := quotas y.live (shapedBudget x), laIdx := laLen, mode := .shaped } := by
  by_cases hlt : x.avail.toNat < sortPixels
  · exact ⟨_, .inl ⟨hlt, rfl⟩, by simp only [switchToShaped, if_pos hlt]⟩
  · exact ⟨_, .inr ⟨by omega, rfl⟩, by simp only [switchToShaped, if_neg hlt]⟩

/-- R202: the switch rewrites the pool, the buckets, the quotas, the lookahead index, the mode and the scratch array,
and nothing else. -/
theorem switchToShaped_frame (x : Scatter) :
    switchToShaped x =
      { x with
        pool := (switchToShaped x).pool, base := (switchToShaped x).base, live := (switchToShaped x).live
        rq := quotas (switchToShaped x).live (shapedBudget x), laIdx := laLen, mode := .shaped
        scratch := (switchToShaped x).scratch } := by
  obtain ⟨y, ⟨_, rfl⟩ | ⟨_, rfl⟩, he⟩ := switchToShaped_eq x
  · rw [he]; rfl
  · rw [he]; rfl

/-- R203: the sort is of the live window, through a scratch array that is empty again. -/
theorem switchToShaped_scratch (h : x.scratch = []) : (switchToShaped x).scratch = [] := by
  obtain ⟨y, ⟨_, rfl⟩ | ⟨_, rfl⟩, he⟩ := switchToShaped_eq x
  · rw [he]; rfl
  · rw [he]; exact h

theorem partition_switchToShaped (h : SessionSound x) (hm : x.mode = .uniform) :
    Partition (switchToShaped x).base (switchToShaped x).live (remaining x) (3 * x.avail.toNat) := by
  obtain ⟨y, ⟨_, rfl⟩ | ⟨_, rfl⟩, he⟩ := switchToShaped_eq x
  · rw [he]; exact partition_sortSwitch h hm
  · rw [he]; exact partition_positionSwitch h

/-- R203, R204: the switch at most permutes the live window. -/
theorem switchToShaped_window (x : Scatter) :
    (memReadList (switchToShaped x).pool 0 (remaining x)).Perm (liveWindow x) := by
  rw [switchToShaped_pool]
  split
  · have hlen : (sortByLayer (liveWindow x)).length = remaining x := by
      rw [(sortByLayer_perm _).length_eq]
      exact memReadList_length _ _ _
    have hread := memReadList_memWriteList x.pool 0 (sortByLayer (liveWindow x)) 0 (remaining x) (by omega)
    rw [Nat.zero_add, List.drop_zero, List.take_of_length_le (by omega)] at hread
    rw [hread]
    exact sortByLayer_perm _
  · exact List.Perm.refl _

theorem switchDue_iff (m : Mode) (x : Scatter) :
    switchDue m x = true ↔ m = .shaped ∧ x.mode = .uniform ∧ headerSlots ≤ x.used.toNat := by
  simp [switchDue]

/-- R202 to R205: the books after the switch. -/
theorem switchToShaped_sound (h : SessionSound x) (hm : x.mode = .uniform)
    (hu : headerSlots ≤ x.used.toNat) : SessionSound (switchToShaped x) := by
  have hp := partition_switchToShaped h hm
  have htotal := h.total_eq
  have hrem : remaining x = 12 * x.avail.toNat - x.used.toNat := by rw [remaining, htotal]
  have hbudget : shapedBudget x = 6 * x.avail.toNat - x.used.toNat := by
    unfold shapedBudget
    omega
  obtain ⟨hquotas, hquota⟩ := quotas_sum _ (shapedBudget x) x.avail.toNat x.used.toNat
    (hp.sum.trans hrem) hbudget hu h.avail_le hp.size
  have hdistinct : (issuable (switchToShaped x)).Nodup := by
    rw [hp.issuable (by rw [switchToShaped_frame])]
    refine (switchToShaped_window x).nodup_iff.mpr ?_
    have := h.distinct
    simpa only [issuable, hm] using this
  have hends : ∀ k : Fin 4, (switchToShaped x).base[k].toNat + (switchToShaped x).live[k].toNat
      ≤ x.total.toNat := fun k => Nat.le_trans (hp.ends k) (Nat.sub_le _ _)
  have horder := hp.order
  rw [switchToShaped_frame] at hdistinct ⊢
  exact
    { total_eq := h.total_eq
      avail_le := h.avail_le
      used_le := h.used_le
      la_length := h.la_length
      laIdx_le := Nat.le_refl _
      uniform_layers := nofun
      shaped_header := fun _ => hu
      shaped_budget := fun _ => hquotas
      shaped_quota := fun _ => hquota
      shaped_order := fun _ => horder
      shaped_end := fun _ => hends
      distinct := hdistinct }

theorem switchToShaped_fits (h : SessionSound x) (hf : PoolFits x) : PoolFits (switchToShaped x) where
  avail_le := by
    rw [switchToShaped_frame]
    exact hf.avail_le
  pool_within := by
    rw [switchToShaped_pool]
    split
    · refine memWriteList_within hf.pool_within 0 _ ?_
      have hlen := (sortByLayer_perm (liveWindow x)).length_eq
      have hwin : (liveWindow x).length = x.total.toNat - x.used.toNat := memReadList_length _ _ _
      have := total_le_poolMax h hf
      omega
    · exact hf.pool_within

/-! ### A Shaped draw -/

/-- R206: a refill, if one is needed, leaves a lookahead sample to read. -/
theorem ensureLookahead_laIdx_lt (c : Cfg) (h : SessionSound x) : (ensureLookahead c x).laIdx < laLen := by
  have hle := h.laIdx_le
  by_cases hu : x.laIdx = laLen
  · rw [ensureLookahead, if_pos hu]
    exact Nat.zero_lt_succ 4095
  · rw [ensureLookahead, if_neg hu]
    omega

theorem ensureLookahead_la_length (c : Cfg) (h : SessionSound x) :
    (ensureLookahead c x).la.length = laLen := by
  unfold ensureLookahead
  split
  · exact refill_la_length c x
  · exact h.la_length

/-- R206: a refill changes the PRNG state and the lookahead alone. -/
theorem ensureLookahead_frame (c : Cfg) (x : Scatter) :
    ensureLookahead c x =
      { x with
        prng := (ensureLookahead c x).prng, la := (ensureLookahead c x).la
        laIdx := (ensureLookahead c x).laIdx } := by
  by_cases hu : x.laIdx = laLen
  · simp only [ensureLookahead, if_pos hu, refill]
  · simp only [ensureLookahead, if_neg hu]

/-- R206: the session a bucket is chosen in: the lookahead filled and its sample taken. -/
def sampled (c : Cfg) (x : Scatter) : Scatter :=
  { ensureLookahead c x with laIdx := (ensureLookahead c x).laIdx + 1 }

theorem shapedDraw_eq (c : Cfg) (x : Scatter) :
    shapedDraw c x = bucketDraw c (selectedBucket (ensureLookahead c x)) (sampled c x) := rfl

/-- Taking a sample changes the PRNG state and the lookahead alone. -/
theorem sampled_frame (c : Cfg) (x : Scatter) :
    sampled c x =
      { x with
        prng := (sampled c x).prng, la := (ensureLookahead c x).la
        laIdx := (ensureLookahead c x).laIdx + 1 } := by
  unfold sampled
  rw [ensureLookahead_frame]

theorem sampled_sound (c : Cfg) (h : SessionSound x) : SessionSound (sampled c x) := by
  rw [sampled_frame]
  exact { h with
    la_length := ensureLookahead_la_length c h
    laIdx_le := ensureLookahead_laIdx_lt c h }

theorem sampled_fits (c : Cfg) (hf : PoolFits x) : PoolFits (sampled c x) := by
  rw [sampled_frame]
  exact { hf with }

/-- R207: the bucket chosen has quota left. -/
theorem selectedBucket_quota (hb : 1 ≤ quotaSum x) : x.rq[selectedBucket x] ≠ 0 := by
  refine bucketWithQuota_ne_zero x.rq _ ?_
  by_contra hno
  simp [Fin.forall_fin_succ] at hno
  simp [quotaSum, hno] at hb

/-- One unit taken from the count of bucket `k`. -/
theorem toNat_set_sub_one (v : Vector Word 4) (k j : Fin 4) (hk : 1 ≤ v[k].toNat) :
    (v.set k.val (v[k] - 1) k.isLt)[j].toNat = if k = j then v[j].toNat - 1 else v[j].toNat := by
  by_cases hkj : k = j
  · subst hkj
    rw [if_pos rfl, Fin.getElem_fin, Vector.getElem_set_self]
    exact BitVec.toNat_sub_of_le (BitVec.le_def.mpr hk)
  · have hne : k.val ≠ j.val := fun he => hkj (Fin.ext he)
    rw [if_neg hkj, Fin.getElem_fin, Vector.getElem_set_ne _ _ hne, Fin.getElem_fin]

theorem bucketDraw_rq (c : Cfg) (k j : Fin 4) (hq : 1 ≤ x.rq[k].toNat) :
    (bucketDraw c k x).1.rq[j].toNat = if k = j then x.rq[j].toNat - 1 else x.rq[j].toNat :=
  toNat_set_sub_one x.rq k j hq

theorem bucketDraw_live (c : Cfg) (k j : Fin 4) (hl : 1 ≤ x.live[k].toNat) :
    (bucketDraw c k x).1.live[j].toNat = if k = j then x.live[j].toNat - 1 else x.live[j].toNat :=
  toNat_set_sub_one x.live k j hl

theorem rq_le_quotaSum (x : Scatter) (k : Fin 4) : x.rq[k].toNat ≤ quotaSum x := by
  revert k
  simp [Fin.forall_fin_succ, quotaSum]
  omega

/-- Counting one bucket's quota down counts the sum down (R199, R208). -/
theorem bucketDraw_quotaSum (c : Cfg) (k : Fin 4) (hq : 1 ≤ x.rq[k].toNat) :
    quotaSum (bucketDraw c k x).1 = quotaSum x - 1 := by
  have hrq := fun j => bucketDraw_rq c k j hq
  simp only [Fin.forall_fin_succ] at hrq
  obtain ⟨h0, h1, h2, h3, _⟩ := hrq
  have hall : ∀ k : Fin 4, k = 0 ∨ k = 1 ∨ k = 2 ∨ k = 3 := by decide
  rcases hall k with rfl | rfl | rfl | rfl <;>
  · simp at h0 h1 h2 h3 hq
    simp only [quotaSum, h0, h1, h2, h3]
    omega

/-- R208: the books after one draw from a bucket with quota. -/
theorem bucketDraw_sound (c : Cfg) (h : SessionSound x) (hm : x.mode = .shaped) {k : Fin 4}
    (hq : 1 ≤ x.rq[k].toNat) : SessionSound (bucketDraw c k x).1 := by
  have hl : 1 ≤ x.live[k].toNat := Nat.le_trans hq (h.shaped_quota hm k)
  have hlive (j : Fin 4) : (bucketDraw c k x).1.live[j].toNat ≤ x.live[j].toNat := by
    rw [bucketDraw_live c k j hl]
    split <;> omega
  have hbudget := h.shaped_budget hm
  have hsum := bucketDraw_quotaSum c k hq
  have hone : 1 ≤ quotaSum x := Nat.le_trans hq (rq_le_quotaSum x k)
  have hused : (bucketDraw c k x).1.used.toNat = x.used.toNat + 1 :=
    used_add_one h (Nat.le_trans (hbudget ▸ hone) (shapedBudget_le_remaining x))
  have hle : x.used.toNat + 1 ≤ x.total.toNat / 2 := by
    unfold shapedBudget at hbudget
    omega
  have hmode : (bucketDraw c k x).1.mode = .shaped := hm
  exact
    { total_eq := h.total_eq
      avail_le := h.avail_le
      used_le := by
        rw [hused]
        show _ ≤ x.total.toNat
        omega
      la_length := h.la_length
      laIdx_le := h.laIdx_le
      uniform_layers := fun hu => by simp [hmode] at hu
      shaped_header := fun _ => hused ▸ Nat.le_succ_of_le (h.shaped_header hm)
      shaped_budget := fun _ => by
        rw [hsum, hbudget, shapedBudget, shapedBudget, hused]
        rfl
      shaped_quota := fun _ j => by
        have := h.shaped_quota hm j
        rw [bucketDraw_rq c k j hq, bucketDraw_live c k j hl]
        split <;> omega
      shaped_order := fun _ i j hij =>
        Nat.le_trans (Nat.add_le_add_left (hlive i) _) (h.shaped_order hm i j hij)
      shaped_end := fun _ j => Nat.le_trans (Nat.add_le_add_left (hlive j) _) (h.shaped_end hm j)
      distinct :=
        (List.nodup_cons.mp
          ((bucketDraw_issuable_perm c x k hm hl (h.shaped_order hm)).nodup_iff.mpr h.distinct)).2 }

theorem bucketDraw_fits (c : Cfg) (h : SessionSound x) (hm : x.mode = .shaped) {k : Fin 4}
    (hq : 1 ≤ x.rq[k].toNat) (hf : PoolFits x) : PoolFits (bucketDraw c k x).1 where
  avail_le := hf.avail_le
  pool_within := by
    have hidx := drawIndex_lt (c.prngStep x.prng).2 x.live[k].toNat x.pos
      (Nat.le_trans hq (h.shaped_quota hm k))
    have hend := h.shaped_end hm k
    exact memWrite_pool_within h hf _ (by omega)

/-- R206 to R208: a Shaped draw keeps the books, the room in the pool and the mode, and counts in `SC_USED`. -/
theorem shapedDraw_keeps (c : Cfg) (h : SessionSound x) (hm : x.mode = .shaped) (hb : 1 ≤ shapedBudget x) :
    SessionSound (shapedDraw c x).1 ∧ (PoolFits x → PoolFits (shapedDraw c x).1) := by
  have hs := sampled_sound c h
  have hms : (sampled c x).mode = .shaped := by rw [sampled_frame]; exact hm
  have hq : 1 ≤ (sampled c x).rq[selectedBucket (ensureLookahead c x)].toNat := by
    refine Nat.one_le_iff_ne_zero.mpr fun hz => ?_
    refine selectedBucket_quota (x := ensureLookahead c x) ?_ (BitVec.eq_of_toNat_eq hz)
    rw [ensureLookahead_frame]
    exact (h.shaped_budget hm).symm ▸ hb
  rw [shapedDraw_eq]
  exact ⟨bucketDraw_sound c hs hms hq, fun hf => bucketDraw_fits c hs hms hq (sampled_fits c hf)⟩

/-! ### Requests -/

theorem shapedDraw_used (c : Cfg) (x : Scatter) : (shapedDraw c x).1.used = x.used + 1 := by
  rw [shapedDraw_eq, sampled_frame]
  rfl

/-- What every Shaped draw leaves alone. -/
theorem shapedDraw_kept (c : Cfg) (x : Scatter) :
    (shapedDraw c x).1.valid = x.valid ∧ (shapedDraw c x).1.mode = x.mode ∧
      (shapedDraw c x).1.total = x.total ∧ (shapedDraw c x).1.scratch = x.scratch := by
  rw [shapedDraw_eq, sampled_frame]
  exact ⟨rfl, rfl, rfl, rfl⟩

/-- R198, R208: every draw counts in `SC_USED` and leaves `SC_TOTAL`. -/
theorem drawSlot_counters (c : Cfg) (m : Mode) (x : Scatter) :
    (drawSlot c m x).1.used = x.used + 1 ∧ (drawSlot c m x).1.total = x.total := by
  rcases drawSlot_cases c m x with ⟨_, hd⟩ | ⟨_, _, hd⟩ | ⟨_, _, hd⟩
  · obtain ⟨_, _, htotal, _⟩ := shapedDraw_kept c (switchToShaped x)
    rw [hd, shapedDraw_used, htotal, switchToShaped_frame]
    exact ⟨rfl, rfl⟩
  · rw [hd]
    exact ⟨rfl, rfl⟩
  · obtain ⟨_, _, htotal, _⟩ := shapedDraw_kept c x
    rw [hd]
    exact ⟨shapedDraw_used c x, htotal⟩

/-- R200: only a Shaped request switches. -/
theorem drawSlot_uniform (c : Cfg) (hm : x.mode = .uniform) :
    drawSlot c .uniform x = uniformDraw c x := by
  simp [drawSlot, switchDue, hm]

/-- R212: a draw that there is room for keeps the books, and the pool's room. -/
theorem drawSlot_sound (c : Cfg) (m : Mode) (h : SessionSound x) (hf : 1 ≤ freeSpace x m) :
    SessionSound (drawSlot c m x).1 ∧ (PoolFits x → PoolFits (drawSlot c m x).1) := by
  have hr := Nat.le_trans hf (freeSpace_le_remaining h m)
  rcases drawSlot_cases c m x with ⟨hdue, hd⟩ | ⟨_, hm, hd⟩ | ⟨_, hm, hd⟩
  · obtain ⟨rfl, hm, hheader⟩ := (switchDue_iff m x).mp hdue
    have hs := switchToShaped_sound h hm hheader
    have hsm : (switchToShaped x).mode = .shaped := by rw [switchToShaped_frame]
    have hbudget : shapedBudget (switchToShaped x) = shapedBudget x := by
      rw [switchToShaped_frame]
      rfl
    obtain ⟨hsound, hfits⟩ := shapedDraw_keeps c hs hsm (by rw [hbudget, ← freeSpace_shaped h]; exact hf)
    rw [hd]
    exact ⟨hsound, fun hp => hfits (switchToShaped_fits h hp)⟩
  · rw [hd]
    exact ⟨uniformDraw_sound c h hm hr, uniformDraw_fits c h hr⟩
  · rw [hd]
    cases m with
    | uniform => simp [freeSpace, hm] at hf
    | shaped => exact shapedDraw_keeps c h hm (freeSpace_shaped h ▸ hf)

/-- R209 (b): a draw takes one from the room in its mode. -/
theorem freeSpace_drawSlot (c : Cfg) (m : Mode) (h : SessionSound x) (hf : 1 ≤ freeSpace x m) :
    freeSpace (drawSlot c m x).1 m = freeSpace x m - 1 := by
  obtain ⟨hused, htotal⟩ := drawSlot_counters c m x
  have hone := used_add_one h (Nat.le_trans hf (freeSpace_le_remaining h m))
  obtain ⟨hsound, _⟩ := drawSlot_sound c m h hf
  cases m with
  | shaped =>
    rw [freeSpace_shaped hsound, freeSpace_shaped h, shapedBudget, shapedBudget, hused, htotal, hone,
      Nat.sub_add_eq]
  | uniform =>
    have hm := mode_uniform_of_freeSpace hf
    have hm' : (drawSlot c .uniform x).1.mode = .uniform := by
      rw [drawSlot_uniform c hm]
      exact hm
    rw [freeSpace_uniform hm', freeSpace_uniform hm, remaining, remaining, hused, htotal, hone,
      Nat.sub_add_eq]

/-- R212: a request that there is room for keeps the books, and the pool's room. -/
theorem drawSlots_sound (c : Cfg) (m : Mode) (n : Nat) (h : SessionSound x) (hf : n ≤ freeSpace x m) :
    SessionSound (drawSlots c m n x).1 ∧ (PoolFits x → PoolFits (drawSlots c m n x).1) := by
  induction n generalizing x with
  | zero => exact ⟨h, id⟩
  | succ n ih =>
    obtain ⟨hsound, hfits⟩ := drawSlot_sound c m h (by omega)
    have hroom := freeSpace_drawSlot c m h (by omega)
    obtain ⟨hsound', hfits'⟩ := ih hsound (by omega)
    exact ⟨hsound', fun hp => hfits' (hfits hp)⟩

/-! ### No session, and a new one -/

/-- A session of no pixels is sound (R41, R113, R213). -/
theorem sound_of_empty (hm : x.mode = .uniform) (ha : x.avail = 0) (ht : x.total = 0) (hu : x.used = 0)
    (hla : x.la.length = laLen) (hidx : x.laIdx = laLen) : SessionSound x := by
  have hempty : liveWindow x = [] := by simp [liveWindow, remaining, ht, memReadList]
  have notShaped {P : Prop} (hs : x.mode = .shaped) : P := by simp [hm] at hs
  exact
    { total_eq := by simp [ht, ha]
      avail_le := by simp [ha]
      used_le := by simp [hu]
      la_length := hla
      laIdx_le := hidx.le
      uniform_layers := fun _ k _ => by simp [hempty, layerCount, ofLayer]
      shaped_header := notShaped
      shaped_budget := notShaped
      shaped_quota := notShaped
      shaped_order := notShaped
      shaped_end := notShaped
      distinct := by simp [issuable, hm, hempty] }

theorem endSession_sound (h : SessionSound x) : SessionSound (endSession x) :=
  sound_of_empty rfl rfl rfl rfl h.la_length rfl

theorem endSession_fits (hf : PoolFits x) : PoolFits (endSession x) :=
  ⟨Nat.zero_le _, hf.pool_within⟩

/-- R191: the scan finds at most `n` pixels, each once, below `n`. -/
theorem scanPixels_length_le (pix : Mem 8) (n : Nat) : (scanPixels pix n).length ≤ n := by
  have := List.length_filter_le (available pix) (List.range n).reverse
  simpa [scanPixels] using this

theorem scanPixels_nodup (pix : Mem 8) (n : Nat) : (scanPixels pix n).Nodup :=
  (List.nodup_reverse.mpr List.nodup_range).filter _

theorem lt_of_mem_scanPixels {pix : Mem 8} {n p : Nat} (h : p ∈ scanPixels pix n) : p < n := by
  have := List.mem_of_mem_filter h
  simpa using this

/-- The live window of a new session is the pool of R192. -/
theorem liveWindow_startSession (c : Cfg) (seed : Vector Word 4) (pix : Mem 8) {n : Nat} (hn : n ≤ 2 ^ 28)
    (x : Scatter) : liveWindow (startSession c seed pix n x) = poolEntries (scanPixels pix n) := by
  have hlen := scanPixels_length_le pix n
  have hrem : remaining (startSession c seed pix n x) = 12 * (scanPixels pix n).length := by
    simp [remaining, startSession]
    omega
  have hread := memReadList_memWriteList x.pool 0 (poolEntries (scanPixels pix n)) 0
    (12 * (scanPixels pix n).length) (by simp)
  rw [liveWindow, hrem]
  simpa [startSession, List.take_of_length_le] using hread

/-- R192, R210: the books of a new session. -/
theorem startSession_sound (c : Cfg) (seed : Vector Word 4) (pix : Mem 8) {n : Nat} (hn : n ≤ 2 ^ 28)
    (h : SessionSound x) : SessionSound (startSession c seed pix n x) := by
  have hlen := scanPixels_length_le pix n
  have hbelow : ∀ p ∈ scanPixels pix n, p < 2 ^ 28 := fun p hp =>
    Nat.lt_of_lt_of_le (lt_of_mem_scanPixels hp) hn
  have havail : (startSession c seed pix n x).avail.toNat = (scanPixels pix n).length :=
    Nat.mod_eq_of_lt (by omega)
  have htotal : (startSession c seed pix n x).total.toNat = 12 * (scanPixels pix n).length :=
    Nat.mod_eq_of_lt (by omega)
  exact
    { total_eq := by rw [htotal, havail]
      avail_le := by omega
      used_le := Nat.zero_le _
      la_length := h.la_length
      laIdx_le := Nat.le_refl _
      uniform_layers := fun _ k hk => by
        rw [liveWindow_startSession c seed pix hn x, havail, layerCount_poolEntries hbelow hk]
      shaped_header := nofun
      shaped_budget := nofun
      shaped_quota := nofun
      shaped_order := nofun
      shaped_end := nofun
      distinct := by
        show (liveWindow (startSession c seed pix n x)).Nodup
        rw [liveWindow_startSession c seed pix hn x]
        exact poolEntries_nodup (scanPixels_nodup pix n) hbelow }

/-- R80, R210: a picture within `PIX_MAX` fills at most the pool. -/
theorem startSession_fits (seed : Vector Word 4) (pix : Mem 8) {n : Nat} (hn : n ≤ Config.cfg.pixMax)
    (hf : PoolFits x) : PoolFits (startSession Config.cfg seed pix n x) where
  avail_le := Nat.le_trans (Nat.mod_le _ _) (Nat.le_trans (scanPixels_length_le pix n) hn)
  pool_within := by
    refine memWriteList_within hf.pool_within 0 _ ?_
    have := scanPixels_length_le pix n
    simp only [poolEntries_length, Cfg.poolMax]
    omega

/-! ### Commands and moves -/

variable {s t : State}

/-- An error marks the session at most (R283). -/
theorem raise_sound (h : SessionSound s.sc) (e : CmdError) (i0 i1 : Word) :
    SessionSound (raise e i0 i1 s).sc := { h with }

theorem raise_fits (hf : PoolFits s.sc) (e : CmdError) (i0 i1 : Word) :
    PoolFits (raise e i0 i1 s).sc := { hf with }

theorem effect_sound {i : Instr} (h : SessionSound s.sc) (hg : Granted Config.cfg i s) :
    SessionSound (effect Config.cfg i s).sc ∧ (PoolFits s.sc → PoolFits (effect Config.cfg i s).sc) := by
  cases i
  case sreset => exact ⟨endSession_sound h, endSession_fits⟩
  case scEnd => exact ⟨endSession_sound h, endSession_fits⟩
  case scInit =>
    exact ⟨startSession_sound _ _ _ (Nat.le_trans hg Config.cfg_admissible.pixMax_le) h,
      startSession_fits _ _ hg⟩
  case scGen m => exact drawSlots_sound _ m _ h hg.2
  all_goals
    rw [effect_sc _ _ (by simp) (by simp)]
    exact ⟨h, id⟩

/-- R41: whatever a hardware reset leaves in `LA` and `POOL`, there is no session. -/
theorem hardwareReset_sound (r : Residue) (s : State) : SessionSound (hardwareReset Config.cfg r s).sc :=
  sound_of_empty rfl rfl rfl rfl (by simp [hardwareReset]) rfl

theorem hardwareReset_fits (r : Residue) (s : State) : PoolFits (hardwareReset Config.cfg r s).sc :=
  ⟨Nat.zero_le _, memWriteList_nil_take_within _ _⟩

theorem moves_sound (h : SessionSound s.sc) (hm : Moves s t) :
    SessionSound t.sc ∧ (PoolFits s.sc → PoolFits t.sc) := by
  cases hm with
  | built _ _ ht => subst ht; exact ⟨h, id⟩
  | command i _ _ ends =>
    cases ends with
    | done hg ht => subst ht; exact effect_sound h hg
    | raised e i0 i1 _ ht => subst ht; exact ⟨raise_sound h e i0 i1, fun hf => raise_fits hf e i0 i1⟩
  | illegal _ _ ht => subst ht; exact ⟨raise_sound h _ _ _, fun hf => raise_fits hf _ _ _⟩
  | reset r ht => subst ht; exact ⟨hardwareReset_sound r s, fun _ => hardwareReset_fits r s⟩
  | read v n ht => subst ht; exact ⟨h, id⟩
  | dropped ht => subst ht; exact ⟨h, id⟩
  | pixels m ht => subst ht; exact ⟨h, id⟩
  | written sp off v _ ht => subst ht; rw [idleWrite_sc]; exact ⟨h, id⟩

end Sys2Proof.Proofs
end

section
/-! SUPPORT. The registers through every move (`spec/10_state.md` R25 to R39): which fields the invariant speaks of,
and what each operation that writes one of them leaves there. -/

namespace Sys2Proof.Proofs

open Sys2Proof.Machine Sys2Proof.Safety Sys2Proof.Laws

variable {s t : State} {x : Scatter}

/-! ### The scatter registers -/

/-- The part of the registers' invariant that speaks of the scatter unit (R32, R33, R39). -/
structure ScatterConsistent (x : Scatter) : Prop where
  noSession : x.valid = false →
    x.mode = .uniform ∧ x.fault = false ∧ x.avail = 0 ∧ x.total = 0 ∧ x.used = 0 ∧ x.pos = 0
  notShaped : x.mode = .uniform →
    x.rq = Vector.replicate 4 0 ∧ x.live = Vector.replicate 4 0 ∧ x.base = Vector.replicate 4 0
  scratch_idle : x.scratch = []

theorem endSession_consistent (x : Scatter) : ScatterConsistent (endSession x) where
  noSession := fun _ => ⟨rfl, rfl, rfl, rfl, rfl, rfl⟩
  notShaped := fun _ => ⟨rfl, rfl, rfl⟩
  scratch_idle := rfl

theorem startSession_consistent (c : Cfg) (seed : Vector Word 4) (pix : Mem 8) (n : Nat) (x : Scatter) :
    ScatterConsistent (startSession c seed pix n x) where
  noSession := nofun
  notShaped := fun _ => ⟨rfl, rfl, rfl⟩
  scratch_idle := rfl

/-- A session's registers may hold anything, so that a draw in a session only has to keep the rebalancing registers
of Uniform mode and the scratch array. -/
theorem consistent_of_valid (hv : x.valid = true) (hr : x.mode = .uniform →
    x.rq = Vector.replicate 4 0 ∧ x.live = Vector.replicate 4 0 ∧ x.base = Vector.replicate 4 0)
    (hs : x.scratch = []) : ScatterConsistent x where
  noSession := fun h => by simp [hv] at h
  notShaped := hr
  scratch_idle := hs

theorem shapedDraw_consistent (c : Cfg) (hv : x.valid = true) (hm : x.mode = .shaped) (hs : x.scratch = []) :
    (shapedDraw c x).1.valid = true ∧ ScatterConsistent (shapedDraw c x).1 := by
  obtain ⟨hvalid, hmode, _, hscratch⟩ := shapedDraw_kept c x
  exact ⟨hvalid.trans hv,
    consistent_of_valid (hvalid.trans hv) (fun h => by simp [hmode, hm] at h) (hscratch.trans hs)⟩

theorem drawSlot_consistent (c : Cfg) (m : Mode) (hv : x.valid = true) (h : ScatterConsistent x) :
    (drawSlot c m x).1.valid = true ∧ ScatterConsistent (drawSlot c m x).1 := by
  rcases drawSlot_cases c m x with ⟨_, hd⟩ | ⟨_, _, hd⟩ | ⟨_, hm, hd⟩
  · rw [hd]
    exact shapedDraw_consistent c (by rw [switchToShaped_frame]; exact hv) (by rw [switchToShaped_frame])
      (switchToShaped_scratch h.scratch_idle)
  · rw [hd]
    exact ⟨hv, consistent_of_valid hv h.notShaped h.scratch_idle⟩
  · rw [hd]
    exact shapedDraw_consistent c hv hm h.scratch_idle

theorem drawSlots_consistent (c : Cfg) (m : Mode) (n : Nat) (hv : x.valid = true) (h : ScatterConsistent x) :
    ScatterConsistent (drawSlots c m n x).1 := by
  induction n generalizing x with
  | zero => exact h
  | succ n ih =>
    obtain ⟨hv', h'⟩ := drawSlot_consistent c m hv h
    exact ih hv' h'

theorem scatterConsistent_of (h : RegistersConsistent s) : ScatterConsistent s.sc :=
  ⟨h.noSession, h.notShaped, h.scratch_idle⟩

/-! ### The derivation -/

/-- R166: what a derivation writes, by context. -/
theorem kdfRun_payload (c : Cfg) (sp : List Byte) (s : State) :
    ∃ key iv, kdfRun c .payload sp s =
      { s with keyP := key, ivP := iv, kpValid := true, hash := List.replicate 32 0, round := 0 } := by
  simp only [kdfRun]
  rw [kdfRunRounds_frame]
  exact ⟨_, _, rfl⟩

theorem kdfRun_header (c : Cfg) (sp : List Byte) (s : State) :
    ∃ key iv, kdfRun c .header sp s =
      { s with keyH := key, ivH := iv, khValid := true, seed := iv, hash := List.replicate 32 0, round := 0 } := by
  simp only [kdfRun]
  rw [kdfRunRounds_frame]
  exact ⟨_, _, rfl⟩

/-! ### One lemma for each kind of update -/

theorem tablesBuilt_of_eq (h : TablesBuilt s) (henc : t.enc = s.enc) (hsyn : t.syn = s.syn)
    (hcor : t.cor = s.cor) : TablesBuilt t :=
  ⟨henc.trans h.enc, hsyn.trans h.syn, hcor.trans h.cor⟩

/-- The fields the invariant says nothing of may change. -/
theorem consistent_of_frame (h : RegistersConsistent s)
    (ht : t = { s with
      input := t.input, rdata := t.rdata, freeCtr := t.freeCtr, cmd := t.cmd, wrign := t.wrign, ie := t.ie
      pwLen := t.pwLen, arg0 := t.arg0, arg1 := t.arg1, res0 := t.res0, res1 := t.res1, seed := t.seed
      pwbuf := t.pwbuf, din := t.din, dout := t.dout, aout := t.aout, pix := t.pix }) :
    RegistersConsistent t := by
  rw [ht]
  exact { h with tables := fun hr => tablesBuilt_of_eq (h.tables hr) rfl rfl rfl }

theorem consistent_of_sc (h : RegistersConsistent s) (hx : ScatterConsistent x) :
    RegistersConsistent { s with sc := x } :=
  { h with
    tables := fun hr => tablesBuilt_of_eq (h.tables hr) rfl rfl rfl
    noSession := hx.noSession
    notShaped := hx.notShaped
    scratch_idle := hx.scratch_idle }

theorem endCommand_consistent (h : RegistersConsistent s) (hr : s.tblReady = true) :
    RegistersConsistent (endCommand s) :=
  { h with
    tables := fun hr => tablesBuilt_of_eq (h.tables hr) rfl rfl rfl
    busy_noError := nofun
    busy_notDone := nofun
    building := fun hn => by simp [hr] at hn }

theorem errCode_toNat (e : CmdError) : 1 ≤ (errCode e).toNat ∧ (errCode e).toNat ≤ 6 := by
  cases e <;> decide

/-- R281, R283: an error leaves a legal code, and marks a session only if there is one. -/
theorem raise_consistent (h : RegistersConsistent s) (hr : s.tblReady = true) {e : CmdError}
    (hsession : isFatal e = true → s.sc.valid = true) (i0 i1 : Word) :
    RegistersConsistent (raise e i0 i1 s) := by
  obtain ⟨hpos, hle⟩ := errCode_toNat e
  exact
    { h with
      tables := fun hr => tablesBuilt_of_eq (h.tables hr) rfl rfl rfl
      err_code := hle
      err_info := fun hz => by
        rw [raise_err] at hz
        simp [hz] at hpos
      busy_noError := nofun
      busy_notDone := nofun
      building := fun hn => by simp [hr] at hn
      noSession := fun hv => by
        have hnot : isFatal e = false :=
          Bool.eq_false_iff.mpr fun hf => absurd ((hsession hf).symm.trans hv) (by decide)
        obtain ⟨hmode, hfault, hrest⟩ := h.noSession hv
        exact ⟨hmode, by simp [hfault, hnot], hrest⟩ }

/-- R117, R320: the builder leaves the tables as the invariant has them. -/
theorem buildTables_consistent (h : RegistersConsistent s) : RegistersConsistent (buildTables Config.cfg s) :=
  { h with
    tables := fun _ => ⟨buildTables_enc .., buildTables_syn .., buildTables_cor ..⟩
    busy_noError := nofun
    busy_notDone := nofun
    building := nofun
    loops_idle := rfl }

/-- R41: the reset values agree with one another. -/
theorem reset_consistent : RegistersConsistent State.reset where
  err_code := Nat.zero_le _
  err_info := fun _ => ⟨rfl, rfl⟩
  busy_noError := fun _ => rfl
  busy_notDone := fun _ => rfl
  building := fun _ => rfl
  tables := nofun
  keyP_zero := fun _ => ⟨rfl, rfl⟩
  keyH_zero := fun _ => ⟨rfl, rfl⟩
  noSession := fun _ => ⟨rfl, rfl, rfl, rfl, rfl, rfl⟩
  notShaped := fun _ => ⟨rfl, rfl, rfl⟩
  hash_idle := rfl
  round_idle := rfl
  loops_idle := rfl
  scratch_idle := rfl

/-- R320: whatever a hardware reset leaves in the memories, every register has its reset value. -/
theorem hardwareReset_consistent (r : Residue) (s : State) :
    RegistersConsistent (hardwareReset Config.cfg r s) :=
  consistent_of_frame
    (consistent_of_sc reset_consistent (x := (hardwareReset Config.cfg r s).sc)
      ⟨fun _ => ⟨rfl, rfl, rfl, rfl, rfl, rfl⟩, fun _ => ⟨rfl, rfl, rfl⟩, rfl⟩)
    rfl

/-- R113, R167: cleared keys are zero and the working registers idle. -/
theorem clearKeys_consistent (h : RegistersConsistent s) : RegistersConsistent (clearKeys Config.cfg s) :=
  { h with
    tables := fun hr => tablesBuilt_of_eq (h.tables hr) rfl rfl rfl
    keyP_zero := fun _ => ⟨rfl, rfl⟩
    keyH_zero := fun _ => ⟨rfl, rfl⟩
    hash_idle := rfl
    round_idle := rfl }

/-- `SRESET` clears what `KDF.CLEAR` and `SC.END` clear, and the loop indices (R113). -/
theorem softReset_consistent (h : RegistersConsistent s) : RegistersConsistent (softReset Config.cfg s) :=
  consistent_of_frame
    (s := { clearKeys Config.cfg s with sc := endSession s.sc, loops := Loops.zero })
    { consistent_of_sc (clearKeys_consistent h) (endSession_consistent s.sc) with
      tables := fun hr => tablesBuilt_of_eq (h.tables hr) rfl rfl rfl
      loops_idle := rfl }
    rfl

theorem kdfRun_consistent (h : RegistersConsistent s) (m : Context) (sp : List Byte) :
    RegistersConsistent (kdfRun Config.cfg m sp s) := by
  cases m with
  | payload =>
    obtain ⟨key, iv, hrun⟩ := kdfRun_payload Config.cfg sp s
    rw [hrun]
    exact { h with
      tables := fun hr => tablesBuilt_of_eq (h.tables hr) rfl rfl rfl
      keyP_zero := nofun
      hash_idle := rfl
      round_idle := rfl }
  | header =>
    obtain ⟨key, iv, hrun⟩ := kdfRun_header Config.cfg sp s
    rw [hrun]
    exact { h with
      tables := fun hr => tablesBuilt_of_eq (h.tables hr) rfl rfl rfl
      keyH_zero := nofun
      hash_idle := rfl
      round_idle := rfl }

/-! ### Commands and writes -/

theorem effect_consistent (i : Instr) (h : RegistersConsistent s) (hg : Granted Config.cfg i s) :
    RegistersConsistent (effect Config.cfg i s) := by
  cases i
  case sreset => exact softReset_consistent h
  case kdfDerive m => exact kdfRun_consistent h m _
  case kdfClear => exact clearKeys_consistent h
  case scInit =>
    exact consistent_of_frame
      (consistent_of_sc h (startSession_consistent Config.cfg s.seed s.pix (pixelCount s) s.sc)) rfl
  case scGen m =>
    exact consistent_of_frame
      (consistent_of_sc h (drawSlots_consistent Config.cfg m s.arg0.toNat hg.1 (scatterConsistent_of h))) rfl
  case scEnd => exact consistent_of_sc h (endSession_consistent s.sc)
  all_goals exact consistent_of_frame h rfl

theorem acknowledge_consistent (h : RegistersConsistent s) : RegistersConsistent (acknowledge s) :=
  { h with
    tables := fun hr => tablesBuilt_of_eq (h.tables hr) rfl rfl rfl
    err_code := Nat.zero_le _
    err_info := fun _ => ⟨rfl, rfl⟩
    busy_noError := fun _ => rfl }

/-- R25: a command is accepted only without an error, and clears `DONE`. -/
theorem writeCmd_consistent (h : RegistersConsistent s) (v : Word) : RegistersConsistent (writeCmd v s) := by
  unfold writeCmd
  split
  next herr =>
    exact { h with
      tables := fun hr => tablesBuilt_of_eq (h.tables hr) rfl rfl rfl
      busy_noError := fun _ => herr
      busy_notDone := fun _ => rfl
      building := fun _ => rfl }
  next => exact consistent_of_frame h rfl

theorem writeStatus_consistent (h : RegistersConsistent s) (v : Word) : RegistersConsistent (writeStatus v s) :=
  { h with
    tables := fun hr => tablesBuilt_of_eq (h.tables hr) rfl rfl rfl
    busy_notDone := fun hb => by simp [writeStatus, h.busy_notDone hb] }

theorem writeReg_consistent (h : RegistersConsistent s) (r : Reg) (v : Word) :
    RegistersConsistent (writeReg r v s) := by
  cases r
  case cmd => exact writeCmd_consistent h v
  case status => exact writeStatus_consistent h v
  case err => exact acknowledge_consistent h
  all_goals exact consistent_of_frame h rfl

theorem idleWrite_consistent (h : RegistersConsistent s) (sp : Space) (off : Nat) (v : Word) :
    RegistersConsistent (idleWrite sp off v s) := by
  cases sp with
  | reg => exact writeReg_consistent h _ v
  | _ => exact consistent_of_frame h rfl

theorem moves_consistent (h : RegistersConsistent s) (hm : Moves s t) : RegistersConsistent t := by
  cases hm with
  | built _ _ ht => subst ht; exact buildTables_consistent h
  | command i _ hr ends =>
    cases ends with
    | done hg ht =>
      subst ht
      have hready : (effect Config.cfg i s).tblReady = s.tblReady := by rw [effect_frame]
      exact endCommand_consistent (effect_consistent i h hg) (hready.trans hr)
    | raised e i0 i1 hfatal ht => subst ht; exact raise_consistent h hr (fun he => (hfatal he).1) i0 i1
  | illegal _ hr ht => subst ht; exact raise_consistent h hr (fun he => by simp [isFatal] at he) _ _
  | reset r ht => subst ht; exact hardwareReset_consistent r s
  | read v n ht => subst ht; exact consistent_of_frame h rfl
  | dropped ht => subst ht; exact consistent_of_frame h rfl
  | pixels m ht => subst ht; exact consistent_of_frame h rfl
  | written sp off v _ ht => subst ht; exact idleWrite_consistent h sp off v

end Sys2Proof.Proofs
end

section
/-! SUPPORT. The host's accesses to an idle block as steps (`spec/20_memory.md` R66 to R73), the register map
(`spec/10_state.md` R35) and what each register shows. -/

namespace Sys2Proof.Proofs

open Sys2Proof.Machine Sys2Proof.Safety Sys2Proof.Laws

variable {s t : State} {rest : List HostEvent}

/-! ### Steps of the block and of the host -/

/-- The block moves when the host waits or has nothing left to do (R20). -/
theorem step_advance (hin : s.input = .wait :: rest ∨ (s.input = [] ∧ rest = [])) :
    step s = advance { s with input := rest } := by
  rcases hin with hin | ⟨hin, rfl⟩
  · simp only [step, nextStep, hin, hostEvent]
  · simp only [step, nextStep, hin]
    rw [← hin]

/-- R68 to R71: a proper write to an idle block takes effect. -/
theorem step_write (hb : s.busy = false) {sp : Space} {w : Width} {off : Nat} {v : Word}
    (hin : inSpace Config.cfg sp off = true) (hp : properAccess sp w off = true)
    (hi : s.input = .write sp w off v :: rest) :
    step s = .next (idleWrite sp off v { s with input := rest }) := by
  cases sp
  case pix => simp [step, nextStep, hi, hostEvent, hostWrite, pixWrite, scInitRunning, hb, hp]
  all_goals simp [step, nextStep, hi, hostEvent, hostWrite, portWrite, hb, hin, hp]

/-- The value a read finds does not depend on what the host does next. -/
theorem readReg_input (r : Reg) (s : State) (rest : List HostEvent) :
    readReg { s with input := rest } r = readReg s r := by
  cases r <;> rfl

theorem idleValue_input (sp : Space) (off : Nat) (s : State) (rest : List HostEvent) :
    idleValue sp off { s with input := rest } = idleValue sp off s := by
  cases sp
  case reg => exact readReg_input _ s rest
  all_goals rfl

theorem readable_input (sp : Space) (off : Nat) (s : State) (rest : List HostEvent) :
    readable sp off { s with input := rest } = readable sp off s := by
  cases sp <;> rfl

/-- R73: a read that finds its value changes nothing but the word read. -/
theorem step_read {sp : Space} {w : Width} {off : Nat} (hin : inSpace Config.cfg sp off = true)
    (hp : properRead sp w off = true) (hr : readable sp off s = true)
    (hi : s.input = .read sp w off :: rest) :
    step s = .next { s with input := rest, rdata := idleValue sp off s } := by
  have hr' := (readable_input sp off s rest).trans hr
  simp only [step, nextStep, hi, hostEvent, hostRead, hin, hp, hr', Bool.and_self, if_true, readReturns,
    idleValue_input]

/-- An idle block shows every space. -/
theorem readable_of_idle (hb : s.busy = false) (sp : Space) (off : Nat) : readable sp off s = true := by
  cases sp <;> simp [readable, hb]

/-! ### The register map -/

/-- R35, R60: the map finds every register at its offset, which is word-aligned and inside the space. -/
theorem regOffset_spec (r : Reg) :
    regOfIndex (regOffset r / 4) = r ∧ regOffset r % 4 = 0 ∧ regOffset r < 0x100 := by
  cases r
  case seed j => revert j; decide
  case scRq j => revert j; decide
  case scLive j => revert j; decide
  case scBase j => revert j; decide
  case keyP j => revert j; decide
  case ivP j => revert j; decide
  case keyH j => revert j; decide
  case ivH j => revert j; decide
  all_goals decide

theorem regOfIndex_regOffset (r : Reg) : regOfIndex (regOffset r / 4) = r := by
  obtain ⟨hmap, _, _⟩ := regOffset_spec r
  exact hmap

theorem inSpace_regOffset (c : Cfg) (r : Reg) : inSpace c .reg (regOffset r) = true := by
  obtain ⟨_, _, hlt⟩ := regOffset_spec r
  simp [inSpace, spaceSize, hlt]

theorem properAccess_regOffset (r : Reg) : properAccess .reg .word (regOffset r) = true := by
  obtain ⟨_, haligned, _⟩ := regOffset_spec r
  simp [properAccess, haligned]

/-- A word written at a register's offset of an idle block is written to that register. -/
theorem step_writeReg (hb : s.busy = false) (r : Reg) {v : Word}
    (hi : s.input = .write .reg .word (regOffset r) v :: rest) :
    step s = .next (writeReg r v { s with input := rest }) := by
  rw [step_write hb (inSpace_regOffset _ r) (properAccess_regOffset r) hi, idleWrite,
    regOfIndex_regOffset]

/-- R41, R71: when a register can be read. -/
theorem readable_regOffset {r : Reg}
    (h : s.busy = false ∨ s.tblReady = false ∨ r ∈ [Reg.id, Reg.status, Reg.ctrl]) :
    readable .reg (regOffset r) s = true := by
  simp only [readable, tableBuildRunning, regOfIndex_regOffset]
  rcases h with hb | ht | hr
  · simp [hb]
  · cases s.busy <;> simp [ht]
  · simp only [List.mem_cons, List.not_mem_nil, or_false] at hr
    rcases hr with rfl | rfl | rfl <;> simp [readableWhileBusy]

theorem step_readReg {r : Reg} (h : s.busy = false ∨ s.tblReady = false ∨ r ∈ [Reg.id, Reg.status, Reg.ctrl])
    (hi : s.input = .read .reg .word (regOffset r) :: rest) :
    step s = .next { s with input := rest, rdata := readReg s r } := by
  rw [step_read (inSpace_regOffset _ r) (properAccess_regOffset r) (readable_regOffset h) hi, idleValue,
    regOfIndex_regOffset]

/-- R36: the reserved offsets. -/
theorem regOfIndex_reserved {off : Nat} (h : 0x0B0 ≤ off ∧ off ≤ 0x0BC ∨ 0x0F0 ≤ off ∧ off ≤ 0x0FC)
    (ha : off % 4 = 0) : regOfIndex (off / 4) = .reserved := by
  have hn : off / 4 ∈ [44, 45, 46, 47, 60, 61, 62, 63] := by
    simp only [List.mem_cons, List.not_mem_nil, or_false]
    omega
  exact (by decide : ∀ n ∈ [44, 45, 46, 47, 60, 61, 62, 63], regOfIndex n = .reserved) _ hn

/-! ### `STATUS` -/

theorem getLsbD_append_ofBool_zero {n : Nat} (x : BitVec n) (b : Bool) :
    (x ++ BitVec.ofBool b).getLsbD 0 = b := by
  rw [BitVec.getLsbD_append]
  simp

theorem getLsbD_append_ofBool_succ {n : Nat} (x : BitVec n) (b : Bool) (i : Nat) :
    (x ++ BitVec.ofBool b).getLsbD (i + 1) = x.getLsbD i := by
  simp [BitVec.getLsbD_append]

theorem modeFlag_eq (m : Mode) : modeFlag m = decide (m = .shaped) := by
  cases m <;> rfl

/-! ### The bits a register takes -/

theorem zero_append_extractLsb' {m n : Nat} (v : BitVec (m + n)) :
    0#m ++ v.extractLsb' 0 n = v &&& (0#m ++ BitVec.allOnes n) := by
  apply BitVec.eq_of_getLsbD_eq
  intro i _
  simp only [BitVec.getLsbD_append, BitVec.getLsbD_and, BitVec.getLsbD_extractLsb', BitVec.getLsbD_allOnes]
  by_cases h : i < n <;> simp [h]

/-- R29: `PWLEN` keeps the low 16 bits of what is written. -/
theorem zero_append_low16 (v : Word) : 0#16 ++ v.extractLsb' 0 16 = v &&& 0xFFFF := by
  rw [show (0xFFFF : Word) = 0#16 ++ BitVec.allOnes 16 by decide]
  exact zero_append_extractLsb' (m := 16) (n := 16) v

/-- R28: `CTRL` keeps bit 0 of what is written. -/
theorem zero_append_low1 (v : Word) : 0#31 ++ BitVec.ofBool (v.getLsbD 0) = v &&& 1 := by
  have hbit : BitVec.ofBool (v.getLsbD 0) = v.extractLsb' 0 1 := by
    apply BitVec.eq_of_getLsbD_eq
    simp
  rw [hbit, show (1 : Word) = 0#31 ++ BitVec.allOnes 1 by decide]
  exact zero_append_extractLsb' (m := 31) (n := 1) v

/-! ### Memories -/

/-- R113, R167: the clearing of `PWBUF`, address by address. -/
theorem memRead_clearPwbuf (c : Cfg) (m : Mem 8) (a : Nat) :
    memRead (clearPwbuf c m) a = if a < c.pwMax then 0 else memRead m a := by
  rw [clearPwbuf, memRead_memWriteList]
  by_cases h : a < c.pwMax
  · simp [h]
  · simp [h]

/-- R321: what a reset leaves in a memory of size `n`, up to that size. -/
theorem memRead_residue {w : Nat} (vs : List (BitVec w)) {n a : Nat} (h : a < n) :
    memRead (memWriteList [] 0 (vs.take n)) a = vs.getD a 0 := by
  rw [memRead_memWriteList]
  by_cases hv : a < vs.length
  · simp [h, hv]
  · simp [h, hv]

end Sys2Proof.Proofs
end

section
/-! PROOFS. The invariants of the registers and of the session (O57, O59, O60). -/

namespace Sys2Proof.Proofs

open Sys2Proof.Machine Sys2Proof.Safety Sys2Proof.Laws

/-- Settles O59: no move breaks an agreement between registers; a command runs only with the tables ready and, when it
raises a fatal error, in a session. -/
theorem stepKeepsRegistersConsistent : Obligations.StepKeepsRegistersConsistent := by
  intro s t h hx
  obtain ⟨rest, hm⟩ := step_moves hx
  exact moves_consistent (s := { s with input := rest }) (consistent_of_frame h rfl) hm

/-- Settles O60: draws keep the books because a request is granted only within the free space of its mode; of the other
moves only `SC.INIT` opens a session, and it starts a sound one. -/
theorem stepKeepsTheSessionSound : Obligations.StepKeepsTheSessionSound := by
  intro s t h hx
  obtain ⟨rest, hm⟩ := step_moves hx
  exact moves_sound (s := { s with input := rest }) h hm

theorem reset_canonical : MemoriesCanonical State.reset where
  pwbuf_wf := wf_nil 8
  pwbuf_within := within_nil 8 _
  din_wf := wf_nil 8
  din_within := within_nil 8 _
  dout_wf := wf_nil 8
  dout_within := within_nil 8 _
  aout_wf := wf_nil 32
  aout_within := within_nil 32 _
  pix_wf := wf_nil 8
  pool_wf := wf_nil 32

/-- Settles O57: after reset the memories are empty, the registers zero, and there is no session. -/
theorem resetMeetsTheInvariants : Obligations.ResetMeetsTheInvariants :=
  ⟨reset_canonical, reset_consistent,
    sound_of_empty rfl rfl rfl rfl (List.length_replicate ..) rfl,
    ⟨Nat.zero_le _, within_nil 32 _⟩⟩

end Sys2Proof.Proofs
end

section
/-! PROOFS. What the table builder, `SRESET` and the commands write and leave alone (O9, O13, O47). -/

namespace Sys2Proof.Proofs

open Sys2Proof.Machine Sys2Proof.Safety Sys2Proof.Laws

/-- Settles O9: the builder's tables are folds (R132, R133), and P1 makes the one undo the other. -/
theorem tableBuildFillsTheFoldTables : Obligations.TableBuildFillsTheFoldTables := by
  intro s rest hb hr hin
  refine ⟨buildTables Config.cfg { s with input := rest }, ?_, ?_, fun w => ?_, fun p => ?_, fun w => ?_⟩
  · rw [step_advance hin]
    simp only [advance, hb, hr, if_true, Bool.false_eq_true, if_false]
  · simp only [buildTables]
  · rw [buildTables_enc, tableGet_foldTable]
  · rw [buildTables_syn, tableGet_foldTable]
  · rw [buildTables_enc, buildTables_syn, tableGet_foldTable, tableGet_foldTable,
      Config.cfg_admissible.p1 w]

/-- Settles O13: what `SRESET` writes, and `PWBUF` by address. -/
theorem sresetClearsAllButTheTables : Obligations.SresetClearsAllButTheTables := by
  intro s
  refine ⟨endCommand (softReset Config.cfg s), rfl, rfl, fun a ha => ?_, fun a ha => ?_⟩
  · exact (memRead_clearPwbuf Config.cfg s.pwbuf a).trans (if_pos ha)
  · exact (memRead_clearPwbuf Config.cfg s.pwbuf a).trans (if_neg (by omega))

/-- Settles O47: a command ends with its effect, each piece of which belongs to the commands named, or with an error,
which writes none of it and marks the session only for `SC.GEN`. -/
theorem commandsWriteOnlyTheirOwnState : Obligations.CommandsWriteOnlyTheirOwnState := by
  intro i s t hx
  rcases exec_ends i hx with ⟨_, rfl⟩ | ⟨e, i0, i1, hfatal, rfl⟩
  · have hframe := effect_frame Config.cfg i s
    refine ⟨?_, ?_, ?_, ?_, ?_, ?_, ?_, ?_, ?_, ?_, ?_, effect_operands _ s, fun hi a => ?_, fun hi a => ?_,
      fun hi => ?_, fun ⟨hi, hd⟩ => effect_keys _ s hi hd, fun ⟨hi, hg⟩ => effect_sc _ s hi hg,
      effect_results _ s⟩
    case refine_12 => rw [endCommand_dout, effect_dout _ s hi]
    case refine_13 => rw [endCommand_aout, effect_aout _ s hi]
    case refine_14 =>
      obtain ⟨hlen, hbuf⟩ := effect_password Config.cfg s hi
      exact ⟨hlen, fun a => by rw [endCommand_pwbuf, hbuf]⟩
    all_goals rw [hframe]; rfl
  · refine ⟨rfl, rfl, rfl, rfl, rfl, rfl, rfl, rfl, rfl, rfl, rfl, fun _ => ⟨rfl, rfl, rfl⟩, fun _ _ => rfl,
      fun _ _ => rfl, fun _ => ⟨rfl, fun _ => rfl⟩, fun _ => ⟨rfl, rfl, rfl, rfl, rfl, rfl, rfl⟩,
      fun ⟨_, hg⟩ => ?_, fun _ => ⟨rfl, rfl⟩⟩
    have hnot : isFatal e = false := Bool.eq_false_iff.mpr fun hf => by
      obtain ⟨_, m, hm⟩ := hfatal hf
      exact hg m hm
    rw [raise_sc, hnot, Bool.or_false]

end Sys2Proof.Proofs
end

section
/-! PROOFS. What the host of an idle block writes and reads (O48, O49, O51 to O54). -/

namespace Sys2Proof.Proofs

open Sys2Proof.Machine Sys2Proof.Safety Sys2Proof.Laws

/-- Settles O48: the map names `CMD` at 0x004, and R25 splits on `ERR`. -/
theorem cmdWriteIsAcceptedOrDropped : Obligations.CmdWriteIsAcceptedOrDropped := by
  intro s c rest hb hi
  have hstep := step_writeReg hb .cmd hi
  refine ⟨fun he => hstep.trans ?_, fun he => hstep.trans ?_⟩
  · simp only [writeReg, writeCmd, if_pos he, accept]
  · simp only [writeReg, writeCmd, if_neg he]

/-- Settles O49: the map names `ERR` at 0x00C, and a write there is the acknowledge whatever its value. -/
theorem acknowledgeClearsTheError : Obligations.AcknowledgeClearsTheError := by
  intro s v rest hb hi
  exact step_writeReg hb .err hi

/-- A byte written is stored at its offset alone (R67, R68, R70). -/
theorem memWrite_spec {w : Nat} (m : Mem w) (off : Nat) (v : BitVec w) :
    memRead (memWrite m off v) off = v ∧ ∀ a, a ≠ off → memRead (memWrite m off v) a = memRead m a :=
  ⟨by rw [memRead_memWrite, if_pos rfl], fun a ha => by rw [memRead_memWrite, if_neg ha]⟩

/-- Settles O51: register writes and reads by the map, byte accesses by space. -/
theorem writtenRegistersReadBack : Obligations.WrittenRegistersReadBack := by
  intro s v rest j off w hb
  have inside {sp : Space} {n : Nat} (hsize : spaceSize Config.cfg sp = some n) {a : Nat} (ha : a < n) :
      inSpace Config.cfg sp a = true := by simp [inSpace, hsize, ha]
  have shown (sp : Space) (a : Nat) : readable sp a s = true := readable_of_idle hb sp a
  refine ⟨fun hi => ⟨_, step_writeReg hb .arg0 hi, rfl, rfl⟩,
    fun hi => ⟨_, step_writeReg hb .arg1 hi, rfl, rfl⟩,
    fun hi => ⟨_, step_writeReg hb (.seed j) hi, rfl, ?_⟩,
    fun hi => ⟨_, step_writeReg hb .pwLen hi, rfl, zero_append_low16 v⟩,
    fun hi => ⟨_, step_writeReg hb .ctrl hi, rfl, zero_append_low1 v⟩,
    fun hi => step_writeReg hb .status hi,
    fun ho hi => ⟨_, step_write hb (inside rfl ho) rfl hi, rfl, memWrite_spec _ _ _⟩,
    fun ho hi => ⟨_, step_write hb (inside rfl ho) rfl hi, rfl, memWrite_spec _ _ _⟩,
    fun hi => ⟨_, step_write hb rfl rfl hi, rfl, memWrite_spec _ _ _⟩,
    fun ho hi => step_read (inside rfl ho) rfl (shown _ _) hi,
    fun ho hi => step_read (inside rfl ho) rfl (shown _ _) hi,
    fun ho hi => step_read (inside rfl ho) rfl (shown _ _) hi,
    fun ho hi => ?_, fun hi => step_read rfl rfl (shown _ _) hi⟩
  · show (s.seed.set j.val v j.isLt)[j.val] = v
    exact Vector.getElem_set_self ..
  · have haligned : properRead .aout .word (4 * off) = true := by simp [properRead, properAccess]
    rw [step_read (inside rfl (by omega)) haligned (shown _ _) hi, idleValue,
      Nat.mul_div_cancel_left off (by omega)]

/-- Settles O52: the map gives no register there. -/
theorem reservedOffsetsReadZeroAndIgnoreWrites : Obligations.ReservedOffsetsReadZeroAndIgnoreWrites := by
  intro s off v rest hb
  refine ⟨fun hoff ha => ?_, fun hout => ?_⟩
  · have hmap := regOfIndex_reserved hoff ha
    have hin : inSpace Config.cfg .reg off = true := by
      simp only [inSpace, spaceSize, decide_eq_true_eq]
      omega
    have hp : properAccess .reg .word off = true := by simp [properAccess, ha]
    refine ⟨fun hi => ?_, fun hi => ?_⟩
    · rw [step_write hb hin hp hi, idleWrite, hmap, writeReg]
    · rw [step_read hin hp (readable_of_idle hb .reg off) hi, idleValue, hmap, readReg]
  · simp only [inSpace, spaceSize, decide_eq_false_iff_not]
    omega

/-- Settles O53: the map by its register, a read by the map, and each register's word. -/
theorem registerMapFindsEveryRegister : Obligations.RegisterMapFindsEveryRegister := by
  refine ⟨regOffset_spec, fun r hr => ?_, fun s r rest h hi => step_readReg h hi, fun s => ?_⟩
  · cases r
    case reserved => exact absurd rfl hr
    all_goals rfl
  · have herr : 0#24 ++ s.err = s.err.setWidth 32 := (BitVec.setWidth_eq_append (by omega)).symm
    have hlen : 0#16 ++ s.pwLen = s.pwLen.setWidth 32 := (BitVec.setWidth_eq_append (by omega)).symm
    have hie : 0#31 ++ BitVec.ofBool s.ie = if s.ie then 1 else 0 := by cases s.ie <;> rfl
    exact ⟨rfl, rfl, rfl, herr, rfl, rfl, hie, hlen, rfl, rfl, rfl, rfl, rfl, rfl, rfl, rfl,
      fun _ => ⟨rfl, rfl, rfl, rfl, rfl, rfl⟩, fun _ => ⟨rfl, rfl⟩⟩

/-- Settles O54: `STATUS` is its ten flags, appended one bit at a time. -/
theorem statusWordShowsTheFlags : Obligations.StatusWordShowsTheFlags := by
  intro s
  refine ⟨?_, ?_, ?_, ?_, ?_, ?_, ?_, ?_, ?_, ?_, fun n hn => ?_⟩
  case refine_11 =>
    obtain ⟨k, rfl⟩ := Nat.exists_eq_add_of_le' hn
    simp only [statusWord, getLsbD_append_ofBool_succ, BitVec.getLsbD_zero]
  all_goals
    simp only [statusWord, getLsbD_append_ofBool_succ, getLsbD_append_ofBool_zero, errFlag, modeFlag_eq]

end Sys2Proof.Proofs
end

section
/-! PROOFS. The state after reset (O55, O56). -/

namespace Sys2Proof.Proofs

open Sys2Proof.Machine Sys2Proof.Safety Sys2Proof.Laws

/-- R41: where only the flags of the sequencer, the tables, the memories and the host's side differ from `State.reset`,
every register but `ID` and `STATUS` reads 0. -/
theorem readReg_of_reset {t : State} (r : Reg) (hr : r ≠ .id) (hs : r ≠ .status)
    (ht : t = { State.reset with
      input := t.input, rdata := t.rdata, freeCtr := t.freeCtr, busy := t.busy, tblReady := t.tblReady
      sc := { Scatter.reset with pool := t.sc.pool, la := t.sc.la }
      enc := t.enc, syn := t.syn, cor := t.cor, din := t.din, dout := t.dout, aout := t.aout, pix := t.pix }) :
    readReg t r = 0 := by
  rw [ht]
  have zero {n : Nat} (j : Fin n) : (Vector.replicate n (0 : Word))[j] = 0 := by simp
  cases r
  case id => exact absurd rfl hr
  case status => exact absurd rfl hs
  case seed j => exact zero j
  case scRq j => exact zero j
  case scLive j => exact zero j
  case scBase j => exact zero j
  case keyP j => exact zero j
  case ivP j => exact zero j
  case keyH j => exact zero j
  case ivH j => exact zero j
  case err => exact (by decide : 0#24 ++ 0#8 = 0#32)
  case ctrl => exact (by decide : 0#31 ++ BitVec.ofBool false = 0#32)
  case pwLen => exact (by decide : 0#16 ++ 0#16 = 0#32)
  all_goals rfl

/-- Settles O55: the first step from reset is the table build, which touches no register the host reads but `STATUS`. -/
theorem resetThenBuildLeavesTheSpecValues : Obligations.ResetThenBuildLeavesTheSpecValues := by
  refine ⟨buildTables Config.cfg State.reset, rfl, fun r => ?_, rfl, rfl, rfl, rfl, fun _ => rfl, rfl⟩
  split
  · rfl
  · rfl
  next hid hstatus => exact readReg_of_reset r hid hstatus (by simp only [buildTables]; rfl)

/-- Settles O56: the registers by the lemma above, the memories by what the event brings. -/
theorem hardwareResetFromAnyState : Obligations.HardwareResetFromAnyState := by
  intro s r rest hi
  refine ⟨hardwareReset Config.cfg r { s with input := rest }, ?_, fun q => ?_, rfl, rfl, fun _ => rfl, rfl, rfl,
    fun a ha => ⟨memRead_residue r.din ha, memRead_residue r.dout ha⟩, fun a ha => memRead_residue r.aout ha⟩
  · simp only [step, nextStep, hi, hostEvent]
  · split
    · rfl
    · exact (by decide : statusWord State.reset = 1)
    next hid hstatus => exact readReg_of_reset q hid hstatus rfl

end Sys2Proof.Proofs
end

section
/-! SUPPORT. The byte strings of the ECC unit, read by address (`spec/20_memory.md` R61, `spec/41_ecc.md` R140 to
R144). -/

namespace Sys2Proof.Proofs

open Sys2Proof.Machine Sys2Proof.Safety Sys2Proof.Laws

/-! ### Runs of units from address 0 -/

/-- R16: a run written from address 0, read back at any address. -/
theorem memRead_memWriteList_zero {w : Nat} (m : Mem w) (vs : List (BitVec w)) (a : Nat) :
    memRead (memWriteList m 0 vs) a = vs[a]?.getD (memRead m a) := by
  rw [memRead_memWriteList]
  by_cases h : a < vs.length
  · simp [h]
  · simp [h]

/-- R16: a run written from address 0 leaves every unit past its end. -/
theorem memRead_memWriteList_past {w : Nat} (m : Mem w) {vs : List (BitVec w)} {a : Nat} (h : vs.length ≤ a) :
    memRead (memWriteList m 0 vs) a = memRead m a := by
  rw [memRead_memWriteList_zero, List.getElem?_eq_none h, Option.getD_none]

/-- R16: a run read from address 0, by position. -/
theorem byteAt_memReadList (m : Mem 8) {n a : Nat} (h : a < n) : byteAt (memReadList m 0 n) a = memRead m a := by
  simp [byteAt, memReadList, h]

/-- In a concatenation of pieces of one length, piece `k` starts at `n * k`. -/
theorem getElem?_flatMap_of_length {α β : Type} {f : α → List β} {n : Nat} (hf : ∀ x, (f x).length = n)
    (l : List α) (k : Nat) {j : Nat} (hj : j < n) :
    (l.flatMap f)[n * k + j]? = l[k]?.bind fun x => (f x)[j]? := by
  induction l generalizing k with
  | nil => simp
  | cons x l ih =>
    rw [List.flatMap_cons]
    cases k with
    | zero => rw [List.getElem?_append_left (by rw [hf]; omega)]; simp
    | succ k =>
      have hpast : n * (k + 1) + j - (f x).length = n * k + j := by rw [hf, Nat.mul_succ]; omega
      rw [List.getElem?_append_right (by rw [hf, Nat.mul_succ]; omega), hpast, ih k, List.getElem?_cons_succ]

/-! ### Codewords as bytes (R61) -/

theorem mkCode_toNat (w p : Sym) : (mkCode w p).toNat = w.toNat * 2 ^ 12 + p.toNat := by
  rw [mkCode, BitVec.toNat_append, ← Nat.shiftLeft_add_eq_or_of_lt p.isLt, Nat.shiftLeft_eq]

/-- R61: the three bytes of a codeword, most-significant first. -/
theorem codeBytes_mkCode (w p : Sym) :
    codeBytes (mkCode w p) =
      [BitVec.ofNat 8 (w.toNat / 2 ^ 4), BitVec.ofNat 8 (w.toNat % 2 ^ 4 * 2 ^ 4 + p.toNat / 2 ^ 8),
        BitVec.ofNat 8 (p.toNat % 2 ^ 8)] := by
  have hp := p.isLt
  have digit (j v : Nat) (h : (w.toNat * 2 ^ 12 + p.toNat) / 2 ^ (8 * j) % 2 ^ 8 = v % 2 ^ 8) :
      byteOf (mkCode w p) j = BitVec.ofNat 8 v := by
    apply BitVec.eq_of_toNat_eq
    rw [byteOf, BitVec.extractLsb'_toNat, mkCode_toNat, Nat.shiftRight_eq_div_pow, BitVec.toNat_ofNat, h]
  rw [codeBytes, digit 2 (w.toNat / 2 ^ 4) (by omega),
    digit 1 (w.toNat % 2 ^ 4 * 2 ^ 4 + p.toNat / 2 ^ 8) (by omega), digit 0 (p.toNat % 2 ^ 8) (by omega)]

theorem codeOfBytes_toNat (b0 b1 b2 : Byte) :
    (codeOfBytes b0 b1 b2).toNat = b0.toNat * 2 ^ 16 + b1.toNat * 2 ^ 8 + b2.toNat := by
  rw [codeOfBytes, BitVec.toNat_append, ← Nat.shiftLeft_add_eq_or_of_lt b2.isLt, BitVec.toNat_append,
    ← Nat.shiftLeft_add_eq_or_of_lt b1.isLt, Nat.shiftLeft_eq, Nat.shiftLeft_eq]
  omega

/-- R142: byte `j` of codeword `k` stands at `3 * k + j`. -/
theorem encodeBytes_getElem? (enc : Table) (bs : List Byte) {k j : Nat} (hk : k < nsym bs.length) (hj : j < 3) :
    (encodeBytes enc bs)[3 * k + j]? = (codeBytes (encode12 enc (symbolAt bs k)))[j]? := by
  have three (w : Sym) : (codeBytes (encode12 enc w)).length = 3 := rfl
  have hsym : (packSymbols bs)[k]? = some (symbolAt bs k) := by simp [packSymbols, hk]
  rw [encodeBytes, getElem?_flatMap_of_length three _ _ hj, hsym, Option.bind_some]

/-- R144: the words `ECC.DECB` reads are the 3-byte words of `DIN`. -/
theorem receivedCodes_decbInput {s : State} {r : Nat → Code}
    (hr : ∀ k < nsym s.arg0.toNat, (r k).toNat = (memRead s.din (3 * k)).toNat * 2 ^ 16 +
      (memRead s.din (3 * k + 1)).toNat * 2 ^ 8 + (memRead s.din (3 * k + 2)).toNat) :
    receivedCodes (decbInput s) s.arg0.toNat = (List.range (nsym s.arg0.toNat)).map r := by
  refine List.map_congr_left fun k hk => BitVec.eq_of_toNat_eq ?_
  rw [List.mem_range] at hk
  have read (j : Nat) (hj : j < 3) : byteAt (decbInput s) (3 * k + j) = memRead s.din (3 * k + j) :=
    byteAt_memReadList s.din (by omega)
  rw [codeAt, codeOfBytes_toNat, hr k hk, read 1 (by omega), read 2 (by omega)]
  rw [show byteAt (decbInput s) (3 * k) = memRead s.din (3 * k) from read 0 (by omega)]

end Sys2Proof.Proofs
end

section
/-! PROOFS. What the byte commands of the ECC unit store (O17, O18). -/

namespace Sys2Proof.Proofs

open Sys2Proof.Machine Sys2Proof.Safety Sys2Proof.Laws

/-- Settles O17: byte `j` of codeword `k` stands at `3 * k + j` of the run written from address 0. -/
theorem encbWritesTheCodewords : Obligations.EncbWritesTheCodewords := by
  intro s L n hL hn hfit hfit3
  subst hL hn
  rcases encbCommand_cases Config.cfg s with ⟨_, hc⟩ | ⟨hbad, _⟩
  · refine ⟨_, congrArg Host.Outcome.next hc, rfl, fun k hk w p hw hp => ?_, fun a ha => ?_⟩
    · subst hw hp
      have stored (j : Nat) (hj : j < 3) (b : Byte)
          (hb : (codeBytes (encode12 s.enc (symbolAt (memReadList s.din 0 s.arg0.toNat) k)))[j]? = some b) :
          memRead (memWriteList s.dout 0 (encodeBytes s.enc (memReadList s.din 0 s.arg0.toNat))) (3 * k + j) = b := by
        rw [memRead_memWriteList_zero, encodeBytes_getElem? _ _ (by rw [memReadList_length]; exact hk) hj, hb,
          Option.getD_some]
      rw [encode12, codeBytes_mkCode] at stored
      exact ⟨stored 0 (by omega) _ rfl, stored 1 (by omega) _ rfl, stored 2 (by omega) _ rfl⟩
    · exact memRead_memWriteList_past s.dout (by rw [encodeBytes_length, memReadList_length]; exact ha)
  · exact absurd ((eccLengthOk_iff _ _).mpr ⟨hfit, hfit3⟩) (by simp [hbad])

/-- Settles O18: the words received are those of `DIN`, and the run of `L` bytes is written from address 0. -/
theorem decbWritesTheCorrectedBytes : Obligations.DecbWritesTheCorrectedBytes := by
  intro s L n r hL hn hfit hfit3 hr
  subst hL hn
  have hcodes := receivedCodes_decbInput hr
  rcases decbCommand_cases Config.cfg s with ⟨_, hc⟩ | ⟨hbad, _⟩
  · refine ⟨_, congrArg Host.Outcome.next hc, ?_, fun a ha => ?_, fun a ha => ?_⟩
    · rw [fixedCount, hcodes, List.countP_map]
      rfl
    · rw [endCommand_dout, memRead_memWriteList_zero, decodeBytes, hcodes, unpackBytes,
        List.getElem?_map, List.getElem?_range ha, Option.map_some, Option.getD_some, List.map_map]
      rfl
    · exact memRead_memWriteList_past s.dout (by rw [decodeBytes_length]; exact ha)
  · exact absurd ((eccLengthOk_iff _ _).mpr ⟨hfit, hfit3⟩) (by simp [hbad])

end Sys2Proof.Proofs
end

section
/-! SUPPORT. The derivation of `spec/42_kdf.md` in its clear form: the chain of R162 and the words of R63. -/

namespace Sys2Proof.Proofs

open Sys2Proof.Machine Sys2Proof.Safety Sys2Proof.Laws

/-- R162, R164: from `hash_i`, `n` rounds lead to `hash_(i+n)`. -/
theorem kdfRunRounds_hash (c : Cfg) (sp : List Byte) (n : Nat) (s : State) (h : s.hash = hashChain c sp s.round) :
    (kdfRunRounds c sp n s).hash = hashChain c sp (s.round + n) := by
  induction n generalizing s with
  | zero => exact h
  | succ n ih =>
    have hround : (kdfRound c sp s).hash = hashChain c sp (kdfRound c sp s).round := by
      simp only [kdfRound, h, hashChain]
    have hcount : (kdfRound c sp s).round + n = s.round + (n + 1) := by simp only [kdfRound]; omega
    rw [kdfRunRounds, ih _ hround, hcount]

/-- R166: what the rounds leave in `HASH` and `ROUND` does not outlive the derivation. -/
theorem kdfIdle_kdfStore_working (m : Context) (key iv working : List Byte) (n : Nat) (s : State) :
    kdfIdle (kdfStore m key iv { s with hash := working, round := n }) = kdfIdle (kdfStore m key iv s) := by
  cases m <;> rfl

/-- R166: a derivation stores the key at the end of the chain, and its IV, and leaves `HASH` and `ROUND` idle. -/
theorem kdfRun_eq (c : Cfg) (m : Context) (sp : List Byte) (s : State) :
    kdfRun c m sp s = kdfIdle (kdfStore m (hashChain c sp 256) (kdfIv c (hashChain c sp 256)) s) := by
  have hkey : (kdfRunRounds c sp kdfRounds (kdfAbsorb sp s)).hash = hashChain c sp 256 :=
    (kdfRunRounds_hash c sp kdfRounds (kdfAbsorb sp s) rfl).trans (by rw [kdfAbsorb, kdfRounds])
  rw [kdfRun, hkey, kdfRunRounds_frame]
  exact kdfIdle_kdfStore_working m _ _ _ _ s

/-- R166: with a password that fits, `KDF.DERIVE` stores the derivation from the salted password. -/
theorem exec_kdfDerive (m : Context) {s : State} (h : s.pwLen.toNat ≤ Config.cfg.pwMax) {key : List Byte}
    (hkey : key = hashChain Config.cfg (saltedPassword Config.cfg m (passwordBytes s)) 256) :
    exec (.kdfDerive m) s = .next (endCommand (kdfIdle (kdfStore m key (kdfIv Config.cfg key) s))) := by
  rcases deriveCommand_cases Config.cfg m s with ⟨_, hc⟩ | ⟨hlt, _⟩
  · rw [hkey, ← kdfRun_eq, ← hc]
    rfl
  · omega

/-- R62: a word of packed bytes, least-significant byte first. -/
theorem packLe32_toNat (n : Nat) (bs : List Byte) (j : Fin n) :
    (packLe32 n bs)[j].toNat = (byteAt bs (4 * j)).toNat + 2 ^ 8 * (byteAt bs (4 * j + 1)).toNat +
      2 ^ 16 * (byteAt bs (4 * j + 2)).toNat + 2 ^ 24 * (byteAt bs (4 * j + 3)).toNat := by
  have hword : (packLe32 n bs)[j] = le32At bs j := by simp [packLe32]
  rw [hword, le32At, le32]
  generalize byteAt bs (4 * j) = b0, byteAt bs (4 * j + 1) = b1, byteAt bs (4 * j + 2) = b2,
    byteAt bs (4 * j + 3) = b3
  rw [BitVec.toNat_append, ← Nat.shiftLeft_add_eq_or_of_lt b0.isLt, BitVec.toNat_append,
    ← Nat.shiftLeft_add_eq_or_of_lt b1.isLt, BitVec.toNat_append, ← Nat.shiftLeft_add_eq_or_of_lt b2.isLt]
  simp only [Nat.shiftLeft_eq]
  omega

end Sys2Proof.Proofs
end

section
/-! PROOFS. What the derivations store (O24, O25). -/

namespace Sys2Proof.Proofs

open Sys2Proof.Machine Sys2Proof.Safety Sys2Proof.Laws

/-- Settles O24: the rounds are the chain of R162, and `KEYP`, `IVP` pack its key and IV. -/
theorem payloadDerivationStoresKeyAndIv : Obligations.PayloadDerivationStoresKeyAndIv := by
  intro s key iv hfit hkey hiv
  subst hiv
  exact ⟨_, exec_kdfDerive .payload hfit hkey, rfl, packLe32_toNat 8 key, packLe32_toNat 4 _⟩

/-- Settles O25: as O24 with the suffix in the chain and the IV in `SEED` too. -/
theorem headerDerivationStoresKeyIvAndSeed : Obligations.HeaderDerivationStoresKeyIvAndSeed := by
  intro s key iv hfit hkey hiv
  subst hiv
  exact ⟨_, exec_kdfDerive .header hfit hkey, rfl, packLe32_toNat 8 key, packLe32_toNat 4 _⟩

end Sys2Proof.Proofs
end

section
/-! SUPPORT. What the draws of a request keep of the session, and how far they move its cursor (`spec/43_scatter.md`
R198, R202, R208, R212). -/

namespace Sys2Proof.Proofs

open Sys2Proof.Machine Sys2Proof.Safety Sys2Proof.Laws

/-- What a draw keeps of a session's registers (R198, R202, R208). -/
def SameSession (x y : Scatter) : Prop :=
  y.valid = x.valid ∧ y.fault = x.fault ∧ y.avail = x.avail ∧ y.total = x.total

theorem shapedDraw_sameSession (c : Cfg) (x : Scatter) : SameSession x (shapedDraw c x).1 := by
  rw [shapedDraw_eq, sampled_frame]
  exact ⟨rfl, rfl, rfl, rfl⟩

theorem drawSlot_sameSession (c : Cfg) (m : Mode) (x : Scatter) : SameSession x (drawSlot c m x).1 := by
  rcases drawSlot_cases c m x with ⟨_, hd⟩ | ⟨_, _, hd⟩ | ⟨_, _, hd⟩
  · have hdraw := shapedDraw_sameSession c (switchToShaped x)
    rw [switchToShaped_frame] at hdraw
    rw [hd, switchToShaped_frame]
    exact hdraw
  · rw [hd]
    exact ⟨rfl, rfl, rfl, rfl⟩
  · rw [hd]
    exact shapedDraw_sameSession c x

/-- R212: a request keeps the session and moves the cursor by the number of draws. -/
theorem drawSlots_sameSession (c : Cfg) (m : Mode) (n : Nat) (x : Scatter) :
    SameSession x (drawSlots c m n x).1 ∧ (drawSlots c m n x).1.used = x.used + BitVec.ofNat 32 n := by
  induction n generalizing x with
  | zero => exact ⟨⟨rfl, rfl, rfl, rfl⟩, (BitVec.add_zero x.used).symm⟩
  | succ n ih =>
    obtain ⟨⟨hvalid, hfault, havail, htotal⟩, hused⟩ := ih (drawSlot c m x).1
    obtain ⟨hvalid1, hfault1, havail1, htotal1⟩ := drawSlot_sameSession c m x
    obtain ⟨hused1, _⟩ := drawSlot_counters c m x
    refine ⟨⟨hvalid.trans hvalid1, hfault.trans hfault1, havail.trans havail1, htotal.trans htotal1⟩, ?_⟩
    rw [drawSlots, hused, hused1, BitVec.add_assoc, Nat.add_comm n 1, BitVec.ofNat_add]
    rfl

/-- A session kept is the same record on the fields kept. -/
theorem SameSession.frame {x y : Scatter} (h : SameSession x y) (hv : x.valid = true) (hf : x.fault = false) :
    y = { y with valid := true, fault := false, avail := x.avail, total := x.total } := by
  obtain ⟨hvalid, hfault, havail, htotal⟩ := h
  rw [← hvalid.trans hv, ← hfault.trans hf, ← havail, ← htotal]

/-- R212, R285: a request that passes every check ends with its effect. -/
theorem exec_scGen_of_grantable {m : Mode} {s : State} (h : Grantable m s) :
    exec (.scGen m) s = .next (endCommand (issueSlots Config.cfg m s)) := by
  have hok : sessionOk s = true := (sessionOk_iff s).mpr ⟨h.valid, h.unfaulted⟩
  have hforward : regresses m s.sc = false := decide_eq_false h.forward
  have hlength := h.length
  have hcapacity := h.capacity
  rcases genCommand_cases Config.cfg m s with
    ⟨hno, _⟩ | ⟨_, hlong, _⟩ | ⟨_, _, hback, _⟩ | ⟨_, _, _, hfull, _⟩ | ⟨_, _, _, _, hc⟩
  · simp [hok] at hno
  · omega
  · simp [hforward] at hback
  · omega
  · exact congrArg Host.Outcome.next hc

end Sys2Proof.Proofs
end

section
/-! PROOFS. What a granted request stores (O33). -/

namespace Sys2Proof.Proofs

open Sys2Proof.Machine Sys2Proof.Safety Sys2Proof.Laws

/-- Settles O33: the draws keep the session and move the cursor, and their addresses are the run written to `AOUT`. -/
theorem scGenIssuesTheAddresses : Obligations.ScGenIssuesTheAddresses := by
  intro m s h
  obtain ⟨hsame, hused⟩ := drawSlots_sameSession Config.cfg m s.arg0.toNat s.sc
  have hlen := drawSlots_length Config.cfg m s.arg0.toNat s.sc
  refine ⟨_, exec_scGen_of_grantable h, ?_, ?_, fun a ha => ?_, ?_⟩
  · exact congrArg (fun y => { endCommand (issueSlots Config.cfg m s) with sc := y })
      (hsame.frame h.valid h.unfaulted)
  · have hread := memReadList_memWriteList s.aout 0 (drawSlots Config.cfg m s.arg0.toNat s.sc).2 0 s.arg0.toNat
      (by omega)
    rwa [List.drop_zero, List.take_of_length_le (by omega)] at hread
  · exact memRead_memWriteList_past s.aout (by omega)
  · exact hused.trans (by rw [BitVec.ofNat_toNat, BitVec.setWidth_eq])

end Sys2Proof.Proofs
end

section
/-! PROOFS. The step of a busy block: a write that comes too early, and the accepted command (O50, O5). -/

namespace Sys2Proof.Proofs

open Sys2Proof.Machine Sys2Proof.Safety Sys2Proof.Laws

/-- R66 to R69: a write to any space but `PIX` goes through the port of the block. -/
theorem hostWrite_of_ne_pix (c : Cfg) {sp : Space} (hsp : sp ≠ .pix) (w : Width) (off : Nat) (v : Word) (s : State) :
    hostWrite c sp w off v s = .next (portWrite c sp w off v s) := by
  cases sp
  case pix => exact absurd rfl hsp
  all_goals rfl

/-- R71: the port of a busy block drops a write inside the space and flags it. -/
theorem portWrite_busy {c : Cfg} {sp : Space} {off : Nat} {s : State} (hb : s.busy = true)
    (hin : inSpace c sp off = true) (w : Width) (v : Word) :
    portWrite c sp w off v s = { s with wrign := true } := by
  simp only [portWrite, hin, hb, if_true]

/-- Settles O50: the five spaces have one port, which is closed while the block is busy. -/
theorem busyWritesAreDroppedAndFlagged : Obligations.BusyWritesAreDroppedAndFlagged := by
  intro s sp w off v rest hb hsp hin hi
  calc step s = hostWrite Config.cfg sp w off v { s with input := rest } := by
        simp only [step, nextStep, hi, hostEvent]
    _ = .next (portWrite Config.cfg sp w off v { s with input := rest }) := hostWrite_of_ne_pix _ hsp w off v _
    _ = .next { s with input := rest, wrign := true } :=
        congrArg Host.Outcome.next (portWrite_busy (s := { s with input := rest }) hb hin w v)

/-- Settles O5: the host's wait lets the block move, and a busy block with its tables runs the word in `CMD`. -/
theorem stepRunsTheAcceptedCommand : Obligations.StepRunsTheAcceptedCommand := by
  intro s c rest i ha hdecode _
  have hrun : runCommand { s with input := rest } = exec i { s with input := rest } := by
    simp only [runCommand, ha.cmd, hdecode]
  rw [step_advance ha.input, ← hrun]
  simp only [advance, ha.busy, ha.tblReady, if_true]

end Sys2Proof.Proofs
end

section
/-! SUPPORT. The words of the three formats of `spec/30_encoding.md` R90: the fields of a word put together and taken
apart, the format each opcode of R96 has, and the decoder and the encoder as inverses of one another. -/

namespace Sys2Proof.Proofs

open Sys2Proof.Machine Sys2Proof.Safety Sys2Proof.Laws

/-! ### The fields of a word (R90) -/

@[simp] theorem opcodeOf_encodeZ (op : BitVec 8) : opcodeOf (encodeZ op) = op :=
  BitVec.extractLsb'_append_eq_left

@[simp] theorem reservedZ_encodeZ (op : BitVec 8) : reservedZ (encodeZ op) = 0 :=
  BitVec.extractLsb'_append_eq_right

@[simp] theorem opcodeOf_encodeM (op : BitVec 8) (m : BitVec 1) : opcodeOf (encodeM op m) = op := by
  rw [opcodeOf, encodeM, BitVec.extractLsb'_append_eq_of_le (by omega)]
  exact BitVec.extractLsb'_append_eq_left

@[simp] theorem reservedM_encodeM (op : BitVec 8) (m : BitVec 1) : reservedM (encodeM op m) = 0 := by
  rw [reservedM, encodeM, BitVec.extractLsb'_append_eq_of_le (by omega)]
  exact BitVec.extractLsb'_append_eq_right

@[simp] theorem immM_encodeM (op : BitVec 8) (m : BitVec 1) : immM (encodeM op m) = m :=
  BitVec.extractLsb'_append_eq_right

@[simp] theorem opcodeOf_encodeT (sel : BitVec 2) (idx : Sym) : opcodeOf (encodeT sel idx) = 0x08 := by
  rw [opcodeOf, encodeT, BitVec.extractLsb'_append_eq_of_le (by omega),
    BitVec.extractLsb'_append_eq_of_le (by omega)]
  exact BitVec.extractLsb'_append_eq_left

@[simp] theorem reservedT_encodeT (sel : BitVec 2) (idx : Sym) : reservedT (encodeT sel idx) = 0 := by
  rw [reservedT, encodeT, BitVec.extractLsb'_append_eq_of_le (by omega),
    BitVec.extractLsb'_append_eq_of_le (by omega)]
  exact BitVec.extractLsb'_append_eq_right

@[simp] theorem immSel_encodeT (sel : BitVec 2) (idx : Sym) : immSel (encodeT sel idx) = sel := by
  rw [immSel, encodeT, BitVec.extractLsb'_append_eq_of_le (by omega)]
  exact BitVec.extractLsb'_append_eq_right

@[simp] theorem immIdx_encodeT (sel : BitVec 2) (idx : Sym) : immIdx (encodeT sel idx) = idx :=
  BitVec.extractLsb'_append_eq_right

theorem encodeZ_of_fields {c : Word} (h : reservedZ c = 0) : encodeZ (opcodeOf c) = c := by
  calc encodeZ (opcodeOf c) = opcodeOf c ++ reservedZ c := by rw [h]; rfl
    _ = c.extractLsb' 0 32 := BitVec.extractLsb'_append_extractLsb'_eq_extractLsb' rfl
    _ = c := BitVec.extractLsb'_eq_self

theorem encodeM_of_fields {c : Word} (h : reservedM c = 0) : encodeM (opcodeOf c) (immM c) = c := by
  have htop : opcodeOf c ++ reservedM c = c.extractLsb' 1 31 :=
    BitVec.extractLsb'_append_extractLsb'_eq_extractLsb' rfl
  calc encodeM (opcodeOf c) (immM c) = (opcodeOf c ++ reservedM c) ++ immM c := by rw [h]; rfl
    _ = c.extractLsb' 1 31 ++ c.extractLsb' 0 1 := by rw [htop]; rfl
    _ = c.extractLsb' 0 32 := BitVec.extractLsb'_append_extractLsb'_eq_extractLsb' rfl
    _ = c := BitVec.extractLsb'_eq_self

theorem encodeT_of_fields {c : Word} (hop : opcodeOf c = 0x08) (h : reservedT c = 0) :
    encodeT (immSel c) (immIdx c) = c := by
  have htop : opcodeOf c ++ reservedT c = c.extractLsb' 14 18 :=
    BitVec.extractLsb'_append_extractLsb'_eq_extractLsb' rfl
  have hsel : c.extractLsb' 14 18 ++ immSel c = c.extractLsb' 12 20 :=
    BitVec.extractLsb'_append_extractLsb'_eq_extractLsb' rfl
  calc encodeT (immSel c) (immIdx c) = ((opcodeOf c ++ reservedT c) ++ immSel c) ++ immIdx c := by
        rw [hop, h]; rfl
    _ = c.extractLsb' 12 20 ++ c.extractLsb' 0 12 := by rw [htop, hsel]; rfl
    _ = c.extractLsb' 0 32 := BitVec.extractLsb'_append_extractLsb'_eq_extractLsb' rfl
    _ = c := BitVec.extractLsb'_eq_self

/-! ### The immediates (R92) -/

@[simp] theorem modeOfBit_bitOfMode (m : Mode) : modeOfBit (bitOfMode m) = m := by
  cases m <;> rfl

@[simp] theorem bitOfMode_modeOfBit (b : BitVec 1) : bitOfMode (modeOfBit b) = b := by
  revert b; decide

@[simp] theorem contextOfBit_bitOfContext (m : Context) : contextOfBit (bitOfContext m) = m := by
  cases m <;> rfl

@[simp] theorem bitOfContext_contextOfBit (b : BitVec 1) : bitOfContext (contextOfBit b) = b := by
  revert b; decide

/-! ### The decoder of each format (R90, R98) -/

theorem decodeZ_eq_ok {c : Word} {i j : Instr} : decodeZ c i = .ok j ↔ reservedZ c = 0 ∧ i = j := by
  unfold decodeZ
  split
  case isTrue h => simp only [h, true_and, Except.ok.injEq]
  case isFalse h => simp only [h, false_and, reduceCtorEq]

theorem decodeM_eq_ok {c : Word} {f : BitVec 1 → Instr} {j : Instr} :
    decodeM c f = .ok j ↔ reservedM c = 0 ∧ f (immM c) = j := by
  unfold decodeM
  split
  case isTrue h => simp only [h, true_and, Except.ok.injEq]
  case isFalse h => simp only [h, false_and, reduceCtorEq]

/-- R98: format T has a row for each `sel` but 3. -/
theorem decodeT_ok {c : Word} {j : Instr} (h : decodeT c = .ok j) :
    reservedT c = 0 ∧ immSel c ≠ 3 ∧ encode j = encodeT (immSel c) (immIdx c) := by
  have sel_eq {k : BitVec 2} (hk : (immSel c).toNat = k.toNat) : immSel c = k := BitVec.eq_of_toNat_eq hk
  unfold decodeT at h
  split at h
  case isTrue h0 =>
    split at h
    case h_1 hs => cases h; rw [sel_eq (k := 0) hs]; exact ⟨h0, by decide, rfl⟩
    case h_2 hs => cases h; rw [sel_eq (k := 1) hs]; exact ⟨h0, by decide, rfl⟩
    case h_3 hs => cases h; rw [sel_eq (k := 2) hs]; exact ⟨h0, by decide, rfl⟩
    case h_4 => cases h
  case isFalse => cases h

/-! ### The opcode map (R96) -/

/-- R96: the opcodes of format Z. -/
def opcodesZ : List Nat := [0x00, 0x01, 0x10, 0x11, 0x12, 0x13, 0x21, 0x30, 0x33]

/-- R96: the opcodes of format M. -/
def opcodesM : List Nat := [0x20, 0x31, 0x32]

/-- R96: `TBL.RD` is the one command of format T. -/
theorem mem_opcodes_iff {n : Nat} : n ∈ opcodes ↔ n ∈ opcodesZ ∨ n ∈ opcodesM ∨ n = 0x08 := by
  simp only [opcodes, opcodesZ, opcodesM, List.mem_cons, List.not_mem_nil, or_false]
  omega

theorem opcodeOf_eq {c : Word} {n : Nat} (h : (opcodeOf c).toNat = n) : opcodeOf c = BitVec.ofNat 8 n := by
  rw [← h, BitVec.ofNat_toNat, BitVec.setWidth_eq]

theorem decode_of_opcodesZ {c : Word} (h : (opcodeOf c).toNat ∈ opcodesZ) :
    ∃ i, decode c = decodeZ c i ∧ encode i = encodeZ (opcodeOf c) := by
  simp only [opcodesZ, List.mem_cons, List.not_mem_nil, or_false] at h
  rcases h with h | h | h | h | h | h | h | h | h
  · exact ⟨.nop, by simp only [decode, h], congrArg encodeZ (opcodeOf_eq h).symm⟩
  · exact ⟨.sreset, by simp only [decode, h], congrArg encodeZ (opcodeOf_eq h).symm⟩
  · exact ⟨.eccEnc12, by simp only [decode, h], congrArg encodeZ (opcodeOf_eq h).symm⟩
  · exact ⟨.eccDec24, by simp only [decode, h], congrArg encodeZ (opcodeOf_eq h).symm⟩
  · exact ⟨.eccEncb, by simp only [decode, h], congrArg encodeZ (opcodeOf_eq h).symm⟩
  · exact ⟨.eccDecb, by simp only [decode, h], congrArg encodeZ (opcodeOf_eq h).symm⟩
  · exact ⟨.kdfClear, by simp only [decode, h], congrArg encodeZ (opcodeOf_eq h).symm⟩
  · exact ⟨.scInit, by simp only [decode, h], congrArg encodeZ (opcodeOf_eq h).symm⟩
  · exact ⟨.scEnd, by simp only [decode, h], congrArg encodeZ (opcodeOf_eq h).symm⟩

theorem decode_of_opcodesM {c : Word} (h : (opcodeOf c).toNat ∈ opcodesM) :
    ∃ f, decode c = decodeM c f ∧ ∀ m, encode (f m) = encodeM (opcodeOf c) m := by
  simp only [opcodesM, List.mem_cons, List.not_mem_nil, or_false] at h
  rcases h with h | h | h
  · exact ⟨fun m => .kdfDerive (contextOfBit m), by simp only [decode, h],
      fun m => congrArg₂ encodeM (opcodeOf_eq h).symm (bitOfContext_contextOfBit m)⟩
  · exact ⟨fun m => .scFree (modeOfBit m), by simp only [decode, h],
      fun m => congrArg₂ encodeM (opcodeOf_eq h).symm (bitOfMode_modeOfBit m)⟩
  · exact ⟨fun m => .scGen (modeOfBit m), by simp only [decode, h],
      fun m => congrArg₂ encodeM (opcodeOf_eq h).symm (bitOfMode_modeOfBit m)⟩

theorem decode_of_opcodeT {c : Word} (h : (opcodeOf c).toNat = 0x08) : decode c = decodeT c := by
  simp only [decode, h]

/-- R97: the opcodes outside the map are reserved. -/
theorem decode_of_reservedOpcode {c : Word} (h : (opcodeOf c).toNat ∉ opcodes) :
    decode c = .error .reservedOpcode := by
  unfold decode
  split
  case h_14 => rfl
  all_goals next hop => exact absurd (hop ▸ h) (by decide)

/-! ### The decoder and the encoder -/

/-- R96, R101: each format gives back its fields, and the opcode picks the command. -/
theorem decode_encode (i : Instr) : decode (encode i) = .ok i := by
  cases i
  case tblRdEnc idx => simp [encode, decode, decodeT]
  case tblRdSyn idx => simp [encode, decode, decodeT]
  case tblRdCor idx => simp [encode, decode, decodeT]
  case kdfDerive m => simp [encode, decode, decodeM]
  case scFree m => simp [encode, decode, decodeM]
  case scGen m => simp [encode, decode, decodeM]
  all_goals simp [encode, decode, decodeZ]

/-- R99: a word that decodes to a command is the word of that command. -/
theorem encode_of_decode {c : Word} {i : Instr} (h : decode c = .ok i) : encode i = c := by
  by_cases hop : (opcodeOf c).toNat ∈ opcodes
  case neg => rw [decode_of_reservedOpcode hop] at h; cases h
  case pos =>
    rcases mem_opcodes_iff.mp hop with hz | hm | ht
    · obtain ⟨j, hdecode, hencode⟩ := decode_of_opcodesZ hz
      obtain ⟨h0, rfl⟩ := decodeZ_eq_ok.mp (hdecode ▸ h)
      rw [hencode, encodeZ_of_fields h0]
    · obtain ⟨f, hdecode, hencode⟩ := decode_of_opcodesM hm
      obtain ⟨h0, rfl⟩ := decodeM_eq_ok.mp (hdecode ▸ h)
      rw [hencode, encodeM_of_fields h0]
    · obtain ⟨h0, _, hencode⟩ := decodeT_ok (decode_of_opcodeT ht ▸ h)
      rw [hencode, encodeT_of_fields (opcodeOf_eq ht) h0]

theorem decode_eq_ok_iff {c : Word} {i : Instr} : decode c = .ok i ↔ encode i = c :=
  ⟨encode_of_decode, fun h => h ▸ decode_encode i⟩

/-- R98: what a legal word has in the fields of its format. -/
theorem fields_of_decode {c : Word} {i : Instr} (h : decode c = .ok i) :
    ((opcodeOf c).toNat ∈ opcodesZ → reservedZ c = 0) ∧
    ((opcodeOf c).toNat ∈ opcodesM → reservedM c = 0) ∧
    ((opcodeOf c).toNat = 0x08 → reservedT c = 0 ∧ immSel c ≠ 3) := by
  refine ⟨fun hop => ?_, fun hop => ?_, fun hop => ?_⟩
  · obtain ⟨j, hdecode, _⟩ := decode_of_opcodesZ hop
    exact (decodeZ_eq_ok.mp (hdecode ▸ h)).1
  · obtain ⟨f, hdecode, _⟩ := decode_of_opcodesM hop
    exact (decodeM_eq_ok.mp (hdecode ▸ h)).1
  · obtain ⟨h0, hsel, _⟩ := decodeT_ok (decode_of_opcodeT hop ▸ h)
    exact ⟨h0, hsel⟩

/-! ### The rows of the opcode table (R96) -/

/-- R96: every command has its row. -/
theorem row_mem_tableRows (i : Instr) : (rowMatch i, rowMask i) ∈ tableRows := by
  cases i <;> simp [tableRows, rowMatch, rowMask]

/-- One command for each row of the opcode table, in the order of the table. -/
def rowCommands : List Instr :=
  [.nop, .sreset, .tblRdEnc 0, .tblRdSyn 0, .tblRdCor 0, .eccEnc12, .eccDec24, .eccEncb, .eccDecb,
    .kdfDerive .payload, .kdfClear, .scInit, .scFree .uniform, .scGen .uniform, .scEnd]

theorem tableRows_eq : tableRows = rowCommands.map fun i => (rowMatch i, rowMask i) := rfl

/-- R96: every row is a command's. -/
theorem exists_row_of_mem_tableRows {r : Word × Word} (h : r ∈ tableRows) :
    ∃ i, r = (rowMatch i, rowMask i) := by
  rw [tableRows_eq, List.mem_map] at h
  obtain ⟨i, _, hi⟩ := h
  exact ⟨i, hi.symm⟩

/-- R96: the word of every command matches the command's row. -/
theorem encode_matches_row (i : Instr) : encode i &&& rowMask i = rowMatch i := by
  cases i
  case nop => exact TableRow.nop
  case sreset => exact TableRow.sreset
  case tblRdEnc idx => exact TableRow.tblRdEnc idx
  case tblRdSyn idx => exact TableRow.tblRdSyn idx
  case tblRdCor idx => exact TableRow.tblRdCor idx
  case eccEnc12 => exact TableRow.eccEnc12
  case eccDec24 => exact TableRow.eccDec24
  case eccEncb => exact TableRow.eccEncb
  case eccDecb => exact TableRow.eccDecb
  case kdfDerive m => exact TableRow.kdfDerive m
  case kdfClear => exact TableRow.kdfClear
  case scInit => exact TableRow.scInit
  case scFree m => exact TableRow.scFree m
  case scGen m => exact TableRow.scGen m
  case scEnd => exact TableRow.scEnd

/-- A word whose bits from `n` up are given is those bits before its own low ones. -/
theorem eq_append_of_masked {m n : Nat} {c : BitVec (m + n)} {top : BitVec m}
    (h : c &&& (BitVec.allOnes m ++ 0#n) = top ++ 0#n) : c = top ++ c.extractLsb' 0 n := by
  have hsplit : c = c.extractLsb' n m ++ c.extractLsb' 0 n := by
    rw [BitVec.extractLsb'_append_extractLsb'_eq_extractLsb' (Nat.zero_add n).symm, BitVec.extractLsb'_eq_self]
  have htop : c.extractLsb' n m = top := by
    rw [hsplit, BitVec.and_append, BitVec.and_allOnes, BitVec.and_zero] at h
    exact (BitVec.append_left_inj _).mp h
  rw [← htop]
  exact hsplit

theorem encodeM_of_masked {c : Word} {op : BitVec 8} (h : c &&& 0xFFFFFFFE = encodeM op 0) :
    encodeM op (immM c) = c :=
  (eq_append_of_masked (m := 31) (n := 1) (c := c) (top := op ++ 0#23) h).symm

theorem encodeT_of_masked {c : Word} {sel : BitVec 2} (h : c &&& 0xFFFFF000 = encodeT sel 0) :
    encodeT sel (immIdx c) = c :=
  (eq_append_of_masked (m := 20) (n := 12) (c := c) (top := 0x08#8 ++ 0#10 ++ sel) h).symm

/-- A row whose mask leaves no bit free has one word. -/
theorem encode_of_matches_fullMask {c : Word} {i : Instr} (h : c &&& rowMask i = rowMatch i)
    (hfull : rowMask i = BitVec.allOnes 32) : encode i = c := by
  have hrow := encode_matches_row i
  rw [hfull, BitVec.and_allOnes] at hrow h
  exact hrow.trans h.symm

/-- R96: a word that matches a row is the word of one of the row's commands: the mask leaves only immediates free. -/
theorem exists_encode_of_matches_row {c : Word} (i : Instr) (h : c &&& rowMask i = rowMatch i) :
    ∃ j, encode j = c := by
  cases i
  case tblRdEnc idx => exact ⟨.tblRdEnc (immIdx c), encodeT_of_masked h⟩
  case tblRdSyn idx => exact ⟨.tblRdSyn (immIdx c), encodeT_of_masked h⟩
  case tblRdCor idx => exact ⟨.tblRdCor (immIdx c), encodeT_of_masked h⟩
  case kdfDerive m =>
    exact ⟨.kdfDerive (contextOfBit (immM c)), by rw [encode, bitOfContext_contextOfBit, encodeM_of_masked h]⟩
  case scFree m => exact ⟨.scFree (modeOfBit (immM c)), by rw [encode, bitOfMode_modeOfBit, encodeM_of_masked h]⟩
  case scGen m => exact ⟨.scGen (modeOfBit (immM c)), by rw [encode, bitOfMode_modeOfBit, encodeM_of_masked h]⟩
  all_goals exact ⟨_, encode_of_matches_fullMask h rfl⟩

end Sys2Proof.Proofs
end

section
/-! PROOFS. The command words: decoding and encoding, and the opcode table (O1, O2, O3, O4). -/

namespace Sys2Proof.Proofs

open Sys2Proof.Machine Sys2Proof.Safety Sys2Proof.Laws

/-- Settles O1: the decoder undoes the encoder, constructor by constructor. -/
theorem encodedCommandDecodesToItself : Obligations.EncodedCommandDecodesToItself :=
  fun i _ => decode_encode i

/-- Settles O2: decoder and encoder are inverse to one another, so a word has one command or none. -/
theorem everyWordIsOneCommandOrIllegal : Obligations.EveryWordIsOneCommandOrIllegal := by
  intro c
  cases hd : decode c with
  | ok i =>
    refine .inl ⟨i, rfl, encode_of_decode hd, fun j hj => ?_⟩
    exact Except.ok.inj ((decode_eq_ok_iff.mpr hj).symm.trans hd)
  | error e =>
    refine .inr ⟨⟨e, rfl⟩, fun i hi => ?_⟩
    rw [decode_eq_ok_iff.mpr hi] at hd
    cases hd

/-- Settles O3: a legal word is a command's, and so matches its row; a word that matches a row is a command's. -/
theorem legalWordsAreTheTableRows : Obligations.LegalWordsAreTheTableRows := by
  intro c
  constructor
  · rintro ⟨i, hi⟩
    exact ⟨_, row_mem_tableRows i, encode_of_decode hi ▸ encode_matches_row i⟩
  · rintro ⟨r, hr, hmatch⟩
    obtain ⟨i, rfl⟩ := exists_row_of_mem_tableRows hr
    obtain ⟨j, hj⟩ := exists_encode_of_matches_row i hmatch
    exact ⟨j, decode_eq_ok_iff.mpr hj⟩

/-- Settles O4: each of the words is the encoding of its command. -/
theorem specWordsDecodeToTheirCommands : Obligations.SpecWordsDecodeToTheirCommands :=
  ⟨decode_encode .nop, decode_encode .sreset, decode_encode (.tblRdSyn 0x123), decode_encode (.tblRdCor 0xFFF),
    decode_encode .eccDec24, decode_encode (.kdfDerive .header), decode_encode (.scFree .uniform),
    decode_encode (.scGen .shaped), decode_encode .scEnd⟩

end Sys2Proof.Proofs
end

section
/-! SUPPORT. How a command ends: with an error that leaves the session alone, or in any case idle and done
(`spec/30_encoding.md` R91, R97, `spec/60_exceptions.md` R283, R286). -/

namespace Sys2Proof.Proofs

open Sys2Proof.Machine Sys2Proof.Safety Sys2Proof.Laws

variable {s t : State}

/-- R283, R286: an error that is not fatal changes the error registers and ends the command. -/
theorem next_of_raise {e : CmdError} {i0 i1 : Word} (h : t = raise e i0 i1 s) (he : isFatal e = false) :
    (.next t : Result) = .next { s with
      err := errCode e, errInfo0 := i0, errInfo1 := i1, busy := false, done := true } := by
  rw [h, raise, he, Bool.or_false]

/-- R97: the step of a word the decoder rejects. -/
theorem step_of_rejected {c : Word} {rest : List HostEvent} (ha : Accepted c rest s) {e : Illegal}
    (hd : decode c = .error e) :
    step s = .next { s with
      input := rest, err := 1, errInfo0 := c, errInfo1 := 0, busy := false, done := true } := by
  have hraise : step s = .next (raise .illegal c 0 { s with input := rest }) := by
    rw [step_advance ha.input]
    simp only [advance, runCommand, ha.busy, ha.tblReady, ha.cmd, hd, if_true]
  exact hraise.trans (next_of_raise rfl rfl)

/-- R142, R144: the two ways a length is too long for the buffers. -/
theorem eccLengthOk_eq_false {c : Cfg} {L : Nat} (h : c.dbufMax < L ∨ c.dbufMax < 3 * nsym L) :
    eccLengthOk c L = false := by
  rw [Bool.eq_false_iff, ne_eq, eccLengthOk_iff]
  omega

/-- R28: `CTRL` is the host's. -/
theorem effect_ie (c : Cfg) (i : Instr) (s : State) : (effect c i s).ie = s.ie := by
  rw [effect_frame]

theorem Ends.idle_done {i : Instr} (h : Ends i s t) : t.busy = false ∧ t.done = true ∧ t.ie = s.ie := by
  rcases h with ⟨_, rfl⟩ | ⟨_, _, _, _, rfl⟩
  · exact ⟨rfl, rfl, effect_ie _ i s⟩
  · exact ⟨rfl, rfl, rfl⟩

end Sys2Proof.Proofs
end

section
/-! PROOFS. The words the decoder rejects (O6, O7), the operands the ECC unit rejects (O19), and the end of every
command (O45, O12). -/

namespace Sys2Proof.Proofs

open Sys2Proof.Machine Sys2Proof.Safety Sys2Proof.Laws

/-- Settles O6: the decoder knows no other opcode. -/
theorem reservedOpcodeEndsInEIllegal : Obligations.ReservedOpcodeEndsInEIllegal :=
  fun _ _ _ ha hop => step_of_rejected ha (decode_of_reservedOpcode hop)

/-- Settles O7: a word with such a field is no legal word of its format. -/
theorem reservedFieldEndsInEIllegal : Obligations.ReservedFieldEndsInEIllegal := by
  intro s c rest ha hfield
  cases hd : decode c with
  | error e => exact step_of_rejected ha hd
  | ok i =>
    obtain ⟨hz, hm, ht⟩ := fields_of_decode hd
    rcases hfield with ⟨hop, hne⟩ | ⟨hop, hne⟩ | ⟨hop, hne | hsel⟩
    · exact absurd (hz hop) hne
    · exact absurd (hm hop) hne
    · exact absurd (ht hop).1 hne
    · exact absurd (BitVec.eq_of_toNat_eq hsel) (ht hop).2

/-- Settles O19: the check of each command fails, and its error is not fatal. -/
theorem eccOperandErrors : Obligations.EccOperandErrors := by
  intro s
  refine ⟨fun h => ?_, fun h => ?_, fun h => ?_⟩
  · obtain ⟨hle, _⟩ | ⟨_, hraise⟩ := enc12Command_cases s
    · omega
    · exact next_of_raise hraise rfl
  · obtain ⟨hle, _⟩ | ⟨_, hraise⟩ := dec24Command_cases s
    · omega
    · exact next_of_raise hraise rfl
  · have hlen := eccLengthOk_eq_false h
    constructor
    · obtain ⟨hok, _⟩ | ⟨_, hraise⟩ := encbCommand_cases Config.cfg s
      · exact absurd (hok.symm.trans hlen) (by decide)
      · exact next_of_raise hraise rfl
    · obtain ⟨hok, _⟩ | ⟨_, hraise⟩ := decbCommand_cases Config.cfg s
      · exact absurd (hok.symm.trans hlen) (by decide)
      · exact next_of_raise hraise rfl

/-- Settles O45: with its effect or with an error, a command ends, and `DONE` gives the line to `CTRL.IE`. -/
theorem everyCommandEndsIdleAndDone : Obligations.EveryCommandEndsIdleAndDone := by
  intro i s
  obtain ⟨t, hx⟩ := exec_isNext i s
  obtain ⟨hbusy, hdone, hie⟩ := (exec_ends i hx).idle_done
  exact ⟨t, hx, hbusy, hdone, by rw [irq, hdone, hie, Bool.and_true]⟩

/-- Settles O12: `NOP` has no effect before its end. -/
theorem nopOnlyEnds : Obligations.NopOnlyEnds :=
  fun s => show execNop s = .next (endCommand s) from rfl

end Sys2Proof.Proofs
end

section
/-! SUPPORT. Where the last element of a filtered list stands (R135), and which moves of the block and of the host reach
the session (`spec/40_system.md` R110, R115, `spec/43_scatter.md` R200). -/

namespace Sys2Proof.Proofs

open Sys2Proof.Machine Sys2Proof.Safety Sys2Proof.Laws

/-! ### The last writer -/

/-- The last element that satisfies `p` stands at an index after which no element does. -/
theorem exists_index_of_getLast?_filter {α : Type} {p : α → Bool} {l : List α} {a : α}
    (h : (l.filter p).getLast? = some a) :
    ∃ n : Nat, l[n]? = some a ∧ p a = true ∧ ∀ (m : Nat) (b : α), n < m → l[m]? = some b → p b = false := by
  rw [List.getLast?_filter, List.find?_eq_some_iff_append] at h
  obtain ⟨hp, later, earlier, hsplit, hlater⟩ := h
  have hl : l = earlier.reverse ++ a :: later.reverse := by
    rw [← List.reverse_reverse l, hsplit]
    simp
  refine ⟨earlier.reverse.length, by simp [hl], hp, fun m b hm hb => ?_⟩
  obtain ⟨d, rfl⟩ := Nat.exists_eq_add_of_lt hm
  rw [hl, List.getElem?_append_right (by omega), Nat.add_assoc, Nat.add_sub_cancel_left,
    List.getElem?_cons_succ] at hb
  simpa using hlater b (List.mem_reverse.mp (List.mem_of_getElem? hb))

/-! ### The mode of a session -/

variable {s t : State}

/-- R200: no draw leaves Shaped mode. -/
theorem drawSlot_shaped (c : Cfg) (m : Mode) {x : Scatter} (h : x.mode = .shaped) :
    (drawSlot c m x).1.mode = .shaped := by
  rcases drawSlot_cases c m x with ⟨hdue, _⟩ | ⟨_, hm, _⟩ | ⟨_, _, hd⟩
  · obtain ⟨_, hm, _⟩ := (switchDue_iff m x).mp hdue
    simp [h] at hm
  · simp [h] at hm
  · obtain ⟨_, hmode, _⟩ := shapedDraw_kept c x
    rw [hd, hmode, h]

theorem drawSlots_shaped (c : Cfg) (m : Mode) (n : Nat) {x : Scatter} (h : x.mode = .shaped) :
    (drawSlots c m n x).1.mode = .shaped := by
  induction n generalizing x with
  | zero => exact h
  | succ n ih => exact ih (drawSlot_shaped c m h)

/-- The commands that end or replace a session (R113, R210, R213). -/
def sessionEnders : List Instr := [.sreset, .scInit, .scEnd]

theorem effect_shaped (c : Cfg) {i : Instr} (hi : i ∉ sessionEnders) (h : s.sc.mode = .shaped) :
    (effect c i s).sc.mode = .shaped := by
  by_cases hgen : ∃ m, i = .scGen m
  · obtain ⟨m, rfl⟩ := hgen
    exact drawSlots_shaped c m _ h
  · rw [effect_sc c s hi (not_exists.mp hgen), h]

/-- R200, R283: neither the effect of another command nor an error leaves Shaped mode. -/
theorem Ends.shaped {i : Instr} (he : Ends i s t) (hi : i ∉ sessionEnders) (h : s.sc.mode = .shaped) :
    t.sc.mode = .shaped := by
  rcases he with ⟨_, rfl⟩ | ⟨_, _, _, _, rfl⟩
  · exact effect_shaped _ hi h
  · exact h

/-- R110 (b): the block leaves Shaped mode only by running one of the three commands. -/
theorem advance_leaves_shaped (hx : advance s = .next t) (hs : s.sc.mode = .shaped) (ht : t.sc.mode = .uniform) :
    s.busy = true ∧ s.tblReady = true ∧ ∃ i ∈ sessionEnders, decode s.cmd = .ok i := by
  rcases advance_cases s with ⟨_, ha⟩ | ⟨_, _, ha⟩ | ⟨hb, hr, i, hd, ha⟩ | ⟨_, _, _, ha⟩
  · cases ha.symm.trans hx
    simp [hs] at ht
  · cases ha.symm.trans hx
    simp [hs] at ht
  · refine ⟨hb, hr, i, ?_, hd⟩
    by_contra hi
    have hkept := (exec_ends i (ha.symm.trans hx)).shaped hi hs
    simp [ht] at hkept
  · cases ha.symm.trans hx
    simp [hs] at ht

/-! ### The host's accesses and the session -/

@[simp] theorem portWrite_sc (c : Cfg) (sp : Space) (w : Width) (off : Nat) (v : Word) (s : State) :
    (portWrite c sp w off v s).sc = s.sc := by
  rcases portWrite_cases c sp w off v s with hp | ⟨_, hp⟩ | ⟨_, _, _, hp⟩
  · rw [hp]
  · rw [hp]
  · rw [hp, idleWrite_sc]

theorem hostWrite_sc {c : Cfg} {sp : Space} {w : Width} {off : Nat} {v : Word}
    (hx : hostWrite c sp w off v s = .next t) : t.sc = s.sc := by
  by_cases hsp : sp = .pix
  · subst hsp
    obtain ⟨m, rfl⟩ := pixWrite_next hx
    rfl
  · cases (hostWrite_of_ne_pix c hsp w off v s).symm.trans hx
    exact portWrite_sc ..

@[simp] theorem hostRead_sc (c : Cfg) (sp : Space) (w : Width) (off : Nat) (s : State) :
    (hostRead c sp w off s).sc = s.sc := by
  obtain ⟨v, n, h⟩ := hostRead_frame c sp w off s
  rw [h]

theorem busWriteAt_sc {c : Cfg} {w : Width} {addr : Nat} {v : Word}
    (hx : busWriteAt c w addr v s = .next t) : t.sc = s.sc := by
  unfold busWriteAt at hx
  split at hx
  · cases hx
    rfl
  · exact hostWrite_sc hx

@[simp] theorem busReadAt_sc (c : Cfg) (w : Width) (addr : Nat) (s : State) :
    (busReadAt c w addr s).sc = s.sc := by
  unfold busReadAt
  split
  · rfl
  · exact hostRead_sc ..

/-- R30, R40: the host's accesses leave the session alone, so an event that changes it is a hardware reset or the time
in which the block moves. -/
theorem hostEvent_sc (e : HostEvent) (hx : hostEvent e s = .next t) :
    t.sc = s.sc ∨ (∃ r, e = .hwReset r) ∨ advance s = .next t := by
  cases e with
  | write sp w off v => exact .inl (hostWrite_sc hx)
  | read sp w off =>
    cases hx
    exact .inl (hostRead_sc ..)
  | busWrite w addr v => exact .inl (busWriteAt_sc hx)
  | busRead w addr =>
    cases hx
    exact .inl (busReadAt_sc ..)
  | wait => exact .inr (.inr hx)
  | hwReset r => exact .inr (.inl ⟨r, rfl⟩)

/-! ### Table reads -/

/-- R115: a table read ends with the entry in `RES0` and changes nothing else. -/
theorem tableRead_eq (table : Table) (idx : Sym) (s : State) :
    tableRead table idx s =
      { s with res0 := (tableGet table idx).setWidth 32, busy := false, done := true } := rfl

end Sys2Proof.Proofs
end

section
/-! PROOFS. The system layer: the correction table (O10), Shaped mode (O44), the idle block (O8) and the table reads
(O14). -/

namespace Sys2Proof.Proofs

open Sys2Proof.Machine Sys2Proof.Safety Sys2Proof.Laws

/-- Settles O10: the last pattern with the syndrome is the last to store there, and where there is none the entry keeps
its initial 0. -/
theorem correctionTableHoldsTheLastPattern : Obligations.CorrectionTableHoldsTheLastPattern := by
  intro s z h
  rw [h.cor, ← h.syn, tableGet_corTable]
  cases hlast : (errPatterns.filter fun e => syndrome s.syn e == z).getLast? with
  | none =>
    have hnone := List.filter_eq_nil_iff.mp (List.getLast?_eq_none_iff.mp hlast)
    exact .inr ⟨fun e he => by simpa using hnone e he, rfl⟩
  | some e =>
    obtain ⟨n, hn, hz, hlater⟩ := exists_index_of_getLast?_filter hlast
    exact .inl ⟨n, e, hn, by simpa using hz, fun m e' hm he' => by simpa using hlater m e' hm he', rfl⟩

/-- Settles O44: the block leaves Shaped mode by one of the three commands, the host by a hardware reset; its accesses
do not reach the session. -/
theorem shapedNeverReturnsToUniform : Obligations.ShapedNeverReturnsToUniform := by
  intro s t hx hs ht
  rcases step_cases s with ⟨_, hstep⟩ | ⟨e, rest, hin, hstep⟩
  · exact .inr (advance_leaves_shaped (hstep.symm.trans hx) hs ht)
  · rcases hostEvent_sc e (hstep.symm.trans hx) with hsc | ⟨r, rfl⟩ | hadvance
    · simp [hsc, hs] at ht
    · exact .inl ⟨r, rest, hin⟩
    · exact .inr (advance_leaves_shaped (s := { s with input := rest }) hadvance hs ht)

/-- Settles O8: without an event the block moves, and an idle block has no move. -/
theorem idleBlockIsQuiescent : Obligations.IdleBlockIsQuiescent := by
  intro s hb hin
  rcases step_cases s with ⟨_, hstep⟩ | ⟨e, rest, he, _⟩
  · rw [hstep, advance, if_neg (by simp [hb])]
  · cases hin.symm.trans he

/-- Settles O14: each form reads its table, and a table read ends with the entry in `RES0`. -/
theorem tableReadsGiveTheEntry : Obligations.TableReadsGiveTheEntry :=
  fun idx s => ⟨congrArg Host.Outcome.next (tableRead_eq s.enc idx s),
    congrArg Host.Outcome.next (tableRead_eq s.syn idx s), congrArg Host.Outcome.next (tableRead_eq s.cor idx s)⟩

end Sys2Proof.Proofs
end

section
/-! SUPPORT. The order in which the loop of R135 visits the patterns, and the repacker as a bit stream
(`spec/41_ecc.md` R135, R137, R141, R143). -/

namespace Sys2Proof.Proofs

open Sys2Proof.Machine Sys2Proof.Safety Sys2Proof.Laws

/-! ### The order of the error patterns (R135) -/

/-- The tuples that begin with an index of `l`, continued as `f` says. -/
def tuplesFrom {α : Type} (l : List Nat) (f : Nat → List α) : List (Nat × α) :=
  l.flatMap fun i => (f i).map (Prod.mk i)

theorem mem_tuplesFrom {α : Type} {l : List Nat} {f : Nat → List α} {i : Nat} {x : α} :
    (i, x) ∈ tuplesFrom l f ↔ i ∈ l ∧ x ∈ f i := by
  simp [tuplesFrom]

/-- Ascending first indices and ordered continuations make a lexicographic order. -/
theorem tuplesFrom_pairwise {α : Type} {R : α → α → Prop} {l : List Nat} {f : Nat → List α}
    (hl : l.Pairwise (· < ·)) (hf : ∀ i, (f i).Pairwise R) :
    (tuplesFrom l f).Pairwise fun x y => x.1 < y.1 ∨ x.1 = y.1 ∧ R x.2 y.2 := by
  rw [tuplesFrom, List.pairwise_flatMap]
  constructor
  · intro i _
    rw [List.pairwise_map]
    exact (hf i).imp fun hr => .inr ⟨rfl, hr⟩
  · refine hl.imp fun hij x hx y hy => .inl ?_
    obtain ⟨_, _, rfl⟩ := List.mem_map.mp hx
    obtain ⟨_, _, rfl⟩ := List.mem_map.mp hy
    exact hij

/-- The values of a loop index that starts at `i`. -/
def indicesFrom (i : Nat) : List Nat := List.range' i (24 - i)

theorem mem_indicesFrom {i n : Nat} : n ∈ indicesFrom i ↔ i ≤ n ∧ n < 24 := by
  rw [indicesFrom, List.mem_range'_1]
  omega

theorem indicesFrom_ascending (i : Nat) : (indicesFrom i).Pairwise (· < ·) := List.pairwise_lt_range'

/-- The indices of the four nested loops, in the order of the iterations. -/
def loopIndices : List (Nat × Nat × Nat × Nat) :=
  tuplesFrom (indicesFrom 0) fun i => tuplesFrom (indicesFrom i) fun j =>
    tuplesFrom (indicesFrom j) indicesFrom

/-- The pattern of one iteration. -/
def patternOf (x : Nat × Nat × Nat × Nat) : Code := errBit x.1 ||| errBit x.2.1 ||| errBit x.2.2.1 ||| errBit x.2.2.2

theorem errPatterns_eq_map : errPatterns = loopIndices.map patternOf := by
  simp only [errPatterns, loopIndices, tuplesFrom, indicesFrom, List.map_flatMap, List.map_map]
  rfl

theorem mem_loopIndices {i j k l : Nat} : (i, j, k, l) ∈ loopIndices ↔ i ≤ j ∧ j ≤ k ∧ k ≤ l ∧ l < 24 := by
  simp only [loopIndices, mem_tuplesFrom, mem_indicesFrom]
  omega

theorem loopIndices_pairwise : loopIndices.Pairwise fun x y => x.1 < y.1 ∨ x.1 = y.1 ∧
    (x.2.1 < y.2.1 ∨ x.2.1 = y.2.1 ∧
      (x.2.2.1 < y.2.2.1 ∨ x.2.2.1 = y.2.2.1 ∧ x.2.2.2 < y.2.2.2)) :=
  tuplesFrom_pairwise (indicesFrom_ascending 0) fun i => tuplesFrom_pairwise (indicesFrom_ascending i) fun j =>
    tuplesFrom_pairwise (indicesFrom_ascending j) indicesFrom_ascending

/-- Below or at every set bit of `e'` there is a set bit of `e`. -/
def LowestBitLe (e e' : Code) : Prop := ∀ n, e'.getLsbD n = true → ∃ m ≤ n, e.getLsbD m = true

theorem LowestBitLe.refl (e : Code) : LowestBitLe e e := fun n hn => ⟨n, le_rfl, hn⟩

/-- The first index of an iteration is the lowest bit of its pattern. -/
theorem patternOf_lowestBitLe {x y : Nat × Nat × Nat × Nat} (hx : x ∈ loopIndices) (hy : y ∈ loopIndices)
    (h : x.1 ≤ y.1) : LowestBitLe (patternOf x) (patternOf y) := by
  obtain ⟨i, j, k, l⟩ := x
  obtain ⟨i', j', k', l'⟩ := y
  obtain ⟨hij, hjk, hkl, hl⟩ := mem_loopIndices.mp hx
  obtain ⟨hij', hjk', hkl', _⟩ := mem_loopIndices.mp hy
  intro n hn
  have habove : i' ≤ n := by
    simp only [patternOf, BitVec.getLsbD_or, errBit_getLsbD, Bool.or_eq_true, decide_eq_true_eq] at hn
    omega
  have hset : (errBit i).getLsbD i = true := by
    rw [errBit_getLsbD, decide_eq_true_eq]
    omega
  exact ⟨i, h.trans habove, by simp [patternOf, hset]⟩

/-- R135: the loop visits the patterns in the order of their lowest bits. -/
theorem errPatterns_lowestBitLe : errPatterns.Pairwise LowestBitLe := by
  rw [errPatterns_eq_map, List.pairwise_map]
  refine loopIndices_pairwise.imp_of_mem fun hx hy hlex => patternOf_lowestBitLe hx hy ?_
  omega

/-- R137 (c): of the patterns with one syndrome the last to store is one whose lowest bit is not below that of any
other. -/
theorem tableGet_corTable_of_highest {syn : Table} {e : Code} (he : e ∈ errPatterns)
    (hhighest : ∀ e' ∈ errPatterns, syndrome syn e' = syndrome syn e → LowestBitLe e e' → e' = e) :
    tableGet (corTable syn) (syndrome syn e) = dataBits e := by
  have hin : e ∈ errPatterns.filter fun e' => syndrome syn e' == syndrome syn e :=
    List.mem_filter.mpr ⟨he, by simp⟩
  have hrefl : Std.Refl LowestBitLe := ⟨LowestBitLe.refl⟩
  have hle := (errPatterns_lowestBitLe.filter _).rel_getLast hin
  obtain ⟨hmem, hsyn⟩ := List.mem_filter.mp (List.getLast_mem (List.ne_nil_of_mem hin))
  rw [tableGet_corTable, List.getLast?_eq_some_getLast (List.ne_nil_of_mem hin),
    hhighest _ hmem (by simpa using hsyn) hle, Option.map_some, Option.getD_some]

/-! ### One word (R136, R138) -/

theorem dataBits_setWidth (v : Word) : dataBits (v.setWidth 24) = BitVec.ofNat 12 (v.toNat / 2 ^ 12) := by
  apply BitVec.eq_of_toNat_eq
  rw [dataBits, BitVec.extractLsb'_toNat, BitVec.toNat_setWidth, BitVec.toNat_ofNat, Nat.shiftRight_eq_div_pow]
  omega

theorem parityBits_setWidth (v : Word) : parityBits (v.setWidth 24) = BitVec.ofNat 12 (v.toNat % 2 ^ 12) := by
  apply BitVec.eq_of_toNat_eq
  rw [parityBits, BitVec.extractLsb'_toNat, BitVec.toNat_setWidth, BitVec.toNat_ofNat, Nat.shiftRight_zero]
  omega

/-- R61: a codeword from the three bytes it is stored as. -/
theorem mkCode_toNat_bytes (w p : Sym) :
    (mkCode w p).toNat = (BitVec.ofNat 8 (w.toNat / 2 ^ 4)).toNat * 2 ^ 16 +
      (BitVec.ofNat 8 (w.toNat % 2 ^ 4 * 2 ^ 4 + p.toNat / 2 ^ 8)).toNat * 2 ^ 8 +
      (BitVec.ofNat 8 (p.toNat % 2 ^ 8)).toNat := by
  simp only [mkCode_toNat, BitVec.toNat_ofNat]
  omega

/-- R137 (a): an undamaged codeword decodes to its data word. -/
theorem decode24_codeword {c : Cfg} (hc : c.Admissible) (w : Sym) :
    decode24 (foldTable c.chk) (corTable (foldTable c.chk)) (codeword c.gen w) = w := by
  have h := decode24_codeword_xor hc w (e := 0) (by rw [popcount_zero]; omega)
  rwa [show codeword c.gen w ^^^ 0 = codeword c.gen w from BitVec.xor_zero] at h

/-! ### The repacker as a bit stream (R141, R143) -/

/-- R141: bit `8 * a + i` of the stream is bit `i` of byte `a`, counted from the top. -/
theorem streamBit_byte (bs : List Byte) (a : Nat) {i : Nat} (hi : i < 8) :
    streamBit bs (8 * a + i) = (byteAt bs a).getLsbD (7 - i) := by
  rw [streamBit, show (8 * a + i) / 8 = a by omega, show (8 * a + i) % 8 = i by omega]

/-- R143: bit `12 * k + i` of the stream is bit `i` of symbol `k`, counted from the top. -/
theorem symbolBit_symbol (ws : List Sym) (k : Nat) {i : Nat} (hi : i < 12) :
    symbolBit ws (12 * k + i) = (ws.getD k 0).getLsbD (11 - i) := by
  rw [symbolBit, show (12 * k + i) / 12 = k by omega, show (12 * k + i) % 12 = i by omega]

theorem symbolAt_even (bs : List Byte) (q : Nat) :
    symbolAt bs (2 * q) = byteAt bs (3 * q) ++ (byteAt bs (3 * q + 1)).extractLsb' 4 4 := by
  rw [symbolAt, if_pos (by omega), show 2 * q / 2 = q by omega]

theorem symbolAt_odd (bs : List Byte) (q : Nat) :
    symbolAt bs (2 * q + 1) = (byteAt bs (3 * q + 1)).extractLsb' 0 4 ++ byteAt bs (3 * q + 2) := by
  rw [symbolAt, if_neg (by omega), show (2 * q + 1) / 2 = q by omega]

/-- R141: an even symbol is a byte and the top half of the next, an odd one the other half and a byte. -/
theorem symbolAt_getLsbD (bs : List Byte) (k : Nat) {j : Nat} (hj : j < 12) :
    (symbolAt bs k).getLsbD (11 - j) = streamBit bs (12 * k + j) := by
  obtain ⟨q, rfl | rfl⟩ := Nat.even_or_odd' k
  · rw [symbolAt_even, BitVec.getLsbD_append]
    by_cases htop : j < 8
    · rw [if_neg (by omega), show 12 * (2 * q) + j = 8 * (3 * q) + j by omega, streamBit_byte bs _ htop,
        show 11 - j - 4 = 7 - j by omega]
    · rw [if_pos (by omega), show 12 * (2 * q) + j = 8 * (3 * q + 1) + (j - 8) by omega,
        streamBit_byte bs _ (by omega), BitVec.getLsbD_extractLsb', decide_eq_true (by omega), Bool.true_and,
        show 4 + (11 - j) = 7 - (j - 8) by omega]
  · rw [symbolAt_odd, BitVec.getLsbD_append]
    by_cases htop : j < 4
    · rw [if_neg (by omega), show 12 * (2 * q + 1) + j = 8 * (3 * q + 1) + (j + 4) by omega,
        streamBit_byte bs _ (by omega), BitVec.getLsbD_extractLsb', decide_eq_true (by omega), Bool.true_and,
        show 0 + (11 - j - 8) = 7 - (j + 4) by omega]
    · rw [if_pos (by omega), show 12 * (2 * q + 1) + j = 8 * (3 * q + 2) + (j - 4) by omega,
        streamBit_byte bs _ (by omega), show 11 - j = 7 - (j - 4) by omega]

theorem unpackByte_first (ws : List Sym) (q : Nat) :
    unpackByte ws (3 * q) = (ws.getD (2 * q) 0).extractLsb' 4 8 := by
  rw [unpackByte, if_pos (by omega), show 3 * q / 3 = q by omega]

theorem unpackByte_middle (ws : List Sym) (q : Nat) :
    unpackByte ws (3 * q + 1) =
      (ws.getD (2 * q) 0).extractLsb' 0 4 ++ (ws.getD (2 * q + 1) 0).extractLsb' 8 4 := by
  rw [unpackByte, if_neg (by omega), if_pos (by omega), show (3 * q + 1) / 3 = q by omega]

theorem unpackByte_last (ws : List Sym) (q : Nat) :
    unpackByte ws (3 * q + 2) = (ws.getD (2 * q + 1) 0).extractLsb' 0 8 := by
  rw [unpackByte, if_neg (by omega), if_neg (by omega), show (3 * q + 2) / 3 = q by omega]

/-- R143: of three bytes the first is the top of an even symbol, the last the bottom of the odd one after it, and the
middle one the rest of both. -/
theorem unpackByte_getLsbD (ws : List Sym) (a : Nat) {j : Nat} (hj : j < 8) :
    (unpackByte ws a).getLsbD (7 - j) = symbolBit ws (8 * a + j) := by
  obtain ⟨q, rfl | rfl | rfl⟩ : ∃ q, a = 3 * q ∨ a = 3 * q + 1 ∨ a = 3 * q + 2 := ⟨a / 3, by omega⟩
  · rw [unpackByte_first, show 8 * (3 * q) + j = 12 * (2 * q) + j by omega, symbolBit_symbol ws _ (by omega),
      BitVec.getLsbD_extractLsb', decide_eq_true (by omega), Bool.true_and, show 4 + (7 - j) = 11 - j by omega]
  · rw [unpackByte_middle, BitVec.getLsbD_append]
    by_cases htop : j < 4
    · rw [if_neg (by omega), show 8 * (3 * q + 1) + j = 12 * (2 * q) + (j + 8) by omega,
        symbolBit_symbol ws _ (by omega), BitVec.getLsbD_extractLsb', decide_eq_true (by omega), Bool.true_and,
        show 0 + (7 - j - 4) = 11 - (j + 8) by omega]
    · rw [if_pos (by omega), show 8 * (3 * q + 1) + j = 12 * (2 * q + 1) + (j - 4) by omega,
        symbolBit_symbol ws _ (by omega), BitVec.getLsbD_extractLsb', decide_eq_true (by omega), Bool.true_and,
        show 8 + (7 - j) = 11 - (j - 4) by omega]
  · rw [unpackByte_last, show 8 * (3 * q + 2) + j = 12 * (2 * q + 1) + (j + 4) by omega,
      symbolBit_symbol ws _ (by omega), BitVec.getLsbD_extractLsb', decide_eq_true (by omega), Bool.true_and,
      show 0 + (7 - j) = 11 - (j + 4) by omega]

/-- Unpacking the symbols of a byte string gives its bytes back: both are the same bits of the stream. -/
theorem unpackByte_packSymbols {bs : List Byte} {a : Nat} (ha : a < bs.length) :
    unpackByte (packSymbols bs) a = byteAt bs a := by
  have hbit (j : Nat) (hj : j < 8) :
      (unpackByte (packSymbols bs) a).getLsbD (7 - j) = (byteAt bs a).getLsbD (7 - j) := by
    have hk : (8 * a + j) / 12 < nsym bs.length := by rw [nsym]; omega
    have hsym : (packSymbols bs).getD ((8 * a + j) / 12) 0 = symbolAt bs ((8 * a + j) / 12) := by
      simp [packSymbols, hk]
    calc (unpackByte (packSymbols bs) a).getLsbD (7 - j)
        = symbolBit (packSymbols bs) (8 * a + j) := unpackByte_getLsbD _ a hj
      _ = (symbolAt bs ((8 * a + j) / 12)).getLsbD (11 - (8 * a + j) % 12) := by rw [symbolBit, hsym]
      _ = streamBit bs (8 * a + j) := by rw [symbolAt_getLsbD bs _ (Nat.mod_lt _ (by omega)), Nat.div_add_mod]
      _ = (byteAt bs a).getLsbD (7 - j) := streamBit_byte bs a hj
  apply BitVec.eq_of_getLsbD_eq
  intro i hi
  have h := hbit (7 - i) (by omega)
  rwa [show 7 - (7 - i) = i by omega] at h

end Sys2Proof.Proofs
end

section
/-! PROOFS. The ECC unit: the order of the correction table's stores (O11), one word (O15, O16) and byte strings (O23,
O22). -/

namespace Sys2Proof.Proofs

open Sys2Proof.Machine Sys2Proof.Safety Sys2Proof.Laws

/-- Settles O11: a pattern with the syndrome of a weight-4 one has weight 4 itself or is that one (P2), and of those the
loop stores the one with the highest lowest bit last. -/
theorem errorPatternsHaveWeightOneToFour : Obligations.ErrorPatternsHaveWeightOneToFour := by
  refine ⟨mem_errPatterns_iff_popcount,
    ⟨loopIndices, fun _ _ _ _ => mem_loopIndices, loopIndices_pairwise, errPatterns_eq_map⟩,
    fun s e ht h4 hclass => ?_⟩
  rw [ht.cor, ← ht.syn]
  refine tableGet_corTable_of_highest ((mem_errPatterns_iff_popcount e).mpr (by omega)) fun e' hmem hsyn hle => ?_
  by_contra hne
  obtain ⟨_, hweight⟩ := (mem_errPatterns_iff_popcount e').mp hmem
  by_cases h4' : popcount e' = 4
  · obtain ⟨n, hn, hclear⟩ := hclass e' h4' hne hsyn
    obtain ⟨m, hm, hset⟩ := hle n hn
    simp [hclear m hm] at hset
  · rw [ht.syn] at hsyn
    exact hne (eq_of_syndrome_eq Config.cfg_admissible (by omega) hsyn)

/-- Settles O15: the codeword is the word shifted by 12 with its entry of `ENC` below. -/
theorem enc12GivesTheCodeword : Obligations.Enc12GivesTheCodeword := by
  intro s h
  rcases enc12Command_cases s with ⟨_, hc⟩ | ⟨hlt, _⟩
  · refine ⟨_, congrArg Host.Outcome.next hc, rfl, ?_⟩
    rw [endCommand_res0, BitVec.toNat_setWidth_of_le (by decide), encode12, mkCode_toNat, BitVec.ofNat_toNat,
      BitVec.toNat_setWidth, Nat.mod_eq_of_lt (by omega)]
  · omega

/-- Settles O16: the operand's upper and lower 12 bits are the data and the parity bits. -/
theorem dec24CorrectsByTheSyndrome : Obligations.Dec24CorrectsByTheSyndrome := by
  intro s d p z h hd hp hz
  have hdata : dataBits (s.arg0.setWidth 24) = d := by rw [hd, dataBits_setWidth]
  have hsyn : syndrome s.syn (s.arg0.setWidth 24) = z := by rw [syndrome, hdata, parityBits_setWidth, ← hp, hz]
  rcases dec24Command_cases s with ⟨_, hc⟩ | ⟨hlt, _⟩
  · rw [decode24, hdata, hsyn] at hc
    exact congrArg Host.Outcome.next hc
  · omega

/-- Settles O23: both closed forms follow the stream, also past the end of their input. -/
theorem repackingFollowsTheBitStream : Obligations.RepackingFollowsTheBitStream :=
  ⟨fun bs k _ _ hj => symbolAt_getLsbD bs k hj, fun ws a _ hj => unpackByte_getLsbD ws a hj⟩

/-- Settles O22: the words that come back are undamaged codewords (O17), each decodes to its symbol (O18), and the
symbols unpack to the bytes they were packed from. -/
theorem encodedBytesDecodeBack : Obligations.EncodedBytesDecodeBack := by
  intro s t u ht hfit hfit3 henc hu hback
  obtain ⟨t', henc', hframe, hbytes, _⟩ := encbWritesTheCodewords s _ _ rfl rfl hfit hfit3
  cases henc.symm.trans henc'
  have harg : u.arg0 = s.arg0 := by rw [hu, hframe]
  have hsyn : u.syn = foldTable Config.cfg.chk := by rw [hu, hframe, ← ht.syn]
  have hcor : u.cor = corTable (foldTable Config.cfg.chk) := by rw [hu, hframe, ← ht.cor]
  have hlength := memReadList_length s.din 0 s.arg0.toNat
  have hread {a : Nat} (ha : a < s.arg0.toNat) := byteAt_memReadList s.din ha
  generalize memReadList s.din 0 s.arg0.toNat = bs at hbytes hlength hread
  have hreceived : ∀ k < nsym s.arg0.toNat,
      (codeword Config.cfg.gen (symbolAt bs k)).toNat = (memRead u.din (3 * k)).toNat * 2 ^ 16 +
        (memRead u.din (3 * k + 1)).toNat * 2 ^ 8 + (memRead u.din (3 * k + 2)).toNat := by
    intro k hk
    obtain ⟨h0, h1, h2⟩ := hbytes k hk _ _ rfl rfl
    rw [hback _ (by omega), hback _ (by omega), hback _ (by omega), h0, h1, h2, codeword, mkCode_toNat_bytes, ht.enc,
      tableGet_foldTable]
  obtain ⟨v, hdec, hvframe, hvbytes, _⟩ := decbWritesTheCorrectedBytes u s.arg0.toNat (nsym s.arg0.toNat)
    (fun k => codeword Config.cfg.gen (symbolAt bs k)) (by rw [harg]) rfl hfit hfit3 hreceived
  refine ⟨v, hdec, ?_, fun a ha => ?_⟩
  · rw [hvframe, hsyn]
    simp [syndrome_codeword Config.cfg_admissible]
  · rw [hvbytes a ha, hsyn, hcor]
    simp only [decode24_codeword Config.cfg_admissible]
    rw [← hlength, ← packSymbols, unpackByte_packSymbols (by omega), hread ha]

end Sys2Proof.Proofs
end

section
/-! PROOFS. The KDF unit's check of the password length and its clearing command (O26, O27). -/

namespace Sys2Proof.Proofs

open Sys2Proof.Machine Sys2Proof.Safety Sys2Proof.Laws

/-- R27: `ERR` and `ERRINFO0..1` belong to the checks and the host; no command's effect reaches them. -/
theorem effect_errors (c : Cfg) (i : Instr) (s : State) :
    (effect c i s).err = s.err ∧ (effect c i s).errInfo0 = s.errInfo0 ∧ (effect c i s).errInfo1 = s.errInfo1 := by
  rw [effect_frame]
  exact ⟨rfl, rfl, rfl⟩

/-- Section 4 sets `PW_MAX` no upper bound: where it is below the largest `PWLEN`, that length is too long. -/
theorem witness_DerivationChecksThePasswordLength (h : Config.cfg.pwMax < 0xFFFF) :
    Config.cfg.pwMax < { State.reset with pwLen := 0xFFFF }.pwLen.toNat := h

/-- Settles O26: a length that fits leads to the derivation's effect, and any other to an error that is not fatal
(R166, R286). -/
theorem derivationChecksThePasswordLength : Obligations.DerivationChecksThePasswordLength := by
  intro m s
  refine ⟨deriveCommand Config.cfg m s, rfl, ?_⟩
  rcases deriveCommand_cases Config.cfg m s with ⟨hfit, hderive⟩ | ⟨hlong, hraise⟩
  · refine ⟨fun hlong => absurd hfit (Nat.not_le.mpr hlong), fun _ => ?_⟩
    rw [hderive]
    exact effect_errors Config.cfg (.kdfDerive m) s
  · refine ⟨fun _ => ?_, fun hfit => absurd hfit (Nat.not_le.mpr hlong)⟩
    exact Host.Outcome.next.inj (next_of_raise hraise rfl)

/-- Settles O27: what `KDF.CLEAR` writes, and `PWBUF` by address. -/
theorem kdfClearForgetsKeysAndPassword : Obligations.KdfClearForgetsKeysAndPassword := by
  intro s
  refine ⟨endCommand (clearKeys Config.cfg s), rfl, rfl, fun a ha => ?_, fun a ha => ?_⟩
  · exact (memRead_clearPwbuf Config.cfg s.pwbuf a).trans (if_pos ha)
  · exact (memRead_clearPwbuf Config.cfg s.pwbuf a).trans (if_neg (Nat.not_lt.mpr ha))

end Sys2Proof.Proofs
end

section
/-! SUPPORT. What `SC.INIT` leaves: the scan by index, the pool by layer, rank and channel (`spec/43_scatter.md` R191 to
R193, R210), and how the scatter unit's commands end without a usable session or with a fatal error (R211, R286). -/

namespace Sys2Proof.Proofs

open Sys2Proof.Machine Sys2Proof.Safety Sys2Proof.Laws

variable {s : State}

/-- R192: the scan runs from the highest index down. -/
theorem scanPixels_descending (pix : Mem 8) (n : Nat) : (scanPixels pix n).Pairwise fun p q => q < p :=
  (List.pairwise_reverse.mpr List.pairwise_lt_range).filter _

/-- R191: the scan finds the available pixels. -/
theorem mem_scanPixels {pix : Mem 8} {n p : Nat} :
    p ∈ scanPixels pix n ↔ p < n ∧ memRead pix (4 * p + 3) = 255 := by
  simp [scanPixels, available]

/-- R192: layer `b` starts at `3·A·b`, and in it the pixel of rank `r` has the entries from `3r` on, one a channel. -/
theorem poolEntries_getElem? {ps : List Nat} {r p ch b : Nat} (hp : ps[r]? = some p) (hc : ch < 3) (hb : b < 4) :
    (poolEntries ps)[b * (3 * ps.length) + 3 * r + ch]? = some (slotAddr p ch b) := by
  obtain ⟨hr, _⟩ := List.getElem?_eq_some_iff.mp hp
  have three (q : Nat) : [slotAddr q 0 b, slotAddr q 1 b, slotAddr q 2 b].length = 3 := rfl
  have hlayer : (poolEntries ps)[3 * ps.length * b + (3 * r + ch)]? = (layerEntries ps b)[3 * r + ch]? := by
    rw [poolEntries, getElem?_flatMap_of_length (layerEntries_length ps) _ _ (by omega), List.getElem?_range hb,
      Option.bind_some]
  rw [Nat.add_assoc, Nat.mul_comm b, hlayer, layerEntries, getElem?_flatMap_of_length three _ _ hc, hp,
    Option.bind_some]
  interval_cases ch <;> rfl

/-- R210: an image within the limits starts a session. -/
theorem exec_scInit_of_fits (h0 : s.arg0.toNat ≤ 0xFFFF) (h1 : s.arg1.toNat ≤ 0xFFFF)
    (hfit : s.arg0.toNat * s.arg1.toNat ≤ Config.cfg.pixMax) :
    exec .scInit s = .next (endCommand (effect Config.cfg .scInit s)) := by
  rcases initCommand_cases Config.cfg s with ⟨_, _, _, hc⟩ | ⟨_, _, hlong, _⟩ | ⟨hwide, _⟩
  · exact congrArg Host.Outcome.next hc
  · exact absurd hfit (Nat.not_le.mpr hlong)
  · omega

/-- R210: `E_OPERAND` reports the larger dimension. -/
theorem maxWord_eq (a b : Word) : maxWord a b = BitVec.ofNat 32 (max a.toNat b.toNat) := by
  unfold maxWord
  split
  next hle => rw [Nat.max_eq_right hle, BitVec.ofNat_toNat, BitVec.setWidth_eq]
  next hlt => rw [Nat.max_eq_left (by omega), BitVec.ofNat_toNat, BitVec.setWidth_eq]

/-- R210: the pixels of an image that `SC.INIT` takes have indices that fit an address word. -/
theorem pixels_le (hfit : s.arg0.toNat * s.arg1.toNat ≤ Config.cfg.pixMax) :
    s.arg0.toNat * s.arg1.toNat ≤ 2 ^ 28 :=
  Nat.le_trans hfit Config.cfg_admissible.pixMax_le

/-- R199: a new session is as large as its pool, and nothing of it is used. -/
theorem freeSpace_startSession (c : Cfg) (seed : Vector Word 4) (pix : Mem 8) {n : Nat} (hn : n ≤ 2 ^ 28)
    (x : Scatter) :
    freeSpace (startSession c seed pix n x) .uniform = 12 * (scanPixels pix n).length ∧
      freeSpace (startSession c seed pix n x) .shaped = 6 * (scanPixels pix n).length := by
  have hlen := scanPixels_length_le pix n
  have htotal : (startSession c seed pix n x).total.toNat = 12 * (scanPixels pix n).length :=
    Nat.mod_eq_of_lt (by omega)
  have hused : (startSession c seed pix n x).used.toNat = 0 := rfl
  constructor
  · show remaining _ = _
    rw [remaining, htotal, hused, Nat.sub_zero]
  · show shapedBudget _ = _
    rw [shapedBudget, htotal, hused]
    omega

/-! ### The session check and the fatal errors -/

/-- R211, R212: without a usable session a request ends with `E_NOSESSION`. -/
theorem raiseNoSession_eq (s : State) :
    (.next (raiseNoSession s) : Result) = .next { s with
      err := 4, errInfo0 := if s.sc.valid then 1 else 0, errInfo1 := if s.sc.fault then 1 else 0
      busy := false, done := true } :=
  next_of_raise rfl rfl

theorem sessionOk_eq_false (h : s.sc.valid = false ∨ s.sc.fault = true) : sessionOk s = false := by
  rw [Bool.eq_false_iff, ne_eq, sessionOk_iff]
  rcases h with h | h <;> simp [h]

/-- R211: in a usable session `SC.FREE` answers. -/
theorem exec_scFree_of_session (hv : s.sc.valid = true) (hf : s.sc.fault = false) (m : Mode) :
    exec (.scFree m) s =
      .next { s with res0 := BitVec.ofNat 32 (freeSpace s.sc m), busy := false, done := true } := by
  rcases freeCommand_cases m s with ⟨_, hc⟩ | ⟨hno, _⟩
  · exact congrArg Host.Outcome.next hc
  · exact absurd ((sessionOk_iff s).mpr ⟨hv, hf⟩) (by simp [hno])

/-- R283, R286: a fatal error marks the session. -/
theorem next_of_fatal {e : CmdError} {i0 i1 : Word} {t : State} (h : t = raise e i0 i1 s) (he : isFatal e = true) :
    (.next t : Result) = .next { s with
      sc := { s.sc with fault := true }
      err := errCode e, errInfo0 := i0, errInfo1 := i1, busy := false, done := true } := by
  rw [h, raise, he, Bool.or_true]

end Sys2Proof.Proofs
end

section
/-! PROOFS. The scan, and the commands that start, measure and end a session, with the errors of the scatter unit (O28,
O29, O30, O31, O32, O36, O41, O43). -/

namespace Sys2Proof.Proofs

open Sys2Proof.Machine Sys2Proof.Safety Sys2Proof.Laws

/-- Settles O28: the scan filters the indices below `n`, listed downward. -/
theorem scanMeetsAvailablePixelsDownward : Obligations.ScanMeetsAvailablePixelsDownward :=
  fun pix n => ⟨scanPixels_descending pix n, fun _ => mem_scanPixels⟩

/-- Settles O29: the pool is written from address 0, layer by layer, and a pixel's index fits an address word. -/
theorem scInitStartsASession : Obligations.ScInitStartsASession := by
  intro s ps h0 h1 hfit hps
  refine ⟨_, exec_scInit_of_fits h0 h1 hfit, by subst hps; rfl, ?_, ?_⟩
  · intro r p ch b hp hc hb
    have hlt : p < 2 ^ 28 :=
      Nat.lt_of_lt_of_le (lt_of_mem_scanPixels (hps ▸ List.mem_of_getElem? hp)) (pixels_le hfit)
    rw [← slotAddr_toNat p ch b hlt hc hb]
    congr 1
    calc memRead (memWriteList s.sc.pool 0 (poolEntries (scanPixels s.pix (pixelCount s)))) _
        = (poolEntries ps)[b * (3 * ps.length) + 3 * r + ch]?.getD _ := by
          rw [memRead_memWriteList_zero, hps]; rfl
      _ = slotAddr p ch b := by rw [poolEntries_getElem? hp hc hb, Option.getD_some]
  · intro a ha
    exact memRead_memWriteList_past s.sc.pool (by rw [poolEntries_length, pixelCount, ← hps]; exact ha)

/-- Settles O30: the check of the dimensions comes first, and neither error is fatal. -/
theorem scInitErrors : Obligations.ScInitErrors := by
  intro s
  refine ⟨fun hwide => ?_, fun h0 h1 hmany => ?_⟩
  · rcases initCommand_cases Config.cfg s with ⟨_, _, _, _⟩ | ⟨_, _, _, _⟩ | ⟨_, hc⟩
    · omega
    · omega
    · rw [maxWord_eq] at hc
      exact next_of_raise hc rfl
  · rcases initCommand_cases Config.cfg s with ⟨_, _, hfit, _⟩ | ⟨_, _, _, hc⟩ | ⟨hwide, _⟩
    · exact absurd hfit (Nat.not_le.mpr hmany)
    · exact next_of_raise hc rfl
    · omega

/-- Settles O31: the four cells of the table of R199. -/
theorem scFreeReportsFreeSlots : Obligations.ScFreeReportsFreeSlots := by
  intro s hv hf
  have answer := exec_scFree_of_session hv hf
  refine ⟨fun hm => ⟨?_, ?_⟩, fun hm => ⟨?_, ?_⟩⟩
  · rw [answer, freeSpace_uniform hm, remaining]
  · simp only [answer, freeSpace, hm, shapedBudget]
  · simp only [answer, freeSpace, hm]; rfl
  · simp only [answer, freeSpace, hm, quotaSum]

/-- Settles O32: both commands check the session before anything else. -/
theorem noSessionEndsInENoSession : Obligations.NoSessionEndsInENoSession := by
  intro m s h i hi
  have hok := sessionOk_eq_false h
  rw [← raiseNoSession_eq]
  simp only [List.mem_cons, List.not_mem_nil, or_false] at hi
  rcases hi with rfl | rfl
  · show Host.Outcome.next (freeCommand m s) = _
    rw [freeCommand, hok]; rfl
  · show Host.Outcome.next (genCommand Config.cfg m s) = _
    rw [genCommand, hok]; rfl

/-- Settles O36: the cases exclude one another, so the first failing check is the one whose case is at hand. -/
theorem refusedRequestReportsTheFirstFailingCheck : Obligations.RefusedRequestReportsTheFirstFailingCheck := by
  intro m s hv hf
  have hok := (sessionOk_iff s).mpr ⟨hv, hf⟩
  have hregress : regresses m s.sc = true ↔ m = .uniform ∧ s.sc.mode = .shaped := by simp [regresses]
  rcases genCommand_cases Config.cfg m s with
    ⟨hno, _⟩ | ⟨_, hlong, hc⟩ | ⟨_, hlen, hback, hc⟩ | ⟨_, hlen, hforward, hfull, hc⟩ | ⟨_, hlen, hforward, hfree, _⟩
  · simp [hok] at hno
  · exact ⟨fun _ => next_of_raise hc rfl, fun _ => by omega, fun _ => by omega⟩
  · exact ⟨fun _ => by omega, fun _ _ _ => next_of_fatal hc rfl, fun _ hnot => absurd (hregress.mp hback) hnot⟩
  · refine ⟨fun _ => by omega, fun _ hm hs => ?_, fun _ _ _ => next_of_fatal hc rfl⟩
    simp [hregress.mpr ⟨hm, hs⟩] at hforward
  · refine ⟨fun _ => by omega, fun _ hm hs => ?_, fun _ _ _ => by omega⟩
    simp [hregress.mpr ⟨hm, hs⟩] at hforward

/-- Settles O41: nothing is used right after `SC.INIT`, and half of `12·A` is `6·A`. -/
theorem shapedCapacityIsHalfAtTheStart : Obligations.ShapedCapacityIsHalfAtTheStart := by
  intro s h0 h1 hfit
  obtain ⟨huniform, hshaped⟩ := freeSpace_startSession Config.cfg s.seed s.pix (pixels_le hfit) s.sc
  refine ⟨_, exec_scInit_of_fits h0 h1 hfit, ?_, huniform⟩
  calc 2 * freeSpace (startSession Config.cfg s.seed s.pix (s.arg0.toNat * s.arg1.toNat) s.sc) .shaped
      = 12 * (scanPixels s.pix (s.arg0.toNat * s.arg1.toNat)).length := by rw [hshaped]; omega
    _ = freeSpace (startSession Config.cfg s.seed s.pix (s.arg0.toNat * s.arg1.toNat) s.sc) .uniform := huniform.symm

/-- Settles O43: `SC.END` leaves the registers of a block without a session. -/
theorem scEndDiscardsTheSession : Obligations.ScEndDiscardsTheSession :=
  fun s => show execScEnd s = .next (endCommand { s with sc := endSession s.sc }) from rfl

end Sys2Proof.Proofs
end

section
/-! SUPPORT. The draws of a request (`spec/43_scatter.md` R198, R206 to R209, R212): a request of one address, the header
region, the room left after a request, and the stock of addresses it takes from. -/

namespace Sys2Proof.Proofs

open Sys2Proof.Machine Sys2Proof.Safety Sys2Proof.Laws

variable {x : Scatter} {s : State} {m : Mode}

/-! ### A request of one address -/

/-- R212: a granted request of one address is one draw. -/
theorem exec_scGen_one (h : Grantable m s) (h1 : s.arg0 = 1) :
    exec (.scGen m) s = .next { s with
      sc := (drawSlot Config.cfg m s.sc).1, aout := memWrite s.aout 0 (drawSlot Config.cfg m s.sc).2
      res0 := 1, busy := false, done := true } := by
  rw [exec_scGen_of_grantable h, issueSlots, h1]
  rfl

/-- R206, R208: a session in Shaped mode gives a Shaped draw. -/
theorem drawSlot_of_shaped (c : Cfg) (m : Mode) (hm : x.mode = .shaped) : drawSlot c m x = shapedDraw c x := by
  simp [drawSlot, switchDue, hm]

/-- R206: with a sample at hand nothing is refilled. -/
theorem ensureLookahead_of_lt (c : Cfg) (h : x.laIdx < laLen) : ensureLookahead c x = x :=
  if_neg (Nat.ne_of_lt h)

/-- R206: the refill, by its samples. -/
theorem ensureLookahead_of_used (c : Cfg) (h : x.laIdx = laLen) {la : List (Fin 4)} (hlen : la.length = laLen)
    (hla : ∀ t < laLen, la.getD t 0 = bucketOfSample x (c.prngStep (prngAfter c x.prng t)).2) :
    ensureLookahead c x = { x with prng := prngAfter c x.prng laLen, la := la, laIdx := 0 } := by
  have hsamples : (refill c x).la = la := by
    refine List.ext_getElem ((refill_la_length c x).trans hlen.symm) fun t ht ht' => ?_
    have hlt : t < laLen := hlen ▸ ht'
    rw [← List.getD_eq_getElem _ 0, ← List.getD_eq_getElem _ 0, hla t hlt, refill_la_getD c x t hlt]
  rw [ensureLookahead, if_pos h, ← hsamples, refill, drawMany_eq]

/-- R206, R207: the Shaped draw of a session whose lookahead is at sample `i` of `la` takes from the first bucket from
that sample's on that has quota left. -/
theorem shapedDraw_of_lookahead {c : Cfg} {g : Prng} {la : List (Fin 4)} {i d : Nat}
    (hlook : ensureLookahead c x = { x with prng := g, la := la, laIdx := i }) (hd : d < 4)
    (hquota : x.rq[la.getD i 0 + Fin.ofNat 4 d] ≠ 0)
    (hnone : ∀ e < d, x.rq[la.getD i 0 + Fin.ofNat 4 e] = 0) :
    shapedDraw c x = bucketDraw c (la.getD i 0 + Fin.ofNat 4 d) { x with prng := g, la := la, laIdx := i + 1 } := by
  have hbucket : selectedBucket { x with prng := g, la := la, laIdx := i } = la.getD i 0 + Fin.ofNat 4 d :=
    bucketWithQuota_eq x.rq d 4 (la.getD i 0) hd hquota hnone
  rw [shapedDraw_eq, sampled, hlook, hbucket]

/-! ### Requests of one mode -/

/-- R200: Uniform requests do not switch. -/
theorem drawSlots_uniform_mode (c : Cfg) (n : Nat) (hm : x.mode = .uniform) :
    (drawSlots c .uniform n x).1.mode = .uniform := by
  induction n generalizing x with
  | zero => exact hm
  | succ n ih => exact ih (by rw [drawSlot_uniform c hm]; exact hm)

/-- R201: in the header region a Shaped draw is a Uniform one. -/
theorem drawSlot_header (c : Cfg) (hm : x.mode = .uniform) (hu : x.used.toNat < headerSlots) :
    drawSlot c .shaped x = drawSlot c .uniform x := by
  simp [drawSlot, switchDue, hm, Nat.not_le.mpr hu]

/-- R201: a request that ends in the header region is served as a Uniform one. -/
theorem drawSlots_header (c : Cfg) (n : Nat) (hm : x.mode = .uniform) (hu : x.used.toNat + n ≤ headerSlots) :
    drawSlots c .shaped n x = drawSlots c .uniform n x := by
  induction n generalizing x with
  | zero => rfl
  | succ n ih =>
    have hused : (drawSlot c .uniform x).1.used.toNat = x.used.toNat + 1 := by
      rw [(drawSlot_counters c .uniform x).1]
      exact BitVec.toNat_add_of_lt (show x.used.toNat + 1 < 2 ^ 32 by simp only [headerSlots] at hu; omega)
    simp only [drawSlots]
    rw [drawSlot_header c hm (by omega), ih (by rw [drawSlot_uniform c hm]; exact hm) (by omega)]

/-- R209 (b): a request takes its length from the room in its mode. -/
theorem freeSpace_drawSlots (c : Cfg) (n : Nat) (h : SessionSound x) (hf : n ≤ freeSpace x m) :
    freeSpace (drawSlots c m n x).1 m + n = freeSpace x m := by
  induction n generalizing x with
  | zero => rfl
  | succ n ih =>
    obtain ⟨hsound, _⟩ := drawSlot_sound c m h (by omega)
    have hroom := freeSpace_drawSlot c m h (by omega)
    have hrest := ih hsound (by omega)
    simp only [drawSlots]
    omega

/-- R212: the addresses of a granted request stand in `AOUT` in issue order. -/
theorem issued_issueSlots (c : Cfg) (m : Mode) (s : State) :
    issued s.arg0.toNat (endCommand (issueSlots c m s)) = (drawSlots c m s.arg0.toNat s.sc).2 := by
  have hlen := drawSlots_length c m s.arg0.toNat s.sc
  have hread := memReadList_memWriteList s.aout 0 (drawSlots c m s.arg0.toNat s.sc).2 0 s.arg0.toNat (by omega)
  rwa [List.drop_zero, List.take_of_length_le (by omega)] at hread

/-! ### The stock of addresses -/

/-- R202: the switch keeps the stock, up to order. -/
theorem switchToShaped_issuable (h : SessionSound x) (hm : x.mode = .uniform) :
    (issuable (switchToShaped x)).Perm (issuable x) := by
  have hstock : issuable x = liveWindow x := by simp only [issuable, hm]
  rw [(partition_switchToShaped h hm).issuable (by rw [switchToShaped_frame]), hstock]
  exact switchToShaped_window x

/-- R198: a Uniform draw takes its address from the stock. -/
theorem uniformDraw_issuable (c : Cfg) (h : SessionSound x) (hm : x.mode = .uniform) (hr : 1 ≤ remaining x) :
    ((uniformDraw c x).2 :: issuable (uniformDraw c x).1).Perm (issuable x) := by
  have hused := used_add_one h hr
  have hlt := (x.used + 1).isLt
  have hm' : (uniformDraw c x).1.mode = .uniform := hm
  simp only [issuable, hm, hm']
  exact uniformDraw_perm c x hr (by omega)

/-- R206 to R208: a Shaped draw takes its address from the stock. -/
theorem shapedDraw_issuable (c : Cfg) (h : SessionSound x) (hm : x.mode = .shaped) (hb : 1 ≤ shapedBudget x) :
    ((shapedDraw c x).2 :: issuable (shapedDraw c x).1).Perm (issuable x) := by
  have hs := sampled_sound c h
  have hms : (sampled c x).mode = .shaped := by rw [sampled_frame]; exact hm
  have hstock : issuable (sampled c x) = issuable x := by rw [sampled_frame]; rfl
  have hquota : (ensureLookahead c x).rq[selectedBucket (ensureLookahead c x)] ≠ 0 := by
    refine selectedBucket_quota ?_
    rw [ensureLookahead_frame]
    exact (h.shaped_budget hm).symm ▸ hb
  have hlive : 1 ≤ (sampled c x).live[selectedBucket (ensureLookahead c x)].toNat :=
    Nat.le_trans (Nat.one_le_iff_ne_zero.mpr fun hz => hquota (BitVec.eq_of_toNat_eq hz)) (hs.shaped_quota hms _)
  rw [shapedDraw_eq, ← hstock]
  exact bucketDraw_issuable_perm c (sampled c x) _ hms hlive (hs.shaped_order hms)

/-- R209 (a): a draw takes its address from the stock, across the switch too. -/
theorem drawSlot_issuable (c : Cfg) (m : Mode) (h : SessionSound x) (hf : 1 ≤ freeSpace x m) :
    ((drawSlot c m x).2 :: issuable (drawSlot c m x).1).Perm (issuable x) := by
  rcases drawSlot_cases c m x with ⟨hdue, hd⟩ | ⟨_, hm, hd⟩ | ⟨_, hm, hd⟩
  · obtain ⟨rfl, hm, hheader⟩ := (switchDue_iff m x).mp hdue
    have hbudget : 1 ≤ shapedBudget (switchToShaped x) := by
      rw [switchToShaped_frame]
      exact freeSpace_shaped h ▸ hf
    rw [hd]
    exact (shapedDraw_issuable c (switchToShaped_sound h hm hheader) (by rw [switchToShaped_frame]) hbudget).trans
      (switchToShaped_issuable h hm)
  · rw [hd]
    exact uniformDraw_issuable c h hm (Nat.le_trans hf (freeSpace_le_remaining h m))
  · rw [hd]
    cases m with
    | uniform => simp [freeSpace, hm] at hf
    | shaped => exact shapedDraw_issuable c h hm (freeSpace_shaped h ▸ hf)

/-- R209 (a): the addresses of a request and the stock after it are together the stock before it. -/
theorem drawSlots_issuable (c : Cfg) (m : Mode) (n : Nat) (h : SessionSound x) (hf : n ≤ freeSpace x m) :
    ((drawSlots c m n x).2 ++ issuable (drawSlots c m n x).1).Perm (issuable x) := by
  induction n generalizing x with
  | zero => exact List.Perm.refl _
  | succ n ih =>
    obtain ⟨hsound, _⟩ := drawSlot_sound c m h (by omega)
    have hroom := freeSpace_drawSlot c m h (by omega)
    exact ((ih hsound (by omega)).cons _).trans (drawSlot_issuable c m h (by omega))

/-! ### Requests that are granted -/

/-- R212: of a granted request every shorter one is granted too. -/
theorem grantable_shorter {n1 n : Word} (h : Grantable m { s with arg0 := n }) (hle : n1.toNat ≤ n.toNat) :
    Grantable m { s with arg0 := n1 } :=
  { h with
    length := Nat.le_trans hle h.length
    capacity := Nat.le_trans hle h.capacity }

/-- R209 (d): after a granted request the rest of the room is granted in the same mode. -/
theorem grantable_after (hs : SessionSound s.sc) (h : Grantable m s) {n : Word}
    (hlen : n.toNat ≤ Config.cfg.aoutMax) (hroom : s.arg0.toNat + n.toNat ≤ freeSpace s.sc m) :
    Grantable m { endCommand (issueSlots Config.cfg m s) with arg0 := n } := by
  obtain ⟨⟨hvalid, hfault, _, _⟩, _⟩ := drawSlots_sameSession Config.cfg m s.arg0.toNat s.sc
  have hfree := freeSpace_drawSlots Config.cfg s.arg0.toNat hs h.capacity
  exact
    { valid := hvalid.trans h.valid
      unfaulted := hfault.trans h.unfaulted
      length := hlen
      forward := by
        rintro ⟨rfl, hshaped⟩
        cases hm : s.sc.mode with
        | shaped => exact h.forward ⟨rfl, hm⟩
        | uniform =>
          have hkept := drawSlots_uniform_mode Config.cfg s.arg0.toNat hm
          exact absurd (hshaped.symm.trans hkept) (by decide)
      capacity := show n.toNat ≤ freeSpace (drawSlots Config.cfg m s.arg0.toNat s.sc).1 m by omega }

end Sys2Proof.Proofs
end

section
/-! PROOFS. What the draws of a granted request do (O34, O35, O37, O38, O39, O40). -/

namespace Sys2Proof.Proofs

open Sys2Proof.Machine Sys2Proof.Safety Sys2Proof.Laws

/-- Settles O34: outside the header region or in it, a Uniform request of one address is one Uniform draw. -/
theorem uniformDrawTakesTheOffsetPosition : Obligations.UniformDrawTakesTheOffsetPosition := by
  intro s rem idx hg hm h1 hrem hidx
  subst hrem hidx
  refine ⟨_, exec_scGen_one hg h1, ?_⟩
  rw [drawSlot_uniform Config.cfg hm]
  obtain ⟨haddress, haout⟩ := memWrite_spec s.aout 0 _
  obtain ⟨htail, hpool⟩ := memWrite_spec s.sc.pool _ _
  exact ⟨rfl, haddress, haout, htail, hpool⟩

/-- Settles O35: the lookahead, refilled or not, gives the sample, and the walk over the buckets ends at the first with
quota left. -/
theorem shapedDrawTakesFromTheSelectedBucket : Obligations.ShapedDrawTakesFromTheSelectedBucket := by
  intro s la g k0 k i d base lv idx hg hm h1 hlookahead hk0 hd hk hquota hnone _ hbase hlv hidx
  have hlook : ensureLookahead Config.cfg s.sc = { s.sc with prng := g, la := la, laIdx := i } := by
    rcases hlookahead with ⟨hlt, rfl, rfl, rfl⟩ | ⟨hused, hlen, rfl, rfl, hsamples⟩
    · exact ensureLookahead_of_lt Config.cfg hlt
    · refine ensureLookahead_of_used Config.cfg hused hlen fun t ht => Fin.ext ?_
      rw [hsamples t ht _ rfl, bucketOfSample_val, quotaSum]
  subst hk0 hk hbase hlv hidx
  refine ⟨_, exec_scGen_one hg h1, ?_⟩
  rw [drawSlot_of_shaped Config.cfg .shaped hm, shapedDraw_of_lookahead hlook hd hquota hnone]
  obtain ⟨haddress, haout⟩ := memWrite_spec s.aout 0 _
  obtain ⟨htail, hpool⟩ := memWrite_spec s.sc.pool _ _
  exact ⟨rfl, haddress, haout, htail, hpool⟩

/-- Settles O37: no draw of the request finds the cursor at slot 264, so none switches. -/
theorem headerRegionIsAlwaysUniform : Obligations.HeaderRegionIsAlwaysUniform := by
  intro s hg hm hend
  have hroom : s.arg0.toNat ≤ freeSpace s.sc .uniform := by
    have hshaped : freeSpace s.sc .shaped = shapedBudget s.sc := by simp only [freeSpace, hm]
    rw [freeSpace_uniform hm]
    exact Nat.le_trans (hshaped ▸ hg.capacity) (shapedBudget_le_remaining s.sc)
  have huniform : Grantable .uniform s :=
    { hg with
      forward := fun h => absurd (hm.symm.trans h.2) (by decide)
      capacity := hroom }
  have hsame : issueSlots Config.cfg .shaped s = issueSlots Config.cfg .uniform s := by
    simp only [issueSlots, drawSlots_header Config.cfg s.arg0.toNat hm hend]
  exact ⟨_, (exec_scGen_of_grantable hg).trans (by rw [hsame]), exec_scGen_of_grantable huniform,
    drawSlots_uniform_mode Config.cfg s.arg0.toNat hm⟩

/-- Settles O38: drawing `n1 + n2` times is drawing `n1` times and then `n2` times. -/
theorem splitRequestsIssueTheSameAddresses : Obligations.SplitRequestsIssueTheSameAddresses := by
  intro m s n1 n2 hs hsum hg
  have hlen : (n1 + n2).toNat ≤ Config.cfg.aoutMax := hg.length
  have hroom : (n1 + n2).toNat ≤ freeSpace s.sc m := hg.capacity
  have hg1 : Grantable m { s with arg0 := n1 } := grantable_shorter hg (by omega)
  have hg2 := grantable_after (s := { s with arg0 := n1 }) hs hg1 (n := n2) (by omega)
    (show n1.toNat + n2.toNat ≤ freeSpace s.sc m by omega)
  have hsplit := drawSlots_add Config.cfg m n1.toNat n2.toNat s.sc
  rw [← hsum] at hsplit
  refine ⟨_, _, _, exec_scGen_of_grantable hg, exec_scGen_of_grantable hg1, exec_scGen_of_grantable hg2, rfl, ?_, ?_⟩
  · exact (congrArg Prod.fst hsplit).symm
  · rw [issued_issueSlots Config.cfg m { s with arg0 := n1 + n2 }, issued_issueSlots Config.cfg m { s with arg0 := n1 },
      issued_issueSlots Config.cfg m { endCommand (issueSlots Config.cfg m { s with arg0 := n1 }) with arg0 := n2 }]
    exact congrArg Prod.snd hsplit

/-- Settles O39: what is issued and what stays are together the stock, which names no address twice. -/
theorem issuedAddressesNeverRepeat : Obligations.IssuedAddressesNeverRepeat := by
  intro m s hs hg
  have hperm := drawSlots_issuable Config.cfg m s.arg0.toNat hs hg.capacity
  obtain ⟨hnodup, _, hapart⟩ := List.nodup_append.mp (hperm.nodup_iff.mpr hs.distinct)
  refine ⟨_, exec_scGen_of_grantable hg, ?_, ?_, fun a ha => hperm.subset (List.mem_append_right _ ha)⟩
  · rwa [issued_issueSlots]
  · rw [issued_issueSlots]
    exact fun a ha => ⟨hperm.subset (List.mem_append_left _ ha), fun hstays => hapart a ha a hstays rfl⟩

/-- Settles O40: each draw takes one from the room. -/
theorem freeSpaceFallsByTheNumberIssued : Obligations.FreeSpaceFallsByTheNumberIssued :=
  fun _ s hs hg =>
    ⟨_, exec_scGen_of_grantable hg, freeSpace_drawSlots Config.cfg s.arg0.toNat hs hg.capacity⟩

end Sys2Proof.Proofs
end

section
/-! SUPPORT. The switch by its two ways (`spec/43_scatter.md` R202 to R205): where the sort and the regions put the four
buckets, the quotas as numbers, and the request that causes the switch. -/

namespace Sys2Proof.Proofs

open Sys2Proof.Machine Sys2Proof.Safety Sys2Proof.Laws

variable {x : Scatter}

/-! ### The layers of a list -/

theorem layerCount_eq_countP (ws : List Word) (k : Nat) : layerCount ws k = ws.countP fun a => layerOf a == k :=
  List.countP_eq_length_filter.symm

/-- The entries below layer `k + 1` are those below layer `k` and those of layer `k`. -/
theorem countP_layerOf_lt_succ (ws : List Word) (k : Nat) :
    ws.countP (fun a => decide (layerOf a < k + 1)) =
      ws.countP (fun a => decide (layerOf a < k)) + layerCount ws k := by
  rw [layerCount_eq_countP]
  induction ws with
  | nil => rfl
  | cons a ws ih =>
    simp only [List.countP_cons, ih, decide_eq_true_eq, beq_iff_eq]
    split <;> split <;> split <;> omega

/-- R203: the layers below `k`, one after the other, hold the entries below layer `k`. -/
theorem length_layersBelow (ws : List Word) (k : Nat) :
    ((List.range k).flatMap (ofLayer ws)).length = ws.countP fun a => decide (layerOf a < k) := by
  induction k with
  | zero => simp
  | succ k ih =>
    rw [List.range_succ, List.flatMap_append, List.length_append, ih, countP_layerOf_lt_succ, List.flatMap_singleton]
    rfl

/-- R203: layer `k` of the sorted list starts after the entries below it. -/
theorem sortByLayer_layer (ws : List Word) {k : Nat} (hk : k < 4) :
    ((sortByLayer ws).drop (ws.countP fun a => decide (layerOf a < k))).take (layerCount ws k) = ofLayer ws k := by
  have hsplit : List.range 4 = List.range k ++ k :: List.range' (k + 1) (3 - k) := by
    interval_cases k <;> rfl
  rw [sortByLayer, hsplit, List.flatMap_append, List.flatMap_cons, ← length_layersBelow, List.drop_left, layerCount,
    List.take_left]

/-! ### Small pools (R203) -/

theorem switchToShaped_of_small (h : x.avail.toNat < sortPixels) :
    (switchToShaped x).base = (sortSwitch x).base ∧ (switchToShaped x).live = (sortSwitch x).live ∧
      (switchToShaped x).pool = memWriteList x.pool 0 (sortByLayer (liveWindow x)) := by
  obtain ⟨y, ⟨_, rfl⟩ | ⟨hlarge, _⟩, he⟩ := switchToShaped_eq x
  · rw [he]; exact ⟨rfl, rfl, rfl⟩
  · omega

/-- A count in the live window fits a register. -/
theorem toNat_ofNat_window {n : Nat} (h : n ≤ (liveWindow x).length) : (BitVec.ofNat 32 n).toNat = n := by
  have hwindow : (liveWindow x).length = x.total.toNat - x.used.toNat := memReadList_length _ _ _
  have htotal := x.total.isLt
  rw [BitVec.toNat_ofNat]
  exact Nat.mod_eq_of_lt (by omega)

theorem sortSwitch_live (x : Scatter) (k : Fin 4) :
    (sortSwitch x).live[k].toNat = layerCount (liveWindow x) k := by
  have hlive : (sortSwitch x).live[k] = BitVec.ofNat 32 (layerCount (liveWindow x) k) := by
    fin_cases k <;> rfl
  rw [hlive]
  exact toNat_ofNat_window (List.length_filter_le _ _)

theorem sortSwitch_base (x : Scatter) (k : Fin 4) :
    (sortSwitch x).base[k].toNat = (liveWindow x).countP fun a => decide (layerOf a < k.val) := by
  have hbase : (sortSwitch x).base[k] =
      BitVec.ofNat 32 ((liveWindow x).countP fun a => decide (layerOf a < k.val)) := by
    rw [← length_layersBelow]
    fin_cases k <;> simp [sortSwitch, layerCount, List.range_succ, Nat.add_assoc]
  rw [hbase]
  exact toNat_ofNat_window List.countP_le_length

/-- R203: the buckets of a small pool are the layers of the live window, in their order. -/
theorem switchToShaped_layer (h : x.avail.toNat < sortPixels) (k : Fin 4) :
    (switchToShaped x).live[k].toNat = (liveWindow x).countP (fun a => layerOf a == k.val) ∧
      (switchToShaped x).base[k].toNat = (liveWindow x).countP (fun a => decide (layerOf a < k.val)) ∧
      memReadList (switchToShaped x).pool (switchToShaped x).base[k].toNat (switchToShaped x).live[k].toNat =
        ofLayer (liveWindow x) k := by
  obtain ⟨hbase, hlive, hpool⟩ := switchToShaped_of_small h
  rw [hbase, hlive, hpool, sortSwitch_base, sortSwitch_live]
  refine ⟨layerCount_eq_countP _ _, rfl, ?_⟩
  have hend := countP_layerOf_lt_succ (liveWindow x) k
  have hle : (liveWindow x).countP (fun a => decide (layerOf a < k.val + 1)) ≤ (liveWindow x).length :=
    List.countP_le_length
  have hread := memReadList_memWriteList x.pool 0 (sortByLayer (liveWindow x))
    ((liveWindow x).countP fun a => decide (layerOf a < k.val)) (layerCount (liveWindow x) k)
    (by rw [(sortByLayer_perm _).length_eq]; omega)
  rw [Nat.zero_add, sortByLayer_layer _ k.isLt] at hread
  exact hread

/-- R203: the sort stays inside the live window. -/
theorem switchToShaped_pool_past (h : x.avail.toNat < sortPixels) {a : Nat} (ha : remaining x ≤ a) :
    memRead (switchToShaped x).pool a = memRead x.pool a := by
  obtain ⟨_, _, hpool⟩ := switchToShaped_of_small h
  rw [hpool]
  refine memRead_memWriteList_past x.pool ?_
  rw [(sortByLayer_perm _).length_eq, liveWindow, memReadList_length]
  exact ha

/-! ### Large pools (R204) -/

theorem switchToShaped_of_large (h : sortPixels ≤ x.avail.toNat) :
    (switchToShaped x).base = (positionSwitch x).base ∧ (switchToShaped x).live = (positionSwitch x).live ∧
      (switchToShaped x).pool = x.pool := by
  obtain ⟨y, ⟨hsmall, _⟩ | ⟨_, rfl⟩, he⟩ := switchToShaped_eq x
  · omega
  · rw [he]; exact ⟨rfl, rfl, rfl⟩

/-- R204: the buckets of a large pool are what is left of the layers' regions. -/
theorem switchToShaped_region (h : sortPixels ≤ x.avail.toNat) (k : Fin 4) :
    (switchToShaped x).base[k].toNat = min (k.val * (3 * x.avail.toNat)) (remaining x) ∧
      (switchToShaped x).live[k].toNat = min ((k.val + 1) * (3 * x.avail.toNat)) (remaining x) -
        min (k.val * (3 * x.avail.toNat)) (remaining x) := by
  obtain ⟨hbase, hlive, _⟩ := switchToShaped_of_large h
  have hwindow : (liveWindow x).length = remaining x := memReadList_length _ _ _
  have cut (j : Nat) : min (j * (3 * x.avail.toNat)) (remaining x) ≤ (liveWindow x).length :=
    hwindow ▸ Nat.min_le_right _ _
  constructor
  · rw [hbase, ← toNat_ofNat_window (cut k)]
    simp [positionSwitch, positionBase]
  · rw [hlive, ← toNat_ofNat_window (Nat.le_trans (Nat.sub_le _ _) (cut (k + 1)))]
    simp [positionSwitch, positionBase]

/-! ### The quotas (R205) -/

/-- A weight is at most a million, so that a share of a live count fits a register. -/
theorem toNat_quotaOf {weight : Nat} (hw : weight ≤ 1000000) (live : Word) (rest : Nat) :
    (BitVec.ofNat 32 (quotaOf weight live.toNat rest)).toNat = min (weight * live.toNat / 1000000) rest := by
  have hshare : weight * live.toNat / 1000000 ≤ live.toNat :=
    Nat.div_le_of_le_mul (Nat.mul_le_mul_right _ hw)
  have hlive := live.isLt
  exact Nat.mod_eq_of_lt (show min (weight * live.toNat / 1000000) rest < 2 ^ 32 by omega)

/-- R205: each quota, as a number, from the ones granted before it. -/
theorem quotas_toNat (live : Vector Word 4) (b : Nat) :
    (quotas live b)[1].toNat = min (665272 * live[1].toNat / 1000000) b ∧
      (quotas live b)[2].toNat = min (382584 * live[2].toNat / 1000000) (b - (quotas live b)[1].toNat) ∧
      (quotas live b)[3].toNat =
        min (152144 * live[3].toNat / 1000000) (b - (quotas live b)[1].toNat - (quotas live b)[2].toNat) ∧
      (quotas live b)[0].toNat = min live[0].toNat
        (b - (quotas live b)[1].toNat - (quotas live b)[2].toNat - (quotas live b)[3].toNat) := by
  have h1 : (quotas live b)[1].toNat = min (665272 * live[1].toNat / 1000000) b :=
    toNat_quotaOf (by decide) live[1] b
  have h2 : (quotas live b)[2].toNat =
      min (382584 * live[2].toNat / 1000000) (b - (quotas live b)[1].toNat) := by
    rw [h1]
    exact toNat_quotaOf (by decide) live[2] _
  have h3 : (quotas live b)[3].toNat =
      min (152144 * live[3].toNat / 1000000) (b - (quotas live b)[1].toNat - (quotas live b)[2].toNat) := by
    rw [h2, h1]
    exact toNat_quotaOf (by decide) live[3] _
  refine ⟨h1, h2, h3, ?_⟩
  have hlive := live[0].isLt
  rw [h3, h2, h1]
  exact Nat.mod_eq_of_lt (Nat.lt_of_le_of_lt (Nat.min_le_left _ _) hlive)

theorem shapedBudget_switchToShaped (x : Scatter) : shapedBudget (switchToShaped x) = shapedBudget x := by
  rw [switchToShaped_frame]
  rfl

/-! ### The request that causes the switch (R200) -/

/-- R200: the first draw of a Shaped request past the header region is a draw of the switched session. -/
theorem drawSlot_switch (c : Cfg) (hm : x.mode = .uniform) (hu : headerSlots ≤ x.used.toNat) :
    drawSlot c .shaped x = drawSlot c .shaped (switchToShaped x) := by
  have hdue : switchDue .shaped x = true := (switchDue_iff _ x).mpr ⟨rfl, hm, hu⟩
  rw [drawSlot_of_shaped c .shaped (show (switchToShaped x).mode = .shaped by rw [switchToShaped_frame])]
  rcases drawSlot_cases c .shaped x with ⟨_, hd⟩ | ⟨hno, _⟩ | ⟨hno, _⟩
  · exact hd
  · exact absurd (hdue.symm.trans hno) (by decide)
  · exact absurd (hdue.symm.trans hno) (by decide)

theorem drawSlots_switch (c : Cfg) {n : Nat} (hn : 1 ≤ n) (hm : x.mode = .uniform)
    (hu : headerSlots ≤ x.used.toNat) : drawSlots c .shaped n x = drawSlots c .shaped n (switchToShaped x) := by
  obtain ⟨k, rfl⟩ : ∃ k, n = k + 1 := ⟨n - 1, by omega⟩
  rw [drawSlots, drawSlots, drawSlot_switch c hm hu]

/-- R199: the switch keeps the room for Shaped requests, so that what was granted is granted still. -/
theorem grantable_switch {s : State} (hs : SessionSound s.sc) (hm : s.sc.mode = .uniform)
    (hu : headerSlots ≤ s.sc.used.toNat) (hg : Grantable .shaped s) :
    Grantable .shaped { s with sc := switchToShaped s.sc } where
  valid := by rw [switchToShaped_frame]; exact hg.valid
  unfaulted := by rw [switchToShaped_frame]; exact hg.unfaulted
  length := hg.length
  forward := fun h => absurd h.1 (by decide)
  capacity := by
    show s.arg0.toNat ≤ freeSpace (switchToShaped s.sc) .shaped
    rw [freeSpace_shaped (switchToShaped_sound hs hm hu), shapedBudget_switchToShaped, ← freeSpace_shaped hs]
    exact hg.capacity

/-- R200, R202: a Shaped request past the header region answers what it answers on the switched session. -/
theorem exec_scGen_switch {s : State} (hs : SessionSound s.sc) (hm : s.sc.mode = .uniform)
    (hu : headerSlots ≤ s.sc.used.toNat) (hg : Grantable .shaped s) (hn : 1 ≤ s.arg0.toNat) :
    exec (.scGen .shaped) s = exec (.scGen .shaped) { s with sc := switchToShaped s.sc } := by
  rw [exec_scGen_of_grantable hg, exec_scGen_of_grantable (grantable_switch hs hm hu hg)]
  simp only [issueSlots, drawSlots_switch Config.cfg hn hm hu]

end Sys2Proof.Proofs
end

section
/-! PROOFS. The switch (O42). -/

namespace Sys2Proof.Proofs

open Sys2Proof.Machine Sys2Proof.Safety Sys2Proof.Laws

/-- Settles O42: the small pool by the sort, the large one by its regions, the quotas from the live counts, and their sum
from the books of the switched session. -/
theorem switchPartitionsTheLiveWindow : Obligations.SwitchPartitionsTheLiveWindow := by
  intro x y A L B hs hm hu hy hA hL hB
  subst hy hA hL hB
  have hsound := switchToShaped_sound hs hm hu
  have hmode : (switchToShaped x).mode = .shaped := by rw [switchToShaped_frame]
  have hrq : (switchToShaped x).rq = quotas (switchToShaped x).live (shapedBudget x) :=
    congrArg Scatter.rq (switchToShaped_frame x)
  have hsum : quotaSum (switchToShaped x) = shapedBudget x :=
    (hsound.shaped_budget hmode).trans (shapedBudget_switchToShaped x)
  obtain ⟨hrq1, hrq2, hrq3, hrq0⟩ := quotas_toNat (switchToShaped x).live (shapedBudget x)
  rw [← hrq] at hrq1 hrq2 hrq3 hrq0
  refine ⟨hsound, switchToShaped_issuable hs hm, ?_, fun hsmall => ⟨switchToShaped_layer hsmall, ?_⟩,
    fun hlarge => ⟨switchToShaped_region hlarge, ?_⟩, hrq1, hrq2, hrq3, hrq0, hsum, ?_⟩
  · exact (switchToShaped_frame x).trans (by rw [hrq])
  · exact fun a ha => switchToShaped_pool_past hsmall ha
  · obtain ⟨_, _, hpool⟩ := switchToShaped_of_large hlarge
    exact fun a => by rw [hpool]
  · rintro s rfl hg hn
    exact exec_scGen_switch hs hm hu hg hn

end Sys2Proof.Proofs
end

section
/-! SUPPORT. What an error leaves of the state it is raised in, read off its code (`spec/60_exceptions.md` R281, R283,
R286). -/

namespace Sys2Proof.Proofs

open Sys2Proof.Machine Sys2Proof.Safety Sys2Proof.Laws

variable {s t : State}

theorem isFatal_eq_errCode (e : CmdError) : isFatal e = (errCode e == 5 || errCode e == 6) := by
  cases e <;> rfl

theorem raise_errorFrame (e : CmdError) (i0 i1 : Word) (s : State) : errorFrame s (raise e i0 i1 s) := rfl

theorem raise_sc_fault (e : CmdError) (i0 i1 : Word) (s : State) :
    (raise e i0 i1 s).sc.fault = (s.sc.fault || errCode e == 5 || errCode e == 6) := by
  rw [raise_sc, isFatal_eq_errCode, Bool.or_assoc]

/-- R280, R283: a command keeps `ERR`, or it changes nothing but what its error records. -/
theorem Ends.precise {i : Instr} (h : Ends i s t) :
    t.err = s.err ∨
      (errorFrame s t ∧ 1 ≤ t.err.toNat ∧ t.err.toNat ≤ 6 ∧
        t.sc.fault = (s.sc.fault || t.err == 5 || t.err == 6)) := by
  rcases h with ⟨_, rfl⟩ | ⟨e, i0, i1, _, rfl⟩
  · obtain ⟨herr, _, _⟩ := effect_errors Config.cfg i s
    exact .inl herr
  · obtain ⟨hpos, hle⟩ := errCode_toNat e
    exact .inr ⟨raise_errorFrame e i0 i1 s, hpos, hle, raise_sc_fault e i0 i1 s⟩

end Sys2Proof.Proofs
end

section
/-! PROOFS. A command that ends in an error (O46). -/

namespace Sys2Proof.Proofs

open Sys2Proof.Machine Sys2Proof.Safety Sys2Proof.Laws

/-- Settles O46: a command's effect keeps `ERR = 0`, and the only other end is an error. -/
theorem errorsArePrecise : Obligations.ErrorsArePrecise := by
  intro i s hs
  obtain ⟨t, hx⟩ := exec_isNext i s
  exact ⟨t, hx, (exec_ends i hx).precise.imp_left fun h => h.trans hs⟩

end Sys2Proof.Proofs
end
